-- ==== Sys2Proof/Word.lean ====
section
/-!
DEFINITION. The word types of MLKEM-CORE: what the spec treats as bits, and nothing else
(00_scope.md R14, 10_state.md R39, 20_memory.md R80-R81).
-/

namespace Sys2Proof

/-- A host data word, a register or a command word: 32 bits (R81, R110). -/
abbrev Word := BitVec 32

/-- One byte of a byte string or of BUF (R46). -/
abbrev Byte := BitVec 8

/-- A raw word of a field register or of a polynomial slot: 12 bits (R39, R42). -/
abbrev Raw := BitVec 12

/-- A byte address inside the block's 64 KiB host-visible space (R80). -/
abbrev HostAddr := BitVec 16

/-- The byte whose unsigned value is `n mod 256`. -/
abbrev Byte.ofNat (n : Nat) : Byte := BitVec.ofNat 8 n

end Sys2Proof
end

