-- ==== Sys2Proof/Config.lean ====
section
/-!
DEFINITION. What is fixed for one MLKEM-CORE: the spec's implementation parameters (00_scope.md R9-R13) and
the open parameters of 92_eei_decisions.md. The open ones have NO BODY: nothing can be proved of their values, so a
statement about the machine holds whatever they are.
-/

namespace Sys2Proof

/-- The modulus of the field (R9). -/
abbrev q : Nat := 3329

namespace Config

/-- MONT_R's default (R13, R40, decision D3): 2^16. Only raw words depend on it. -/
def montR : Nat := 65536

/-- The default's inverse (R40: "R^(-1) mod q = 169"). -/
def montRInv : Nat := 169

/-- BUF_BYTES (R13, R46). -/
def bufBytes : Nat := 8192

/-- BLOCK, the bytes of one BUF block (R13, R86). -/
def blockBytes : Nat := 32

/-- ID_VALUE (R13, R31). -/
def idValue : Word := 0x4D4B0001

/-- BASE_ADDR (R99, decision D2, OPEN): where the platform put the block in its address map. -/
opaque baseAddr : Nat

/-- The collaborator's H256 (R24, R52, decision D30, OPEN). -/
opaque h256 : List Byte → Vector Byte 32

/-- The collaborator's H512 (R24, R52, decision D30, OPEN). -/
opaque h512 : List Byte → Vector Byte 64

/-- The collaborator's XOF128 (R24, R52, decision D30, OPEN): seed, the two extra bytes in order, position in the
infinite stream. -/
opaque xof128 : List Byte → Byte → Byte → Nat → Byte

/-- The collaborator's XOF256 (R24, R52, decision D30, OPEN): seed, the extra byte, position in the infinite stream. -/
opaque xof256 : List Byte → Byte → Nat → Byte

/-- The collaborator's KDF (R24, R52, decision D30, OPEN). -/
opaque kdf : List Byte → Vector Byte 32

/-- RAND_STREAM (R53, decision D29, OPEN): what the random source answers at each position of its stream. `none`: the
source has stalled there and never supplies that byte (R411). -/
opaque randStream : Nat → Option Byte

/-- Free values: how far a command that a reset abandons had come in its draws, one value for each such reset (counted in
State). The spec gives no number, only the commands that draw and a bound (log entry 9). -/
opaque drawsAbandoned : Nat → Nat

end Config

/-- A Montgomery radix: a number with an inverse modulo q, that is, coprime to q (R13, R18). -/
structure Radix where
  r    : Nat
  rInv : Nat
  inv  : r * rInv % q = 1

/-- MONT_R as this hardware has it, the default of every definition that takes a radix (R13, decision D3). -/
def Config.radix : Radix where
  r    := Config.montR
  rInv := Config.montRInv
  inv  := by decide

/-- The five functions behind the hash/XOF collaborator port (R24, R52). The pipeline's algorithms take them as an
argument, "fixed for the whole run". -/
structure Collab where
  h256   : List Byte → Vector Byte 32
  h512   : List Byte → Vector Byte 64
  xof128 : List Byte → Byte → Byte → Nat → Byte
  xof256 : List Byte → Byte → Nat → Byte
  kdf    : List Byte → Vector Byte 32

/-- The collaborator this machine is wired to: five functions of which nothing is known (R24). -/
def Config.collab : Collab where
  h256   := Config.h256
  h512   := Config.h512
  xof128 := Config.xof128
  xof256 := Config.xof256
  kdf    := Config.kdf

/-- What the machine takes as arguments (R55): MONT_R, the five collaborator functions and the random-source draws. -/
structure Params where
  radix  : Radix
  collab : Collab
  rand   : Nat → Option Byte

/-- The arguments of this machine: the default radix, and functions and draws of which nothing is known. -/
def Config.params : Params where
  radix  := Config.radix
  collab := Config.collab
  rand   := Config.randStream

end Sys2Proof
end

