-- ==== Sys2Proof/Syntax.lean ====
section
/-!
DEFINITION. The 42 commands of opcode_table.json (30_encoding.md R112-R116), one constructor each, with their operand
fields decoded as R113 and R114 say. A field keeps every value its bits can hold: a value outside its legal set is a
command that faults (R114), not one that cannot be written.
-/

namespace Sys2Proof

/-- A field register number F0-F15 (R113). -/
abbrev FReg := Fin 16

/-- A polynomial slot number P0-P15 (R113). -/
abbrev Slot := Fin 16

/-- The 4-bit width field d (R114). -/
abbrev Width := Fin 16

/-- A BUF block number (R86, R114). -/
abbrev Blk := Fin 256

/-- The domain tag of a slot (R42, R43). -/
inductive Tag where
  /-- coefficient domain, encoded 0 -/
  | normal
  /-- transformed domain, encoded 1 -/
  | ntt
deriving DecidableEq, Repr

/-- A command. The comment of each constructor is its assembler form (R120) and its rule. -/
inductive Instr where
  /-- `NOP` (R350) -/
  | nop
  /-- `ZEROIZE` (R351) -/
  | zeroize
  /-- `FADD Fd, Fa, Fb` (R154) -/
  | fadd (rd ra rb : FReg)
  /-- `FSUB Fd, Fa, Fb` (R155) -/
  | fsub (rd ra rb : FReg)
  /-- `FNEG Fd, Fa` (R156) -/
  | fneg (rd ra : FReg)
  /-- `FMUL Fd, Fa, Fb` (R157) -/
  | fmul (rd ra rb : FReg)
  /-- `FINV Fd, Fa` (R158) -/
  | finv (rd ra : FReg)
  /-- `FDIV Fd, Fa, Fb` (R159) -/
  | fdiv (rd ra rb : FReg)
  /-- `FPOW Fd, Fa, #e` (R160) -/
  | fpow (rd ra : FReg) (e : Fin 4096)
  /-- `FEQ Fa, Fb` (R161) -/
  | feq (ra rb : FReg)
  /-- `FLI Fd, #v` (R162) -/
  | fli (rd : FReg) (v : Fin 4096)
  /-- `FMOV Fd, Fa` (R163) -/
  | fmov (rd ra : FReg)
  /-- `FRAND Fd` (R164) -/
  | frand (rd : FReg)
  /-- `FTOM Fd, Fa` (R165) -/
  | ftom (rd ra : FReg)
  /-- `FFROMM Fd, Fa` (R166) -/
  | ffromm (rd ra : FReg)
  /-- `FCOMP Fd, Fa, #d` (R167) -/
  | fcomp (rd ra : FReg) (d : Width)
  /-- `FDECOMP Fd, Fa, #d` (R168) -/
  | fdecomp (rd ra : FReg) (d : Width)
  /-- `FBCT Fa, Fb, Fz` (R169) -/
  | fbct (ra rb rz : FReg)
  /-- `FBGS Fa, Fb, Fz` (R170) -/
  | fbgs (ra rb rz : FReg)
  /-- `FLD Fd, Ps[idx]` (R171) -/
  | fld (rd : FReg) (ps : Slot) (idx : Fin 256)
  /-- `FST Pd[idx], Fa` (R172) -/
  | fst (pd : Slot) (fa : FReg) (idx : Fin 256)
  /-- `PADD Pd, Pa, Pb` (R213) -/
  | padd (pd pa pb : Slot)
  /-- `PSUB Pd, Pa, Pb` (R214) -/
  | psub (pd pa pb : Slot)
  /-- `PNTT Pd, Pa` (R215) -/
  | pntt (pd pa : Slot)
  /-- `PINTT Pd, Pa` (R216) -/
  | pintt (pd pa : Slot)
  /-- `PBMUL Pd, Pa, Pb` (R217) -/
  | pbmul (pd pa pb : Slot)
  /-- `PBMAC Pd, Pa, Pb` (R218) -/
  | pbmac (pd pa pb : Slot)
  /-- `PCOPY Pd, Pa` (R219) -/
  | pcopy (pd pa : Slot)
  /-- `PZERO Pd, NORMAL|NTT` (R223) -/
  | pzero (pd : Slot) (t : Tag)
  /-- `PSCALE Pd, Pa, Fb` (R224) -/
  | pscale (pd pa : Slot) (fb : FReg)
  /-- `PCOMP Pd, Pa, #d` (R225) -/
  | pcomp (pd pa : Slot) (d : Width)
  /-- `PDECOMP Pd, Pa, #d` (R226) -/
  | pdecomp (pd pa : Slot) (d : Width)
  /-- `PARSE Pd, #x, #y, @blk` (R253) -/
  | parse (pd : Slot) (x y : Fin 4) (blk : Blk)
  /-- `CBD Pd, #eta, #N, @blk` (R257) -/
  | cbd (pd : Slot) (eta : Fin 4) (n : Fin 256) (blk : Blk)
  /-- `PENC Pa, #d, @blk` (R264) -/
  | penc (pa : Slot) (d : Width) (blk : Blk)
  /-- `PDEC Pd, #d, @blk, NORMAL|NTT` (R265) -/
  | pdec (pd : Slot) (d : Width) (blk : Blk) (t : Tag)
  /-- `PKE_KEYGEN` (R295) -/
  | pkeKeygen
  /-- `PKE_ENC` (R296) -/
  | pkeEnc
  /-- `PKE_DEC` (R297) -/
  | pkeDec
  /-- `KEM_KEYGEN` (R324) -/
  | kemKeygen
  /-- `KEM_ENCAPS` (R325) -/
  | kemEncaps
  /-- `KEM_DECAPS` (R326) -/
  | kemDecaps
deriving DecidableEq, Repr

end Sys2Proof
end

