-- ==== Sys2Proof/Decode.lean ====
section
/-!
DEFINITION. The command decoder, total on all 2^32 words (30_encoding.md R110-R119), and after it the encoder, both from
the format table R112 and the opcode map R116.
-/

namespace Sys2Proof

/-- The command formats (R112). -/
inductive Format where
  | n | r3 | r2 | rc | r1 | i12 | li | qz | bf | m | ms | p3 | p2 | pf | pq | pt | sp | sc | se | sd
deriving DecidableEq, Repr

/-- Why a word is no command; the machine takes the command fault of the same name (R115, R117). -/
inductive DecodeError where
  /-- a reserved opcode (R117) -/
  | illegalOpcode
  /-- an assigned opcode with a 1 under its format's zero mask (R115) -/
  | reservedBits
deriving DecidableEq, Repr

/-- What the decoder answers. -/
inductive Decoded where
  | command (i : Instr)
  | rejected (e : DecodeError)
deriving DecidableEq, Repr

/-- The zero mask of each format: the bits that must be 0 (R112). -/
def Format.zeroMask : Format → Word
  | .n   => 0x03FFFFFF
  | .r3  => 0x00003FFF
  | .r2  => 0x0003FFFF
  | .rc  => 0x03C03FFF
  | .r1  => 0x003FFFFF
  | .i12 => 0x0003F000
  | .li  => 0x003FF000
  | .qz  => 0x00003FFF
  | .bf  => 0x00003FFF
  | .m   => 0x0003FF00
  | .ms  => 0x0003FF00
  | .p3  => 0x00003FFF
  | .p2  => 0x0003FFFF
  | .pf  => 0x00003FFF
  | .pq  => 0x00003FFF
  | .pt  => 0x003FDFFF
  | .sp  => 0x0003FF00
  | .sc  => 0x00000F00
  | .se  => 0x0003FF00
  | .sd  => 0x0003DF00

/-- The unsigned value of the `len` bits of `w` from bit `lo` up (R14). -/
def field (w : Word) (lo len : Nat) : Nat := w.toNat / 2 ^ lo % 2 ^ len

/-- OP, w[31:26] (R111). -/
def opField (w : Word) : Nat := field w 26 6

/-- The 4-bit field A, w[25:22] (R111). -/
def fieldA (w : Word) : Fin 16 := ⟨field w 22 4, Nat.mod_lt _ (by decide)⟩

/-- The 4-bit field B, w[21:18] (R111). -/
def fieldB (w : Word) : Fin 16 := ⟨field w 18 4, Nat.mod_lt _ (by decide)⟩

/-- The 4-bit field C, w[17:14] (R111). -/
def fieldC (w : Word) : Fin 16 := ⟨field w 14 4, Nat.mod_lt _ (by decide)⟩

/-- imm12, w[11:0] (R114). -/
def fieldImm12 (w : Word) : Fin 4096 := ⟨field w 0 12, Nat.mod_lt _ (by decide)⟩

/-- idx or blk, w[7:0] (R114). -/
def fieldLow8 (w : Word) : Fin 256 := ⟨field w 0 8, Nat.mod_lt _ (by decide)⟩

/-- x of PARSE or eta of CBD, w[21:20] (R114). -/
def fieldX (w : Word) : Fin 4 := ⟨field w 20 2, Nat.mod_lt _ (by decide)⟩

/-- y of PARSE, w[19:18] (R114). -/
def fieldY (w : Word) : Fin 4 := ⟨field w 18 2, Nat.mod_lt _ (by decide)⟩

/-- The PRF counter byte N of CBD, w[19:12] (R114). -/
def fieldN (w : Word) : Fin 256 := ⟨field w 12 8, Nat.mod_lt _ (by decide)⟩

/-- The domain tag T, w[13] (R114). -/
def fieldT (w : Word) : Tag := if field w 13 1 = 1 then .ntt else .normal

/-- One row of the opcode map: an opcode, its format, and the command a word of it stands for. -/
structure OpRow where
  op     : Nat
  format : Format
  read   : Word → Instr

/-- Rows of the control commands (R116). -/
def controlRows : List OpRow := [
  ⟨0x00, .n, fun _ => .nop⟩,
  ⟨0x01, .n, fun _ => .zeroize⟩]

/-- Rows of the field unit (R116). -/
def fieldRows : List OpRow := [
  ⟨0x08, .r3, fun w => .fadd (fieldA w) (fieldB w) (fieldC w)⟩,
  ⟨0x09, .r3, fun w => .fsub (fieldA w) (fieldB w) (fieldC w)⟩,
  ⟨0x0A, .r2, fun w => .fneg (fieldA w) (fieldB w)⟩,
  ⟨0x0B, .r3, fun w => .fmul (fieldA w) (fieldB w) (fieldC w)⟩,
  ⟨0x0C, .r2, fun w => .finv (fieldA w) (fieldB w)⟩,
  ⟨0x0D, .r3, fun w => .fdiv (fieldA w) (fieldB w) (fieldC w)⟩,
  ⟨0x0E, .i12, fun w => .fpow (fieldA w) (fieldB w) (fieldImm12 w)⟩,
  ⟨0x0F, .rc, fun w => .feq (fieldB w) (fieldC w)⟩,
  ⟨0x10, .li, fun w => .fli (fieldA w) (fieldImm12 w)⟩,
  ⟨0x11, .r2, fun w => .fmov (fieldA w) (fieldB w)⟩,
  ⟨0x12, .r1, fun w => .frand (fieldA w)⟩,
  ⟨0x13, .r2, fun w => .ftom (fieldA w) (fieldB w)⟩,
  ⟨0x14, .r2, fun w => .ffromm (fieldA w) (fieldB w)⟩,
  ⟨0x15, .qz, fun w => .fcomp (fieldA w) (fieldB w) (fieldC w)⟩,
  ⟨0x16, .qz, fun w => .fdecomp (fieldA w) (fieldB w) (fieldC w)⟩,
  ⟨0x17, .bf, fun w => .fbct (fieldA w) (fieldB w) (fieldC w)⟩,
  ⟨0x18, .bf, fun w => .fbgs (fieldA w) (fieldB w) (fieldC w)⟩,
  ⟨0x19, .m, fun w => .fld (fieldA w) (fieldB w) (fieldLow8 w)⟩,
  ⟨0x1A, .ms, fun w => .fst (fieldA w) (fieldB w) (fieldLow8 w)⟩]

/-- Rows of the polynomial unit (R116). -/
def polyRows : List OpRow := [
  ⟨0x20, .p3, fun w => .padd (fieldA w) (fieldB w) (fieldC w)⟩,
  ⟨0x21, .p3, fun w => .psub (fieldA w) (fieldB w) (fieldC w)⟩,
  ⟨0x22, .p2, fun w => .pntt (fieldA w) (fieldB w)⟩,
  ⟨0x23, .p2, fun w => .pintt (fieldA w) (fieldB w)⟩,
  ⟨0x24, .p3, fun w => .pbmul (fieldA w) (fieldB w) (fieldC w)⟩,
  ⟨0x25, .p3, fun w => .pbmac (fieldA w) (fieldB w) (fieldC w)⟩,
  ⟨0x26, .p2, fun w => .pcopy (fieldA w) (fieldB w)⟩,
  ⟨0x27, .pt, fun w => .pzero (fieldA w) (fieldT w)⟩,
  ⟨0x28, .pf, fun w => .pscale (fieldA w) (fieldB w) (fieldC w)⟩,
  ⟨0x29, .pq, fun w => .pcomp (fieldA w) (fieldB w) (fieldC w)⟩,
  ⟨0x2A, .pq, fun w => .pdecomp (fieldA w) (fieldB w) (fieldC w)⟩]

/-- Rows of the samplers and byte packers (R116). -/
def samplingRows : List OpRow := [
  ⟨0x30, .sp, fun w => .parse (fieldA w) (fieldX w) (fieldY w) (fieldLow8 w)⟩,
  ⟨0x31, .sc, fun w => .cbd (fieldA w) (fieldX w) (fieldN w) (fieldLow8 w)⟩,
  ⟨0x32, .se, fun w => .penc (fieldA w) (fieldB w) (fieldLow8 w)⟩,
  ⟨0x33, .sd, fun w => .pdec (fieldA w) (fieldB w) (fieldLow8 w) (fieldT w)⟩]

/-- Rows of the macro commands (R116). -/
def macroRows : List OpRow := [
  ⟨0x38, .n, fun _ => .pkeKeygen⟩,
  ⟨0x39, .n, fun _ => .pkeEnc⟩,
  ⟨0x3A, .n, fun _ => .pkeDec⟩,
  ⟨0x3B, .n, fun _ => .kemKeygen⟩,
  ⟨0x3C, .n, fun _ => .kemEncaps⟩,
  ⟨0x3D, .n, fun _ => .kemDecaps⟩]

/-- The opcode map (R116): 42 rows; an opcode in none of them is reserved (R117). -/
def opRows : List OpRow := controlRows ++ fieldRows ++ polyRows ++ samplingRows ++ macroRows

/-- The row of an opcode, if the opcode is assigned. -/
def rowOf (op : Nat) : Option OpRow := opRows.find? (fun r => r.op == op)

/-- The decoder (R116, R118): a reserved opcode first, then the reserved bits, then the command. -/
def decode (w : Word) : Decoded :=
  match rowOf (opField w) with
  | none => .rejected .illegalOpcode
  | some r => if w &&& r.format.zeroMask = 0 then .command (r.read w) else .rejected .reservedBits

/-- The encoding of a domain tag (R42). -/
def Tag.bit : Tag → Nat
  | .normal => 0
  | .ntt => 1

/-- The word with the fields OP, A, B, C and L in their places (R111). -/
def packWord (op a b c l : Nat) : Word :=
  BitVec.ofNat 32 (op * 2 ^ 26 + a * 2 ^ 22 + b * 2 ^ 18 + c * 2 ^ 14 + l)

/-- The encoder: the word of a command, from R112 and R116. -/
def encode : Instr → Word
  | .nop => packWord 0x00 0 0 0 0
  | .zeroize => packWord 0x01 0 0 0 0
  | .fadd rd ra rb => packWord 0x08 rd ra rb 0
  | .fsub rd ra rb => packWord 0x09 rd ra rb 0
  | .fneg rd ra => packWord 0x0A rd ra 0 0
  | .fmul rd ra rb => packWord 0x0B rd ra rb 0
  | .finv rd ra => packWord 0x0C rd ra 0 0
  | .fdiv rd ra rb => packWord 0x0D rd ra rb 0
  | .fpow rd ra e => packWord 0x0E rd ra 0 e
  | .feq ra rb => packWord 0x0F 0 ra rb 0
  | .fli rd v => packWord 0x10 rd 0 0 v
  | .fmov rd ra => packWord 0x11 rd ra 0 0
  | .frand rd => packWord 0x12 rd 0 0 0
  | .ftom rd ra => packWord 0x13 rd ra 0 0
  | .ffromm rd ra => packWord 0x14 rd ra 0 0
  | .fcomp rd ra d => packWord 0x15 rd ra d 0
  | .fdecomp rd ra d => packWord 0x16 rd ra d 0
  | .fbct ra rb rz => packWord 0x17 ra rb rz 0
  | .fbgs ra rb rz => packWord 0x18 ra rb rz 0
  | .fld rd ps idx => packWord 0x19 rd ps 0 idx
  | .fst pd fa idx => packWord 0x1A pd fa 0 idx
  | .padd pd pa pb => packWord 0x20 pd pa pb 0
  | .psub pd pa pb => packWord 0x21 pd pa pb 0
  | .pntt pd pa => packWord 0x22 pd pa 0 0
  | .pintt pd pa => packWord 0x23 pd pa 0 0
  | .pbmul pd pa pb => packWord 0x24 pd pa pb 0
  | .pbmac pd pa pb => packWord 0x25 pd pa pb 0
  | .pcopy pd pa => packWord 0x26 pd pa 0 0
  | .pzero pd t => packWord 0x27 pd 0 0 (t.bit * 2 ^ 13)
  | .pscale pd pa fb => packWord 0x28 pd pa fb 0
  | .pcomp pd pa d => packWord 0x29 pd pa d 0
  | .pdecomp pd pa d => packWord 0x2A pd pa d 0
  | .parse pd x y blk => packWord 0x30 pd 0 0 (x * 2 ^ 20 + y * 2 ^ 18 + blk)
  | .cbd pd eta n blk => packWord 0x31 pd 0 0 (eta * 2 ^ 20 + n * 2 ^ 12 + blk)
  | .penc pa d blk => packWord 0x32 pa d 0 blk
  | .pdec pd d blk t => packWord 0x33 pd d 0 (t.bit * 2 ^ 13 + blk)
  | .pkeKeygen => packWord 0x38 0 0 0 0
  | .pkeEnc => packWord 0x39 0 0 0 0
  | .pkeDec => packWord 0x3A 0 0 0 0
  | .kemKeygen => packWord 0x3B 0 0 0 0
  | .kemEncaps => packWord 0x3C 0 0 0 0
  | .kemDecaps => packWord 0x3D 0 0 0 0

/-- What the decoder reads from an instruction of `nbits` bits with the value `w`, its bits numbered as
opcode_table.json numbers them. Every row has one 32-bit word (R110), so bits above `nbits` are zeros of that word. -/
def decodeTableWord (nbits w : Nat) : Option Instr :=
  if w % 2 ^ nbits < 2 ^ 32 then
    match decode (BitVec.ofNat 32 (w % 2 ^ nbits)) with
    | .command i => some i
    | .rejected _ => none
  else none

end Sys2Proof
end

