-- ==== Sys2Proof/Machine/State.lean ====
section
/-!
DEFINITION. The state of MLKEM-CORE as plain data (10_state.md R30-R55): every register, store, flag and latch the spec
names, and the model's own fields: for the agents outside the unit (the host's coming accesses, the word its last read
returned, the random source's position), the attempts of a running command, and the count of free values used. `State.reset` is the state at the end of
the reset step (70_reset_and_hazards.md R401).
-/

namespace Sys2Proof.Machine

/-- Why the machine stops. There is NO such reason: every 32-bit word completes as a command or takes a command fault,
which is a next state (30_encoding.md R118, 60_exceptions.md R368), and every host access is performed, dropped or
ignored (20_memory.md R82-R84). So no step ends in a fault; that is neither safe nor unsafe, it is the spec's. -/
inductive Fault where
deriving DecidableEq, Repr

/-- Why the model gives no meaning. -/
inductive Refusal where
  /-- An instruction that has no meaning yet, by its mnemonic. Raised by `exec`'s arms only; at present by none. Safe: the
  run ends where the hardware goes on. -/
  | notModelled (mnemonic : String)
deriving DecidableEq, Repr

/-- The cause codes ERRCODE records (R361); 7-255 are never produced (I12). -/
inductive FaultCode where
  /-- 0: no fault since reset -/
  | noFault
  /-- 1 -/
  | illegalOpcode
  /-- 2 -/
  | reservedBits
  /-- 3 -/
  | badField
  /-- 4 -/
  | badLevel
  /-- 5 -/
  | bufRange
  /-- 6 -/
  | domainMismatch
deriving DecidableEq, Repr

/-- The 256 raw words of one polynomial slot (R42). -/
abbrev Poly := Vector Raw 256

/-- A byte store as the list of its cells that are not 0x00, addresses strictly rising; an address that is not listed
reads 0x00, the reset value of every BUF byte (R46, R54). -/
abbrev Memory := List Host.Cell

/-- What the unit latches when it accepts a command (R34, R51), and the model's count of the unit steps the command has
already taken without completing (log entry 2). -/
structure Pending where
  cmd     : Word
  level   : BitVec 2
  detrng  : Bool
  attempt : Nat
deriving DecidableEq, Repr

/-- What the unit is doing; STATUS.BUSY is 1 in every phase but `idle` (R33, R49). -/
inductive Phase where
  /-- nothing: waiting for a CMD write (R385) -/
  | idle
  /-- reset initialisation (R401) -/
  | initialising
  /-- an accepted command between its accept step and its completion step (R93) -/
  | running (p : Pending)
deriving DecidableEq, Repr

/-- One move of an agent outside the unit, in the order the moves happen (20_memory.md R92). Addresses are system byte
addresses (R99). -/
inductive HostEvent where
  /-- the host reads the word at an address -/
  | read (addr : Nat)
  /-- the host writes a word; the bus ignores the byte enables (R83) -/
  | write (addr : Nat) (byteEnables : BitVec 4) (data : Word)
  /-- the reset input is asserted and released (R400) -/
  | reset
  /-- no outside agent moves: the unit takes its step -/
  | wait
deriving DecidableEq, Repr

structure State where
  /-- CTRL.LEVEL (R32) -/
  level    : BitVec 2
  /-- CTRL.DETRNG (R32) -/
  detrng   : Bool
  /-- STATUS.BUSY, the pending command and the level latch (R33, R34, R51) -/
  phase    : Phase
  /-- STATUS.DONE (R33) -/
  done     : Bool
  /-- STATUS.ERR (R33) -/
  err      : Bool
  /-- STATUS.EQ (R33, R48) -/
  eqFlag   : Bool
  /-- STATUS.CMDREJ (R33) -/
  cmdrej   : Bool
  /-- STATUS.BUSYACC (R33) -/
  busyacc  : Bool
  /-- STATUS.BADVAL (R33) -/
  badval   : Bool
  /-- ERRCODE (R35) -/
  errcode  : FaultCode
  /-- ERRCMD (R35) -/
  errcmd   : Word
  /-- CMDCNT (R37) -/
  cmdcnt   : Word
  /-- IRQEN.DONE_IE (R38) -/
  doneIE   : Bool
  /-- IRQEN.ERR_IE (R38) -/
  errIE    : Bool
  /-- TAG (R43) -/
  tags     : Vector Tag 16
  /-- the field registers F0-F15 (R39) -/
  fregs    : Vector Raw 16
  /-- the polynomial slots P0-P15 (R42) -/
  slots    : Vector Poly 16
  /-- BUF (R46) -/
  buf      : Memory
  /-- the private scratch (R50); its organisation is the implementation's, its only visible fact is that it is zero -/
  scratch  : Memory
  /-- MODEL: the moves of the host and of the reset input still to come, next first -/
  script   : List HostEvent
  /-- MODEL: the word the block returned to the host's last read (R81) -/
  rdata    : Word
  /-- MODEL: the random source's position in its stream (R53: the source's state, not the unit's) -/
  randPos  : Nat
  /-- MODEL: how many commands that draw a reset has abandoned, so the next free value of `Config.drawsAbandoned` -/
  freeDraws : Nat
deriving DecidableEq, Repr

/-- The state the reset step leaves (R54, R401): BUSY = 1 for the initialisation, everything else at its reset value. The
last four fields are the model's own; their values are the choice of log entry 1. -/
def State.reset : State where
  level    := 0
  detrng   := false
  phase    := .initialising
  done     := false
  err      := false
  eqFlag   := false
  cmdrej   := false
  busyacc  := false
  badval   := false
  errcode  := .noFault
  errcmd   := 0
  cmdcnt   := 0
  doneIE   := false
  errIE    := false
  tags     := Vector.replicate 16 .normal
  fregs    := Vector.replicate 16 0
  slots    := Vector.replicate 16 (Vector.replicate 256 0)
  buf      := []
  scratch  := []
  script   := []
  rdata    := 0
  randPos  := 0
  freeDraws := 0

end Sys2Proof.Machine
end

