-- ==== Sys2Proof/Machine/Arith.lean ====
section
/-!
DEFINITION. Arithmetic in Z_q on values (00_scope.md R9, R15, R18, R19) and the Montgomery form of a raw word (10_state.md
R40). Values are natural numbers, computed exactly and reduced at the end.
-/

namespace Sys2Proof.Machine

/-- The value a raw word stands for under a radix with inverse `rinv`: w · R^(-1) mod q (R18). -/
def valFor (rinv : Nat) (w : Raw) : Nat := w.toNat * rinv % q

/-- The raw word of a value under the radix `r`: a · R mod q (R18). -/
def montFor (r a : Nat) : Raw := BitVec.ofNat 12 (a * r % q)

/-- `val(w)` (R18), with the hardware's radix unless another is given. -/
def val (w : Raw) (R : Radix := Config.radix) : Nat := valFor R.rInv w

/-- `mont(a)` (R18), with the hardware's radix unless another is given. -/
def mont (a : Nat) (R : Radix := Config.radix) : Raw := montFor R.r a

/-- (a + b) mod q. -/
def addMod (a b : Nat) : Nat := (a + b) % q

/-- (a - b) mod q (R15: the residue in [0, q), also of a negative difference). -/
def subMod (a b : Nat) : Nat := (a + (q - b % q)) % q

/-- (a · b) mod q. -/
def mulMod (a b : Nat) : Nat := a * b % q

/-- a^e mod q, with x^0 = 1 for every x (R160). -/
def powMod (a e : Nat) : Nat := a ^ e % q

/-- The inverse by Fermat: a^(q-2) mod q, so the inverse of 0 is 0 (R158). -/
def invMod (a : Nat) : Nat := powMod a (q - 2)

/-- The centred distance of two values (R19). -/
def cdist (a b : Nat) : Nat := min (subMod a b) (subMod b a)

/-- Σ_{t<n} b(t)·2^t: the unsigned value of n bits, first bit least significant (R14). -/
def bitSum : Nat → (Nat → Bool) → Nat
  | 0, _ => 0
  | n + 1, b => bitSum n b + (b n).toNat * 2 ^ n

end Sys2Proof.Machine
end

