-- ==== Sys2Proof/Machine/Ops.lean ====
section
/-!
DEFINITION. The named operations over the stores (00_scope.md R17), the completion step of a command (20_memory.md R93),
the command fault and the way out of the fault state (60_exceptions.md R368, R372), and the end of reset initialisation
(70_reset_and_hazards.md R401).
-/

namespace Sys2Proof.Machine

/-! ## The byte store -/

/-- The byte at an address; 0x00 where nothing is listed. -/
def Memory.read : Memory → Nat → Byte
  | [], _ => 0
  | (k, v) :: m, a => if a = k then v else Memory.read m a

/-- The cells without those at an address. -/
def Memory.erase : Memory → Nat → Memory
  | [], _ => []
  | (k, v) :: m, a => if k = a then Memory.erase m a else (k, v) :: Memory.erase m a

/-- The cells with `b` at an address, in order. -/
def Memory.insert : Memory → Nat → Byte → Memory
  | [], a, b => [(a, b)]
  | (k, v) :: m, a, b =>
    if a < k then (a, b) :: (k, v) :: m
    else if a = k then (a, b) :: m
    else (k, v) :: Memory.insert m a b

/-- Write one byte; a 0x00 is not listed. -/
def Memory.write (m : Memory) (a : Nat) (b : Byte) : Memory := if b = 0 then m.erase a else m.insert a b

/-- BufWrite: the bytes of `bs` from address `a` up (R17). -/
def Memory.writeBytes : Memory → Nat → List Byte → Memory
  | m, _, [] => m
  | m, a, b :: bs => Memory.writeBytes (Memory.write m a b) (a + 1) bs

/-- BufRead: the `n` bytes from address `a` up (R17). -/
def Memory.readBytes (m : Memory) (a n : Nat) : List Byte :=
  (List.range n).map fun i => m.read (a + i)

/-- Every cell lies above `lo`, in rising order, below the size of BUF, and holds a byte that is not 0x00. -/
def Memory.sortedFrom : Nat → Memory → Bool
  | _, [] => true
  | lo, (k, v) :: m => decide (lo ≤ k) && decide (k < Config.bufBytes) && decide (v ≠ 0) && Memory.sortedFrom (k + 1) m

/-- The canonical form: addresses strictly rising, inside BUF (R46), no cell equal to what an unlisted address reads. -/
def Memory.wf (m : Memory) : Bool := Memory.sortedFrom 0 m

/-! ## Reading and writing the stores (R17) -/

/-- `F[i]`: the raw word of a field register (R39). -/
def State.freg (s : State) (i : FReg) : Raw := s.fregs[i.val]

/-- `F[i] <- w`. -/
def State.setFreg (s : State) (i : FReg) (w : Raw) : State := { s with fregs := s.fregs.set i.val w }

/-- `S[p]`: the 256 raw words of a slot (R42). -/
def State.slot (s : State) (p : Slot) : Poly := s.slots[p.val]

/-- `TAG[p]` (R43). -/
def State.tag (s : State) (p : Slot) : Tag := s.tags[p.val]

/-- `S[p] <- words; TAG[p] <- t`, in one step (R200). -/
def State.setSlot (s : State) (p : Slot) (words : Poly) (t : Tag) : State :=
  { s with slots := s.slots.set p.val words, tags := s.tags.set p.val t }

/-- `S[p][j]` (R42). -/
def State.slotWord (s : State) (p : Slot) (j : Fin 256) : Raw := (s.slot p)[j.val]

/-- `S[p][j] <- w`; the tag and the other 255 words stay (R44, R172). -/
def State.setSlotWord (s : State) (p : Slot) (j : Fin 256) (w : Raw) : State :=
  { s with slots := s.slots.set p.val ((s.slot p).set j.val w) }

/-- `BufRead(a, n)`. -/
def State.readBuf (s : State) (a n : Nat) : List Byte := s.buf.readBytes a n

/-- `BufWrite(a, n, bs)` with n the length of `bs`. -/
def State.writeBuf (s : State) (a : Nat) (bs : List Byte) : State := { s with buf := s.buf.writeBytes a bs }

/-- `EQ <- b` (R17, R48). -/
def State.setEq (s : State) (b : Bool) : State := { s with eqFlag := b }

/-- The unit overwrites its private scratch with zeros (R50). -/
def State.clearScratch (s : State) : State := { s with scratch := [] }

/-- The random source has supplied bytes up to position `n` (R53). -/
def State.setRandPos (s : State) (n : Nat) : State := { s with randPos := n }

/-! ## The running command -/

/-- The full command word the unit runs (R34); 0 when it runs none. -/
def State.cmdWord (s : State) : Word :=
  match s.phase with
  | .running p => p.cmd
  | .idle | .initialising => 0

/-- The latched LEVEL (R51), which is CTRL.LEVEL when no command runs. -/
def State.latchedLevel (s : State) : BitVec 2 :=
  match s.phase with
  | .running p => p.level
  | .idle | .initialising => s.level

/-- The latched DETRNG (R51), which is CTRL.DETRNG when no command runs. -/
def State.latchedDetrng (s : State) : Bool :=
  match s.phase with
  | .running p => p.detrng
  | .idle | .initialising => s.detrng

/-- The unit steps the running command has taken without completing (the model's own count). -/
def State.attempt (s : State) : Nat :=
  match s.phase with
  | .running p => p.attempt
  | .idle | .initialising => 0

/-- STATUS.BUSY (R33). -/
def State.busy (s : State) : Bool :=
  match s.phase with
  | .idle => false
  | .initialising | .running _ => true

/-- How many groups of an unbounded loop (R250, R164) the unit looks through before this unit step ends. It grows without
bound with the steps the command has taken, so a loop that ends at all ends after finitely many unit steps, and one that
does not leaves the command busy for ever (R252, R415). DESIGN CHOICE, log entry 2. -/
def State.budget (s : State) : Nat := 256 * (s.attempt + 1)

/-- The completion step of a command that did not fault (R33, R37, R93): BUSY <- 0, DONE <- 1, CMDCNT counts it. -/
def State.complete (s : State) : State :=
  { s with phase := .idle, done := true, cmdcnt := s.cmdcnt + 1 }

/-- Fault entry (R368): the completion step of a command that faults, and nothing else. -/
def State.takeFault (s : State) (code : FaultCode) : State :=
  { s with phase := .idle, done := true, err := true, errcode := code, errcmd := s.cmdWord }

/-- A unit step at which the command has not completed: it stays busy (R252, R411). -/
def State.keepBusy (s : State) : State :=
  match s.phase with
  | .running p => { s with phase := .running { p with attempt := p.attempt + 1 } }
  | .idle | .initialising => s

/-- Leaving the fault state (R372): ERR <- 0; ERRCODE and ERRCMD keep their values. -/
def State.leaveFault (s : State) : State := { s with err := false }

/-- The accept step of a command (R34, R51, R93). -/
def State.accept (s : State) (w : Word) : State :=
  { s with phase := .running { cmd := w, level := s.level, detrng := s.detrng, attempt := 0 }, done := false }

/-- The end of reset initialisation: BUSY <- 0 (R401). -/
def State.endInit (s : State) : State := { s with phase := .idle }

end Sys2Proof.Machine
end

