-- ==== Sys2Proof/Machine/Flags.lean ====
section
/-!
DEFINITION. The register words the flags and control bits make up (10_state.md R32, R33, R35, R38, R43), their write
rules, and the interrupt line (60_exceptions.md R375).
-/

namespace Sys2Proof.Machine

/-- The cause code ERRCODE records (R361). -/
def FaultCode.code : FaultCode → Byte
  | .noFault => 0
  | .illegalOpcode => 1
  | .reservedBits => 2
  | .badField => 3
  | .badLevel => 4
  | .bufRange => 5
  | .domainMismatch => 6

/-- The word with the given bits from bit 0 up and zeros above. -/
def wordOfBits (bits : List Bool) : Word :=
  BitVec.ofNat 32 (bitSum bits.length fun t => bits.getD t false)

/-- CTRL as the host reads it (R32). -/
def State.ctrlWord (s : State) : Word := wordOfBits [s.level.getLsbD 0, s.level.getLsbD 1, s.detrng]

/-- A CTRL write (R32): any LEVEL, DETRNG; reserved bits are ignored. -/
def State.writeCtrl (s : State) (d : Word) : State :=
  { s with level := d.extractLsb' 0 2, detrng := d.getLsbD 2 }

/-- STATUS as the host reads it (R33). -/
def State.statusWord (s : State) : Word :=
  wordOfBits [s.busy, s.done, s.err, s.eqFlag, s.cmdrej, s.busyacc, s.badval]

/-- A STATUS write (R33): a 1 clears DONE, ERR (leaving the fault state, R372), CMDREJ, BUSYACC or BADVAL; a 0, a
read-only bit and a reserved bit do nothing. -/
def State.writeStatus (s : State) (d : Word) : State :=
  let s := if d.getLsbD 2 then s.leaveFault else s
  { s with
    done := s.done && !d.getLsbD 1
    cmdrej := s.cmdrej && !d.getLsbD 4
    busyacc := s.busyacc && !d.getLsbD 5
    badval := s.badval && !d.getLsbD 6 }

/-- IRQEN as the host reads it (R38). -/
def State.irqenWord (s : State) : Word := wordOfBits [s.doneIE, s.errIE]

/-- An IRQEN write (R38). -/
def State.writeIrqen (s : State) (d : Word) : State := { s with doneIE := d.getLsbD 0, errIE := d.getLsbD 1 }

/-- TAG as the host reads it (R43): bit s is TAG[s]. -/
def State.tagWord (s : State) : Word := wordOfBits (s.tags.toList.map fun t => decide (t = .ntt))

/-- A TAG write (R43): all 16 tags from D[15:0]. -/
def State.writeTag (s : State) (d : Word) : State :=
  { s with tags := Vector.ofFn fun i => if d.getLsbD i.val then .ntt else .normal }

/-- IRQ (R375): a function of the current state. -/
def State.irq (s : State) : Bool := (s.done && s.doneIE) || (s.err && s.errIE)

end Sys2Proof.Machine
end

