-- ==== Sys2Proof/Machine/Bus.lean ====
section
/-!
DEFINITION. The host's accesses: the address map (20_memory.md R80-R99), the register and window accesses with their
BUSY-phase rule (10_state.md R31-R49), and one move of an outside agent.
-/

namespace Sys2Proof.Machine

/-- What a word of the block's address space is (R99). -/
inductive Target where
  | id | ctrl | status | cmd | errcode | errcmd | cmdcnt | irqen | tag
  | freg (i : FReg)
  | slotWord (p : Slot) (j : Fin 256)
  | buf (a : Nat)
  | unmapped
deriving DecidableEq, Repr

/-- The address map (R99), with address bits [1:0] ignored (R82). -/
def addressMap (addr : HostAddr) : Target :=
  let a := addr.toNat / 4 * 4
  if a = 0x00 then .id
  else if a = 0x04 then .ctrl
  else if a = 0x08 then .status
  else if a = 0x0C then .cmd
  else if a = 0x10 then .errcode
  else if a = 0x14 then .errcmd
  else if a = 0x18 then .cmdcnt
  else if a = 0x1C then .irqen
  else if a = 0x20 then .tag
  else if 0x0400 ≤ a ∧ a < 0x0440 then .freg (Fin.ofNat 16 ((a - 0x0400) / 4))
  else if 0x4000 ≤ a ∧ a < 0x8000 then
    .slotWord (Fin.ofNat 16 ((a - 0x4000) / 1024)) (Fin.ofNat 256 ((a - 0x4000) % 1024 / 4))
  else if 0x8000 ≤ a ∧ a < 0xA000 then .buf (a - 0x8000)
  else .unmapped

/-- The BUF window is little-endian (R85). -/
def State.bufWord (s : State) (a : Nat) : Word :=
  s.buf.read (a + 3) ++ s.buf.read (a + 2) ++ s.buf.read (a + 1) ++ s.buf.read a

/-- The four bytes of a word in BUF order (R85). -/
def wordBytes (d : Word) : List Byte :=
  [d.extractLsb' 0 8, d.extractLsb' 8 8, d.extractLsb' 16 8, d.extractLsb' 24 8]

/-- The word a host read returns (R31-R44, R84, R88). While BUSY the data windows read 0 (R49); CTRL reads as when idle
(log entry 4). -/
def State.hostRead (s : State) (addr : HostAddr) : Word :=
  match addressMap addr with
  | .id => Config.idValue
  | .ctrl => s.ctrlWord
  | .status => s.statusWord
  | .cmd => 0
  | .errcode => s.errcode.code.setWidth 32
  | .errcmd => s.errcmd
  | .cmdcnt => s.cmdcnt
  | .irqen => s.irqenWord
  | .tag => if s.busy then 0 else s.tagWord
  | .freg i => if s.busy then 0 else (s.freg i).setWidth 32
  | .slotWord p j => if s.busy then 0 else (s.slotWord p j).setWidth 32
  | .buf a => if s.busy then 0 else s.bufWord a
  | .unmapped => 0

/-- A word the host may store in a register or slot: D[31:12] = 0 and D[11:0] < q (R41). -/
def canonicalWord (d : Word) : Bool := decide (d.toNat < q)

/-- A CMD write (R34): accepted when BUSY = 0 and ERR = 0, else only CMDREJ <- 1. -/
def State.writeCmd (s : State) (w : Word) : State :=
  if s.busy || s.err then { s with cmdrej := true } else s.accept w

/-- A write that BUSY = 1 drops (R49). -/
def State.dropWrite (s : State) : State := { s with busyacc := true }

/-- A non-canonical word reported (R41, R44). -/
def State.reportBadval (s : State) : State := { s with badval := true }

/-- The effect of a host write (R31-R49, R84). -/
def State.hostWrite (s : State) (addr : HostAddr) (d : Word) : State :=
  match addressMap addr with
  | .id | .errcode | .errcmd | .cmdcnt | .unmapped => s
  | .ctrl => if s.busy then s.dropWrite else s.writeCtrl d
  | .status => s.writeStatus d
  | .cmd => s.writeCmd d
  | .irqen => s.writeIrqen d
  | .tag => if s.busy then s.dropWrite else s.writeTag d
  | .freg i =>
    if s.busy then s.dropWrite
    else if canonicalWord d then s.setFreg i (d.setWidth 12) else s.reportBadval
  | .slotWord p j =>
    if s.busy then s.dropWrite
    else if canonicalWord d then s.setSlotWord p j (d.setWidth 12) else s.reportBadval
  | .buf a => if s.busy then s.dropWrite else s.writeBuf a (wordBytes d)

/-- The block's own address of a system address, if the access falls in the block's 64 KiB (R80, R99). -/
def blockAddr (addr : Nat) : Option HostAddr :=
  if Config.baseAddr ≤ addr ∧ addr < Config.baseAddr + 0x10000 then
    some (BitVec.ofNat 16 (addr - Config.baseAddr))
  else none

/-- A bus read (R81): the block answers a word; an access outside its 64 KiB does not reach it. -/
def State.busRead (s : State) (addr : Nat) : State :=
  match blockAddr addr with
  | some a => { s with rdata := s.hostRead a }
  | none => s

/-- A bus write (R81): always the whole word, whatever the byte enables (R83). -/
def State.busWrite (s : State) (addr : Nat) (_byteEnables : BitVec 4) (d : Word) : State :=
  match blockAddr addr with
  | some a => s.hostWrite a d
  | none => s

end Sys2Proof.Machine
end

