-- ==== Sys2Proof/Machine/Transform.lean ====
section
/-!
DEFINITION. Polynomials as 256 values, the NTT, its inverse and base multiplication (41_poly_ntt.md R203-R211). One layer
of the transform is written for all its butterflies at once: they touch disjoint pairs.
-/

namespace Sys2Proof.Machine

/-- The 256 values of a polynomial in either domain (R21). -/
abbrev Coeffs := Vector Nat 256

/-- The 256 members f(0), …, f(255). -/
def tabulate {α : Type} (f : Nat → α) : Vector α 256 := ⟨⟨(List.range 256).map f⟩, by simp⟩

/-- The values f(0), …, f(255). -/
def Coeffs.build (f : Nat → Nat) : Coeffs := tabulate f

/-- The j-th value; 0 past the end, which no rule reads. -/
def Coeffs.at (f : Coeffs) (j : Nat) : Nat := f.toList.getD j 0

/-- The zero polynomial. -/
def Coeffs.zero : Coeffs := Coeffs.build fun _ => 0

/-- Coefficient-wise sum (R21). -/
def Coeffs.add (f g : Coeffs) : Coeffs := Coeffs.build fun j => addMod (f.at j) (g.at j)

/-- Coefficient-wise difference (R21). -/
def Coeffs.sub (f g : Coeffs) : Coeffs := Coeffs.build fun j => subMod (f.at j) (g.at j)

/-- Every coefficient times a constant (R224). -/
def Coeffs.scale (c : Nat) (f : Coeffs) : Coeffs := Coeffs.build fun j => mulMod c (f.at j)

/-- A function applied to a polynomial applies to each coefficient (43_pke.md, preamble). -/
def Coeffs.mapEach (h : Nat → Nat) (f : Coeffs) : Coeffs := Coeffs.build fun j => h (f.at j)

/-- The values of the first 256 members of a list. -/
def Coeffs.ofList (l : List Nat) : Coeffs := Coeffs.build fun j => l.getD j 0

/-- The values a slot's raw words stand for (R18, R42). -/
def polyVals (p : Poly) (R : Radix := Config.radix) : Coeffs := Coeffs.build fun j => val (p.toList.getD j 0) R

/-- The raw words of a polynomial's values (R18, R200). -/
def polyMont (f : Coeffs) (R : Radix := Config.radix) : Poly := tabulate fun j => mont (f.at j) R

/-- BitRev7: the 7-bit binary form of i reversed (R20). -/
def bitRev7 (i : Nat) : Nat := bitSum 7 fun t => i.testBit (6 - t)

/-- ZETAS[i] = 17^BitRev7(i) mod q (R203, R206). -/
def zeta (i : Nat) : Nat := powMod 17 (bitRev7 i)

/-- GAMMAS[i] = 17^(2·BitRev7(i)+1) mod q (R211). -/
def gamma (i : Nat) : Nat := powMod 17 (2 * bitRev7 i + 1)

/-- One layer of R205: in the block b = j / 2len, z = ZETAS[128/len + b], the Cooley-Tukey butterfly on j and j + len. -/
def nttLayer (g : Coeffs) (len : Nat) : Coeffs :=
  Coeffs.build fun j =>
    let z := zeta (128 / len + j / (2 * len))
    if j % (2 * len) < len then addMod (g.at j) (mulMod z (g.at (j + len)))
    else subMod (g.at (j - len)) (mulMod z (g.at j))

/-- NTT (R205): 7 layers, len = 128 down to 2. -/
def ntt (f : Coeffs) : Coeffs := [128, 64, 32, 16, 8, 4, 2].foldl nttLayer f

/-- One layer of R207: in the block b = j / 2len, z = ZETAS[256/len - 1 - b], the Gentleman-Sande butterfly on j and
j + len. -/
def inttLayer (f : Coeffs) (len : Nat) : Coeffs :=
  Coeffs.build fun j =>
    let z := zeta (256 / len - 1 - j / (2 * len))
    if j % (2 * len) < len then addMod (f.at j) (f.at (j + len))
    else mulMod z (subMod (f.at j) (f.at (j - len)))

/-- NTT_inv (R207): 7 layers, len = 2 up to 128, then the scale by 128^(-1) = 3303 (R208). -/
def nttInv (g : Coeffs) : Coeffs := ([2, 4, 8, 16, 32, 64, 128].foldl inttLayer g).scale 3303

/-- BaseMul (R210): 128 products of degree-1 residues modulo X² − GAMMAS[i]. -/
def baseMul (a b : Coeffs) : Coeffs :=
  Coeffs.build fun j =>
    let e := 2 * (j / 2)
    if j % 2 = 0 then (a.at e * b.at e + a.at (e + 1) * b.at (e + 1) * gamma (j / 2)) % q
    else (a.at e * b.at (e + 1) + a.at (e + 1) * b.at e) % q

end Sys2Proof.Machine
end

