-- ==== Sys2Proof/Machine/Codec.lean ====
section
/-!
DEFINITION. Compression, decompression, byte packing and the two samplers, as functions of values, bytes and byte
streams (41_poly_ntt.md R220-R221, 42_sampling_encoding.md R250-R263).
-/

namespace Sys2Proof.Machine

/-- Compress_d (R220). -/
def compress (d x : Nat) : Nat := (2 ^ (d + 1) * x + q) / (2 * q) % 2 ^ d

/-- Decompress_d of an integer in [0, 2^d) (R221). -/
def decompress (d y : Nat) : Nat := (q * y + 2 ^ (d - 1)) / 2 ^ d

/-- Bit i of a byte string, least significant bit of the first byte first: BytesToBits (R260, R261). -/
def bytesToBits (bs : List Byte) (i : Nat) : Bool := (bs.getD (i / 8) 0).getLsbD (i % 8)

/-- The `len` bytes of a bit string: BitsToBytes (R260, R261). -/
def bitsToBytes (len : Nat) (b : Nat → Bool) : List Byte :=
  (List.range len).map fun m => Byte.ofNat (bitSum 8 fun t => b (8 * m + t))

/-- ByteEncode_d (R262): d bits of each value, its least significant bit first. -/
def byteEncode (d : Nat) (f : Coeffs) : List Byte :=
  bitsToBytes (32 * d) fun n => (f.at (n / d)).testBit (n % d)

/-- ByteDecode_d (R263); a 12-bit group is reduced mod q. -/
def byteDecode (d : Nat) (bs : List Byte) : Coeffs :=
  Coeffs.build fun i =>
    let v := bitSum d fun t => bytesToBits bs (i * d + t)
    if d = 12 then v % q else v

/-- The first candidate of a 3-byte group (R251). -/
def candidate1 (b0 b1 : Byte) : Nat := b0.toNat + 256 * (b1.toNat % 16)

/-- The second candidate of a 3-byte group (R251). -/
def candidate2 (b1 b2 : Byte) : Nat := b1.toNat / 16 + 16 * b2.toNat

/-- Keep a candidate that is below q while fewer than 256 are kept (R250). -/
def keepCandidate (a : List Nat) (c : Nat) : List Nat := if c < q ∧ a.length < 256 then a ++ [c] else a

/-- The loop of R250 from position p with the coefficients `a` already kept, for at most `n` 3-byte groups: `none` when
256 candidates have not been found by then. -/
def sampleLoop (stream : Nat → Byte) : Nat → Nat → List Nat → Option (List Nat)
  | 0, _, a => if 256 ≤ a.length then some a else none
  | n + 1, p, a =>
    if 256 ≤ a.length then some a
    else
      sampleLoop stream n (p + 3)
        (keepCandidate (keepCandidate a (candidate1 (stream p) (stream (p + 1))))
          (candidate2 (stream (p + 1)) (stream (p + 2))))

/-- SampleNTT on a byte stream (R250), as far as its first `n` groups go (R252). -/
def sampleNTT (stream : Nat → Byte) (n : Nat) : Option Coeffs :=
  (sampleLoop stream n 0 []).map Coeffs.ofList

/-- Σ_{t<n} b(lo + t): how many of n bits are 1. -/
def bitCount (b : Nat → Bool) (lo : Nat) : Nat → Nat
  | 0 => 0
  | n + 1 => bitCount b lo n + (b (lo + n)).toNat

/-- SamplePolyCBD_eta (R255): the first eta bits of each group minus the next eta bits. -/
def samplePolyCBD (eta : Nat) (bs : List Byte) : Coeffs :=
  Coeffs.build fun i =>
    subMod (bitCount (bytesToBits bs) (2 * i * eta) eta) (bitCount (bytesToBits bs) (2 * i * eta + eta) eta)

/-- PRF_eta(s, N) (R256): the first 64·eta bytes of XOF256(s, N). -/
def prf (c : Collab) (eta : Nat) (s : List Byte) (n : Byte) : List Byte :=
  (List.range (64 * eta)).map (c.xof256 s n)

/-- FRAND's loop (R164) from position p of the random stream, for at most `n` byte pairs: the value below q that it
accepts and the position after it. `none` when none is accepted by then or the source has stalled (R411). -/
def randLoop (rand : Nat → Option Byte) : Nat → Nat → Option (Nat × Nat)
  | 0, _ => none
  | n + 1, p =>
    match rand p, rand (p + 1) with
    | some b0, some b1 =>
      let c := (b0.toNat + 256 * b1.toNat) % 4096
      if c < q then some (c, p + 2) else randLoop rand n (p + 2)
    | _, _ => none

/-- The next `n` bytes of the random stream from position p (R329), or `none` if the source stalls among them. -/
def drawBytes (rand : Nat → Option Byte) : Nat → Nat → Option (List Byte)
  | 0, _ => some []
  | n + 1, p =>
    match rand p, drawBytes rand n (p + 1) with
    | some b, some bs => some (b :: bs)
    | _, _ => none

/-- Of `n` bytes wanted from position p on, how many the random source has supplied when it has stalled or the `n` are
there (R411). -/
def suppliedBytes (rand : Nat → Option Byte) : Nat → Nat → Nat
  | 0, _ => 0
  | n + 1, p => if (rand p).isSome then suppliedBytes rand n (p + 1) + 1 else 0

/-- FRAND's draws from position p on (R164), after at most `n` of them: pair by pair up to its first value below q, and
never past a stall (R411). -/
def frandDraws (rand : Nat → Option Byte) : Nat → Nat → Nat
  | 0, _ => 0
  | 1, p => suppliedBytes rand 1 p
  | n + 2, p =>
    match rand p, rand (p + 1) with
    | some b0, some b1 => if (b0.toNat + 256 * b1.toNat) % 4096 < q then 2 else frandDraws rand n (p + 2) + 2
    | _, _ => suppliedBytes rand 2 p

end Sys2Proof.Machine
end

