-- ==== Sys2Proof/Machine/Operands.lean ====
section
/-!
DEFINITION. The operand forms of the commands: registers and slots read and written as values (00_scope.md R18,
40_field.md R150, 41_poly_ntt.md R200), BUF blocks (20_memory.md R86), the legal sets of the fields (30_encoding.md R114),
the level table (00_scope.md R11) and the fixed BUF regions (10_state.md R47).
-/

namespace Sys2Proof.Machine

/-! ## Values of registers and slots: with the hardware's radix unless another is given (R13, R55) -/

/-- val(F[i]). -/
def State.fval (s : State) (i : FReg) (R : Radix := Config.radix) : Nat := val (s.freg i) R

/-- F[i] <- mont(a). -/
def State.setFval (s : State) (i : FReg) (a : Nat) (R : Radix := Config.radix) : State := s.setFreg i (mont a R)

/-- val(S[p]). -/
def State.slotVals (s : State) (p : Slot) (R : Radix := Config.radix) : Coeffs := polyVals (s.slot p) R

/-- S[p] <- mont(f); TAG[p] <- t. -/
def State.setSlotVals (s : State) (p : Slot) (f : Coeffs) (t : Tag) (R : Radix := Config.radix) : State :=
  s.setSlot p (polyMont f R) t

/-! ## BUF blocks -/

/-- The byte address of a block (R86). -/
def blkAddr (blk : Blk) : Nat := Config.blockBytes * blk.val

/-- The 32 bytes of a block. -/
def State.readBlock (s : State) (blk : Blk) : List Byte := s.readBuf (blkAddr blk) 32

/-! ## Legal field values (R114, R364, R366) -/

/-- d of FCOMP, FDECOMP, PCOMP, PDECOMP. -/
def quantLegal (d : Width) : Bool := decide (1 ≤ d.val ∧ d.val ≤ 11)

/-- d of PENC, PDEC. -/
def packLegal (d : Width) : Bool := decide (1 ≤ d.val ∧ d.val ≤ 12)

/-- 32·d bytes at the block end inside BUF (R87). -/
def packFits (d : Width) (blk : Blk) : Bool := decide (blk.val + d.val ≤ 256)

/-- eta of CBD. -/
def etaLegal (eta : Fin 4) : Bool := decide (eta.val = 2 ∨ eta.val = 3)

/-! ## Security levels (R11) -/

/-- One row of the parameter table. -/
structure LevelParams where
  k    : Nat
  eta1 : Nat
  eta2 : Nat
  du   : Nat
  dv   : Nat
deriving DecidableEq, Repr

/-- The row of a LEVEL; LEVEL = 3 has none (R32, R365). -/
def levelParams (l : BitVec 2) : Option LevelParams :=
  match l.toNat with
  | 0 => some { k := 2, eta1 := 3, eta2 := 2, du := 10, dv := 4 }
  | 1 => some { k := 3, eta1 := 2, eta2 := 2, du := 10, dv := 4 }
  | 2 => some { k := 4, eta1 := 2, eta2 := 2, du := 11, dv := 5 }
  | _ => none

/-- 384k + 32 (R11). -/
def LevelParams.pkBytes (lp : LevelParams) : Nat := 384 * lp.k + 32

/-- 384k (R11). -/
def LevelParams.skBytes (lp : LevelParams) : Nat := 384 * lp.k

/-- 32·(k·d_u + d_v) (R11). -/
def LevelParams.ctBytes (lp : LevelParams) : Nat := 32 * (lp.k * lp.du + lp.dv)

/-- 768k + 96 (R12). -/
def LevelParams.ccaSkBytes (lp : LevelParams) : Nat := 768 * lp.k + 96

/-! ## The fixed BUF regions (R47) -/

def skBase : Nat := 0x0000
def pkBase : Nat := 0x0C60
def ctBase : Nat := 0x1280
def msgBase : Nat := 0x18A0
def coinsBase : Nat := 0x18C0
def seedBase : Nat := 0x18E0
def zBase : Nat := 0x1900
def ssBase : Nat := 0x1920

end Sys2Proof.Machine
end

