-- ==== Sys2Proof/Machine/Control.lean ====
section
/-!
DEFINITION. The control commands (45_control.md R350-R352).
-/

namespace Sys2Proof.Machine

/-- NOP (R350): completes, and nothing else. -/
def execNop (s : State) : Host.Outcome State Fault Refusal := .next s.complete

/-- F, the slots, the tags, BUF, EQ and the private scratch at their reset values (R351, R54). -/
def State.zeroData (s : State) : State :=
  { s with
    fregs := State.reset.fregs
    slots := State.reset.slots
    tags := State.reset.tags
    buf := State.reset.buf
    eqFlag := false
    scratch := State.reset.scratch }

/-- ZEROIZE (R351). -/
def execZeroize (s : State) : Host.Outcome State Fault Refusal := .next s.zeroData.complete

end Sys2Proof.Machine
end

