-- ==== Sys2Proof/Machine/Field.lean ====
section
/-!
DEFINITION. The field unit's commands (40_field.md R150-R173), on the values of the field registers. Every command reads
all its operands before it writes (R150): the values come from the state it starts in. A command whose result depends on
the Montgomery radix is a function of it (`faddWith`, …), and its meaning is that function at the hardware's radix (R55).
-/

namespace Sys2Proof.Machine

/-- A field command that cannot fault: rd <- mont(a), and the command completes. -/
def fieldResult (rd : FReg) (a : Nat) (s : State) (R : Radix := Config.radix) : State := (s.setFval rd a R).complete

/-- FADD (R154) at a radix. -/
def faddWith (rd ra rb : FReg) (s : State) (R : Radix := Config.radix) : State :=
  fieldResult rd (addMod (s.fval ra R) (s.fval rb R)) s R

/-- FADD (R154). -/
def execFadd (rd ra rb : FReg) (s : State) : Host.Outcome State Fault Refusal := .next (faddWith rd ra rb s)

/-- FSUB (R155) at a radix. -/
def fsubWith (rd ra rb : FReg) (s : State) (R : Radix := Config.radix) : State :=
  fieldResult rd (subMod (s.fval ra R) (s.fval rb R)) s R

/-- FSUB (R155). -/
def execFsub (rd ra rb : FReg) (s : State) : Host.Outcome State Fault Refusal := .next (fsubWith rd ra rb s)

/-- FNEG (R156) at a radix. -/
def fnegWith (rd ra : FReg) (s : State) (R : Radix := Config.radix) : State :=
  fieldResult rd ((q - s.fval ra R) % q) s R

/-- FNEG (R156). -/
def execFneg (rd ra : FReg) (s : State) : Host.Outcome State Fault Refusal := .next (fnegWith rd ra s)

/-- FMUL (R151, R157) at a radix. -/
def fmulWith (rd ra rb : FReg) (s : State) (R : Radix := Config.radix) : State :=
  fieldResult rd (mulMod (s.fval ra R) (s.fval rb R)) s R

/-- FMUL (R151, R157). -/
def execFmul (rd ra rb : FReg) (s : State) : Host.Outcome State Fault Refusal := .next (fmulWith rd ra rb s)

/-- FINV (R158) at a radix. -/
def finvWith (rd ra : FReg) (s : State) (R : Radix := Config.radix) : State := fieldResult rd (invMod (s.fval ra R)) s R

/-- FINV (R158). -/
def execFinv (rd ra : FReg) (s : State) : Host.Outcome State Fault Refusal := .next (finvWith rd ra s)

/-- FDIV (R159) at a radix. -/
def fdivWith (rd ra rb : FReg) (s : State) (R : Radix := Config.radix) : State :=
  fieldResult rd (mulMod (s.fval ra R) (invMod (s.fval rb R))) s R

/-- FDIV (R159). -/
def execFdiv (rd ra rb : FReg) (s : State) : Host.Outcome State Fault Refusal := .next (fdivWith rd ra rb s)

/-- FPOW (R160) at a radix. -/
def fpowWith (rd ra : FReg) (e : Fin 4096) (s : State) (R : Radix := Config.radix) : State :=
  fieldResult rd (powMod (s.fval ra R) e.val) s R

/-- FPOW (R160). -/
def execFpow (rd ra : FReg) (e : Fin 4096) (s : State) : Host.Outcome State Fault Refusal := .next (fpowWith rd ra e s)

/-- FEQ (R161): on raw words, which is equality of values. -/
def execFeq (ra rb : FReg) (s : State) : Host.Outcome State Fault Refusal :=
  .next (s.setEq (s.freg ra == s.freg rb)).complete

/-- FLI (R162) at a radix. -/
def fliWith (rd : FReg) (v : Fin 4096) (s : State) (R : Radix := Config.radix) : State :=
  if q ≤ v.val then s.takeFault .badField else fieldResult rd v.val s R

/-- FLI (R162). -/
def execFli (rd : FReg) (v : Fin 4096) (s : State) : Host.Outcome State Fault Refusal := .next (fliWith rd v s)

/-- FMOV (R163): the raw word as it is. -/
def execFmov (rd ra : FReg) (s : State) : Host.Outcome State Fault Refusal :=
  .next (s.setFreg rd (s.freg ra)).complete

/-- FRAND (R164), with the random source as an argument; busy until a pair is accepted (R411, R415). -/
def frandFrom (rand : Nat → Option Byte) (rd : FReg) (s : State) (R : Radix := Config.radix) : State :=
  match randLoop rand s.budget s.randPos with
  | some (c, p) => ((s.setFval rd c R).setRandPos p).complete
  | none => s.keepBusy

/-- FRAND (R164). -/
def execFrand (rd : FReg) (s : State) : Host.Outcome State Fault Refusal := .next (frandFrom Config.randStream rd s)

/-- FTOM (R165) at a radix. -/
def ftomWith (rd ra : FReg) (s : State) (R : Radix := Config.radix) : State := fieldResult rd (s.freg ra).toNat s R

/-- FTOM (R165): the raw word taken as a plain integer, stored in Montgomery form. -/
def execFtom (rd ra : FReg) (s : State) : Host.Outcome State Fault Refusal := .next (ftomWith rd ra s)

/-- FFROMM (R166) at a radix. -/
def ffrommWith (rd ra : FReg) (s : State) (R : Radix := Config.radix) : State :=
  (s.setFreg rd (BitVec.ofNat 12 (s.fval ra R))).complete

/-- FFROMM (R166): the value, stored as a plain integer. -/
def execFfromm (rd ra : FReg) (s : State) : Host.Outcome State Fault Refusal := .next (ffrommWith rd ra s)

/-- FCOMP (R167) at a radix. -/
def fcompWith (rd ra : FReg) (d : Width) (s : State) (R : Radix := Config.radix) : State :=
  if quantLegal d then fieldResult rd (compress d.val (s.fval ra R)) s R else s.takeFault .badField

/-- FCOMP (R167). -/
def execFcomp (rd ra : FReg) (d : Width) (s : State) : Host.Outcome State Fault Refusal := .next (fcompWith rd ra d s)

/-- FDECOMP (R168) at a radix. -/
def fdecompWith (rd ra : FReg) (d : Width) (s : State) (R : Radix := Config.radix) : State :=
  if quantLegal d then fieldResult rd (decompress d.val (s.fval ra R % 2 ^ d.val)) s R else s.takeFault .badField

/-- FDECOMP (R168): the input is taken mod 2^d first. -/
def execFdecomp (rd ra : FReg) (d : Width) (s : State) : Host.Outcome State Fault Refusal :=
  .next (fdecompWith rd ra d s)

/-- A butterfly: BAD_FIELD when its two registers are one, else both are written with values of the old state. -/
def butterflyResult (ra rb : FReg) (a b : Nat) (s : State) (R : Radix := Config.radix) : State :=
  if ra = rb then s.takeFault .badField else ((s.setFval ra a R).setFval rb b R).complete

/-- FBCT (R169) at a radix. -/
def fbctWith (ra rb rz : FReg) (s : State) (R : Radix := Config.radix) : State :=
  let t := mulMod (s.fval rz R) (s.fval rb R)
  butterflyResult ra rb (addMod (s.fval ra R) t) (subMod (s.fval ra R) t) s R

/-- FBCT (R169): a' = a + z·b, b' = a - z·b. -/
def execFbct (ra rb rz : FReg) (s : State) : Host.Outcome State Fault Refusal := .next (fbctWith ra rb rz s)

/-- FBGS (R170) at a radix. -/
def fbgsWith (ra rb rz : FReg) (s : State) (R : Radix := Config.radix) : State :=
  butterflyResult ra rb (addMod (s.fval ra R) (s.fval rb R))
    (mulMod (s.fval rz R) (subMod (s.fval rb R) (s.fval ra R))) s R

/-- FBGS (R170): a' = a + b, b' = z·(b - a). -/
def execFbgs (ra rb rz : FReg) (s : State) : Host.Outcome State Fault Refusal := .next (fbgsWith ra rb rz s)

/-- FLD (R171). -/
def execFld (rd : FReg) (ps : Slot) (idx : Fin 256) (s : State) : Host.Outcome State Fault Refusal :=
  .next (s.setFreg rd (s.slotWord ps idx)).complete

/-- FST (R172). -/
def execFst (pd : Slot) (fa : FReg) (idx : Fin 256) (s : State) : Host.Outcome State Fault Refusal :=
  .next (s.setSlotWord pd idx (s.freg fa)).complete

end Sys2Proof.Machine
end

