-- ==== Sys2Proof/Machine/Pke.lean ====
section
/-!
DEFINITION. The CPA-PKE pipeline: the algorithms as functions on byte strings (43_pke.md R291-R294), the common rule of
the macro commands (R290), and PKE_KEYGEN, PKE_ENC and PKE_DEC (R295-R297).
-/

namespace Sys2Proof.Machine

/-! ## Vectors and the module matrix -/

/-- All the members, if every one is there. -/
def allSome {α : Type} : List (Option α) → Option (List α)
  | [] => some []
  | x :: xs =>
    match x, allSome xs with
    | some a, some as => some (a :: as)
    | _, _ => none

/-- The i-th polynomial of a vector. -/
def polyAt (v : List Coeffs) (i : Nat) : Coeffs := v.getD i Coeffs.zero

/-- The k polynomials f(0), …, f(k-1). -/
def polyVec (k : Nat) (f : Nat → Coeffs) : List Coeffs := (List.range k).map f

/-- The module matrix Â as its k rows: Â[i][j] = SampleNTT(ρ, j, i), the extra bytes j then i (R291). -/
def expandMatrix (c : Collab) (n : Nat) (k : Nat) (rho : List Byte) : Option (List (List Coeffs)) :=
  allSome ((List.range k).map fun i =>
    allSome ((List.range k).map fun j => sampleNTT (c.xof128 rho (Byte.ofNat j) (Byte.ofNat i)) n))

/-- Â[i][j]. -/
def matrixAt (m : List (List Coeffs)) (i j : Nat) : Coeffs := polyAt (m.getD i []) j

/-- Σ_{j<k} BaseMul(a(j), b(j)). -/
def innerProduct (a b : Nat → Coeffs) : Nat → Coeffs
  | 0 => Coeffs.zero
  | k + 1 => (innerProduct a b k).add (baseMul (a k) (b k))

/-- The noise polynomial SamplePolyCBD_eta(PRF_eta(s, N)). -/
def noisePoly (c : Collab) (eta : Nat) (s : List Byte) (n : Nat) : Coeffs :=
  samplePolyCBD eta (prf c eta s (Byte.ofNat n))

/-- Bytes `from` to `from + len - 1` of a byte string. -/
def slice (bs : List Byte) (start len : Nat) : List Byte := (bs.drop start).take len

/-- ByteEncode_12 of each polynomial, one after the other. -/
def encodeVec (v : List Coeffs) : List Byte := v.flatMap (byteEncode 12)

/-! ## The algorithms -/

/-- K-PKE.KeyGen(d) (R292): (pk, sk), or `none` while the matrix is not sampled within `n` groups a polynomial. -/
def pkeKeyGen (c : Collab) (n : Nat) (lp : LevelParams) (d : List Byte) : Option (List Byte × List Byte) :=
  let g := (c.h512 d).toList
  let rho := g.take 32
  let sigma := g.drop 32
  (expandMatrix c n lp.k rho).map fun m =>
    let sHat := polyVec lp.k fun i => ntt (noisePoly c lp.eta1 sigma i)
    let eHat := polyVec lp.k fun i => ntt (noisePoly c lp.eta1 sigma (lp.k + i))
    let tHat := polyVec lp.k fun i => (innerProduct (matrixAt m i) (polyAt sHat) lp.k).add (polyAt eHat i)
    (encodeVec tHat ++ rho, encodeVec sHat)

/-- K-PKE.Encrypt(pk, m, coins) (R293), or `none` while the matrix is not sampled. -/
def pkeEncrypt (c : Collab) (n : Nat) (lp : LevelParams) (pk m coins : List Byte) : Option (List Byte) :=
  let tHat := polyVec lp.k fun i => byteDecode 12 (slice pk (384 * i) 384)
  let rho := slice pk (384 * lp.k) 32
  (expandMatrix c n lp.k rho).map fun mat =>
    let rHat := polyVec lp.k fun i => ntt (noisePoly c lp.eta1 coins i)
    let e1 := polyVec lp.k fun i => noisePoly c lp.eta2 coins (lp.k + i)
    let e2 := noisePoly c lp.eta2 coins (2 * lp.k)
    let u := polyVec lp.k fun i =>
      (nttInv (innerProduct (fun j => matrixAt mat j i) (polyAt rHat) lp.k)).add (polyAt e1 i)
    let mu := (byteDecode 1 m).mapEach (decompress 1)
    let v := ((nttInv (innerProduct (polyAt tHat) (polyAt rHat) lp.k)).add e2).add mu
    (u.flatMap fun f => byteEncode lp.du (f.mapEach (compress lp.du))) ++ byteEncode lp.dv (v.mapEach (compress lp.dv))

/-- K-PKE.Decrypt(sk, c) (R294): always a message. -/
def pkeDecrypt (lp : LevelParams) (sk ct : List Byte) : List Byte :=
  let u := polyVec lp.k fun i =>
    (byteDecode lp.du (slice ct (32 * lp.du * i) (32 * lp.du))).mapEach (decompress lp.du)
  let v := (byteDecode lp.dv (slice ct (32 * lp.du * lp.k) (32 * lp.dv))).mapEach (decompress lp.dv)
  let sHat := polyVec lp.k fun i => byteDecode 12 (slice sk (384 * i) 384)
  let w := v.sub (nttInv (innerProduct (polyAt sHat) (fun i => ntt (polyAt u i)) lp.k))
  byteEncode 1 (w.mapEach (compress 1))

/-! ## The macro commands -/

/-- The common rule of the macro commands (R290): BAD_LEVEL at LEVEL = 3; else `body` computes the new state from the level
row, and then the private scratch is zeroed and the command completes. While `body` answers `none` the command is busy. -/
def runMacro (s : State) (body : LevelParams → Option State) : State :=
  match levelParams s.latchedLevel with
  | none => s.takeFault .badLevel
  | some lp =>
    match body lp with
    | none => s.keepBusy
    | some t => t.clearScratch.complete

/-- PKE_KEYGEN (R295) with the collaborator as an argument. -/
def pkeKeygenWith (c : Collab) (s : State) : State :=
  runMacro s fun lp =>
    (pkeKeyGen c s.budget lp (s.readBuf seedBase 32)).map fun (pk, sk) => (s.writeBuf pkBase pk).writeBuf skBase sk

/-- PKE_ENC (R296) with the collaborator as an argument. -/
def pkeEncWith (c : Collab) (s : State) : State :=
  runMacro s fun lp =>
    (pkeEncrypt c s.budget lp (s.readBuf pkBase lp.pkBytes) (s.readBuf msgBase 32) (s.readBuf coinsBase 32)).map
      fun ct => s.writeBuf ctBase ct

/-- PKE_KEYGEN (R295). -/
def execPkeKeygen (s : State) : Host.Outcome State Fault Refusal := .next (pkeKeygenWith Config.collab s)

/-- PKE_ENC (R296). -/
def execPkeEnc (s : State) : Host.Outcome State Fault Refusal := .next (pkeEncWith Config.collab s)

/-- PKE_DEC (R297): the one macro command that uses no collaborator. -/
def pkeDecState (s : State) : State :=
  runMacro s fun lp =>
    some (s.writeBuf msgBase (pkeDecrypt lp (s.readBuf skBase lp.skBytes) (s.readBuf ctBase lp.ctBytes)))

/-- PKE_DEC (R297). -/
def execPkeDec (s : State) : Host.Outcome State Fault Refusal := .next (pkeDecState s)

end Sys2Proof.Machine
end

