-- ==== Sys2Proof/Machine/Kem.lean ====
section
/-!
DEFINITION. The CCA-KEM controller: the algorithms as functions on byte strings (44_kem.md R320-R323) and KEM_KEYGEN,
KEM_ENCAPS and KEM_DECAPS (R324-R326, R329).
-/

namespace Sys2Proof.Machine

/-- KEM.KeyGen(d, z) (R320). -/
def kemKeyGen (c : Collab) (n : Nat) (lp : LevelParams) (d z : List Byte) : Option (List Byte × List Byte) :=
  (pkeKeyGen c n lp d).map fun (pk, sk) => (pk, sk ++ pk ++ (c.h256 pk).toList ++ z)

/-- KEM.Encaps(pk, m) (R321): (c, K). -/
def kemEncaps (c : Collab) (n : Nat) (lp : LevelParams) (pk m : List Byte) : Option (List Byte × List Byte) :=
  let g := (c.h512 ((c.h256 pk).toList ++ m)).toList
  let kBar := g.take 32
  let coins := g.drop 32
  (pkeEncrypt c n lp pk m coins).map fun ct => (ct, (c.kdf (kBar ++ (c.h256 ct).toList)).toList)

/-- CtEqual (R323): every byte pair is read, the differences are gathered, and only their OR is tested. -/
def ctEqual (a b : List Byte) : Bool := (List.zipWith (· ^^^ ·) a b).foldl (· ||| ·) 0 == 0

/-- CtSelect (R323): a byte-wise masked select. -/
def ctSelect (e : Bool) (x y : List Byte) : List Byte :=
  let mask : Byte := if e then 0xFF else 0x00
  List.zipWith (fun a b => (a &&& mask) ||| (b &&& ~~~mask)) x y

/-- KEM.Decaps(sk', c) (R322): both keys are computed before the select. -/
def kemDecaps (c : Collab) (n : Nat) (lp : LevelParams) (sk' ct : List Byte) : Option (List Byte) :=
  let sk := slice sk' 0 (384 * lp.k)
  let pk := slice sk' (384 * lp.k) (384 * lp.k + 32)
  let h := slice sk' (768 * lp.k + 32) 32
  let z := slice sk' (768 * lp.k + 64) 32
  let m' := pkeDecrypt lp sk ct
  let g := (c.h512 (h ++ m')).toList
  let kBar := g.take 32
  let coins := g.drop 32
  (pkeEncrypt c n lp pk m' coins).map fun ct' =>
    let kAccept := (c.kdf (kBar ++ (c.h256 ct).toList)).toList
    let kReject := (c.kdf (z ++ (c.h256 ct).toList)).toList
    ctSelect (ctEqual ct' ct) kAccept kReject

/-! ## The macro commands -/

/-- The bytes KEM_KEYGEN and KEM_ENCAPS start from (R324, R325, R329): with DETRNG = 0 the next `n` bytes of the random
source, with DETRNG = 1 the `n` bytes at `base` in BUF. -/
def State.kemInput (rand : Nat → Option Byte) (s : State) (base n : Nat) : Option (List Byte) :=
  if s.latchedDetrng then some (s.readBuf base n) else drawBytes rand n s.randPos

/-- With DETRNG = 0 the drawn bytes are written to their region and the source has moved on (R324, R325, R329). -/
def State.keepDraws (s : State) (base : Nat) (bs : List Byte) : State :=
  if s.latchedDetrng then s else (s.writeBuf base bs).setRandPos (s.randPos + bs.length)

/-- KEM_KEYGEN (R324) with the collaborator and the random source as arguments. D and Z are neighbours (R47), so the 64
bytes are d then z either way (R329). -/
def kemKeygenWith (c : Collab) (rand : Nat → Option Byte) (s : State) : State :=
  runMacro s fun lp =>
    match s.kemInput rand seedBase 64 with
    | none => none
    | some dz =>
      (kemKeyGen c s.budget lp (dz.take 32) (dz.drop 32)).map fun (pk, sk') =>
        ((s.keepDraws seedBase dz).writeBuf pkBase pk).writeBuf skBase sk'

/-- KEM_ENCAPS (R325) with the collaborator and the random source as arguments. -/
def kemEncapsWith (c : Collab) (rand : Nat → Option Byte) (s : State) : State :=
  runMacro s fun lp =>
    match s.kemInput rand msgBase 32 with
    | none => none
    | some m =>
      (kemEncaps c s.budget lp (s.readBuf pkBase lp.pkBytes) m).map fun (ct, ss) =>
        ((s.keepDraws msgBase m).writeBuf ctBase ct).writeBuf ssBase ss

/-- KEM_DECAPS (R326) with the collaborator as an argument. -/
def kemDecapsWith (c : Collab) (s : State) : State :=
  runMacro s fun lp =>
    (kemDecaps c s.budget lp (s.readBuf skBase lp.ccaSkBytes) (s.readBuf ctBase lp.ctBytes)).map fun ss =>
      s.writeBuf ssBase ss

/-- KEM_KEYGEN (R324). -/
def execKemKeygen (s : State) : Host.Outcome State Fault Refusal :=
  .next (kemKeygenWith Config.collab Config.randStream s)

/-- KEM_ENCAPS (R325). -/
def execKemEncaps (s : State) : Host.Outcome State Fault Refusal :=
  .next (kemEncapsWith Config.collab Config.randStream s)

/-- KEM_DECAPS (R326). -/
def execKemDecaps (s : State) : Host.Outcome State Fault Refusal := .next (kemDecapsWith Config.collab s)

end Sys2Proof.Machine
end

