-- ==== Sys2Proof/Machine/PolyUnit.lean ====
section
/-!
DEFINITION. The polynomial unit's commands (41_poly_ntt.md R200-R226), with the domain checks of R201. Every command
reads all its sources before it writes (R200). A command whose result depends on the Montgomery radix is a function of it
(`paddWith`, …), and its meaning is that function at the hardware's radix (R55).
-/

namespace Sys2Proof.Machine

/-- A slot command behind its domain requirement (R201): the result and its tag, or DOMAIN_MISMATCH. -/
def slotResult (ok : Bool) (pd : Slot) (f : Coeffs) (t : Tag) (s : State) (R : Radix := Config.radix) : State :=
  if ok then (s.setSlotVals pd f t R).complete else s.takeFault .domainMismatch

/-- PADD (R213) at a radix. -/
def paddWith (pd pa pb : Slot) (s : State) (R : Radix := Config.radix) : State :=
  slotResult (decide (s.tag pa = s.tag pb)) pd ((s.slotVals pa R).add (s.slotVals pb R)) (s.tag pa) s R

/-- PADD (R213). -/
def execPadd (pd pa pb : Slot) (s : State) : Host.Outcome State Fault Refusal := .next (paddWith pd pa pb s)

/-- PSUB (R214) at a radix. -/
def psubWith (pd pa pb : Slot) (s : State) (R : Radix := Config.radix) : State :=
  slotResult (decide (s.tag pa = s.tag pb)) pd ((s.slotVals pa R).sub (s.slotVals pb R)) (s.tag pa) s R

/-- PSUB (R214). -/
def execPsub (pd pa pb : Slot) (s : State) : Host.Outcome State Fault Refusal := .next (psubWith pd pa pb s)

/-- PNTT (R215) at a radix. -/
def pnttWith (pd pa : Slot) (s : State) (R : Radix := Config.radix) : State :=
  slotResult (decide (s.tag pa = .normal)) pd (ntt (s.slotVals pa R)) .ntt s R

/-- PNTT (R215). -/
def execPntt (pd pa : Slot) (s : State) : Host.Outcome State Fault Refusal := .next (pnttWith pd pa s)

/-- PINTT (R216) at a radix. -/
def pinttWith (pd pa : Slot) (s : State) (R : Radix := Config.radix) : State :=
  slotResult (decide (s.tag pa = .ntt)) pd (nttInv (s.slotVals pa R)) .normal s R

/-- PINTT (R216). -/
def execPintt (pd pa : Slot) (s : State) : Host.Outcome State Fault Refusal := .next (pinttWith pd pa s)

/-- PBMUL (R217) at a radix. -/
def pbmulWith (pd pa pb : Slot) (s : State) (R : Radix := Config.radix) : State :=
  slotResult (decide (s.tag pa = .ntt ∧ s.tag pb = .ntt)) pd (baseMul (s.slotVals pa R) (s.slotVals pb R)) .ntt s R

/-- PBMUL (R217). -/
def execPbmul (pd pa pb : Slot) (s : State) : Host.Outcome State Fault Refusal := .next (pbmulWith pd pa pb s)

/-- PBMAC (R218) at a radix. -/
def pbmacWith (pd pa pb : Slot) (s : State) (R : Radix := Config.radix) : State :=
  slotResult (decide (s.tag pd = .ntt ∧ s.tag pa = .ntt ∧ s.tag pb = .ntt)) pd
    ((s.slotVals pd R).add (baseMul (s.slotVals pa R) (s.slotVals pb R))) .ntt s R

/-- PBMAC (R218). -/
def execPbmac (pd pa pb : Slot) (s : State) : Host.Outcome State Fault Refusal := .next (pbmacWith pd pa pb s)

/-- PCOPY (R219): the raw words and the tag as they are. -/
def execPcopy (pd pa : Slot) (s : State) : Host.Outcome State Fault Refusal :=
  .next (s.setSlot pd (s.slot pa) (s.tag pa)).complete

/-- PZERO (R223): the raw word 0 is the value 0 for every radix. -/
def execPzero (pd : Slot) (t : Tag) (s : State) : Host.Outcome State Fault Refusal :=
  .next (s.setSlot pd (Vector.replicate 256 0) t).complete

/-- PSCALE (R224) at a radix. -/
def pscaleWith (pd pa : Slot) (fb : FReg) (s : State) (R : Radix := Config.radix) : State :=
  (s.setSlotVals pd ((s.slotVals pa R).scale (s.fval fb R)) (s.tag pa) R).complete

/-- PSCALE (R224). -/
def execPscale (pd pa : Slot) (fb : FReg) (s : State) : Host.Outcome State Fault Refusal := .next (pscaleWith pd pa fb s)

/-- PCOMP (R225) at a radix. -/
def pcompWith (pd pa : Slot) (d : Width) (s : State) (R : Radix := Config.radix) : State :=
  if quantLegal d then
    slotResult (decide (s.tag pa = .normal)) pd ((s.slotVals pa R).mapEach (compress d.val)) .normal s R
  else s.takeFault .badField

/-- PCOMP (R225): BAD_FIELD before DOMAIN_MISMATCH (R369). -/
def execPcomp (pd pa : Slot) (d : Width) (s : State) : Host.Outcome State Fault Refusal := .next (pcompWith pd pa d s)

/-- PDECOMP (R226) at a radix. -/
def pdecompWith (pd pa : Slot) (d : Width) (s : State) (R : Radix := Config.radix) : State :=
  if quantLegal d then
    slotResult (decide (s.tag pa = .normal)) pd
      ((s.slotVals pa R).mapEach fun x => decompress d.val (x % 2 ^ d.val)) .normal s R
  else s.takeFault .badField

/-- PDECOMP (R226): each coefficient is taken mod 2^d first. -/
def execPdecomp (pd pa : Slot) (d : Width) (s : State) : Host.Outcome State Fault Refusal := .next (pdecompWith pd pa d s)

end Sys2Proof.Machine
end

