-- ==== Sys2Proof/Machine/Sampling.lean ====
section
/-!
DEFINITION. The sampler and byte-packer commands (42_sampling_encoding.md R253, R257, R264, R265), as functions of the
collaborator and of the Montgomery radix where they use them (R55), and each meaning as that function at the machine's own.
-/

namespace Sys2Proof.Machine

/-- PARSE (R253) with the collaborator as an argument; busy until 256 candidates are found (R252). -/
def parseWith (c : Collab) (pd : Slot) (x y : Fin 4) (blk : Blk) (s : State) (R : Radix := Config.radix) : State :=
  match sampleNTT (c.xof128 (s.readBlock blk) (Byte.ofNat x.val) (Byte.ofNat y.val)) s.budget with
  | some f => (s.setSlotVals pd f .ntt R).complete
  | none => s.keepBusy

/-- PARSE (R253). -/
def execParse (pd : Slot) (x y : Fin 4) (blk : Blk) (s : State) : Host.Outcome State Fault Refusal :=
  .next (parseWith Config.collab pd x y blk s)

/-- CBD (R257) with the collaborator as an argument. -/
def cbdWith (c : Collab) (pd : Slot) (eta : Fin 4) (n : Fin 256) (blk : Blk) (s : State)
    (R : Radix := Config.radix) : State :=
  if etaLegal eta then
    (s.setSlotVals pd (samplePolyCBD eta.val (prf c eta.val (s.readBlock blk) (Byte.ofNat n.val))) .normal R).complete
  else s.takeFault .badField

/-- CBD (R257). -/
def execCbd (pd : Slot) (eta : Fin 4) (n : Fin 256) (blk : Blk) (s : State) : Host.Outcome State Fault Refusal :=
  .next (cbdWith Config.collab pd eta n blk s)

/-- A byte-packer command behind its checks, BAD_FIELD before BUF_RANGE (R369). -/
def packResult (d : Width) (blk : Blk) (s t : State) : State :=
  if packLegal d then if packFits d blk then t.complete else s.takeFault .bufRange else s.takeFault .badField

/-- PENC (R264) at a radix. -/
def pencWith (pa : Slot) (d : Width) (blk : Blk) (s : State) (R : Radix := Config.radix) : State :=
  packResult d blk s (s.writeBuf (blkAddr blk) (byteEncode d.val
    ((s.slotVals pa R).mapEach fun v => if d.val = 12 then v else v % 2 ^ d.val)))

/-- PENC (R264): for d < 12 the low d bits of each value. -/
def execPenc (pa : Slot) (d : Width) (blk : Blk) (s : State) : Host.Outcome State Fault Refusal :=
  .next (pencWith pa d blk s)

/-- PDEC (R265) at a radix. -/
def pdecWith (pd : Slot) (d : Width) (blk : Blk) (t : Tag) (s : State) (R : Radix := Config.radix) : State :=
  packResult d blk s (s.setSlotVals pd (byteDecode d.val (s.readBuf (blkAddr blk) (32 * d.val))) t R)

/-- PDEC (R265). -/
def execPdec (pd : Slot) (d : Width) (blk : Blk) (t : Tag) (s : State) : Host.Outcome State Fault Refusal :=
  .next (pdecWith pd d blk t s)

end Sys2Proof.Machine
end

