-- ==== Sys2Proof/Machine/Dispatch.lean ====
section
/-! DEFINITION. One arm per command: the completion step of the command in the state that runs it. -/

namespace Sys2Proof.Machine

def exec (i : Instr) (s : State) : Host.Outcome State Fault Refusal :=
  match i with
  -- control (45_control.md)
  | .nop => Sys2Proof.Machine.execNop s
  | .zeroize => Sys2Proof.Machine.execZeroize s
  -- field unit (40_field.md)
  | .fadd rd ra rb => Sys2Proof.Machine.execFadd rd ra rb s
  | .fsub rd ra rb => Sys2Proof.Machine.execFsub rd ra rb s
  | .fneg rd ra => Sys2Proof.Machine.execFneg rd ra s
  | .fmul rd ra rb => Sys2Proof.Machine.execFmul rd ra rb s
  | .finv rd ra => Sys2Proof.Machine.execFinv rd ra s
  | .fdiv rd ra rb => Sys2Proof.Machine.execFdiv rd ra rb s
  | .fpow rd ra e => Sys2Proof.Machine.execFpow rd ra e s
  | .feq ra rb => Sys2Proof.Machine.execFeq ra rb s
  | .fli rd v => Sys2Proof.Machine.execFli rd v s
  | .fmov rd ra => Sys2Proof.Machine.execFmov rd ra s
  | .frand rd => Sys2Proof.Machine.execFrand rd s
  | .ftom rd ra => Sys2Proof.Machine.execFtom rd ra s
  | .ffromm rd ra => Sys2Proof.Machine.execFfromm rd ra s
  | .fcomp rd ra d => Sys2Proof.Machine.execFcomp rd ra d s
  | .fdecomp rd ra d => Sys2Proof.Machine.execFdecomp rd ra d s
  | .fbct ra rb rz => Sys2Proof.Machine.execFbct ra rb rz s
  | .fbgs ra rb rz => Sys2Proof.Machine.execFbgs ra rb rz s
  | .fld rd ps idx => Sys2Proof.Machine.execFld rd ps idx s
  | .fst pd fa idx => Sys2Proof.Machine.execFst pd fa idx s
  -- polynomial unit (41_poly_ntt.md)
  | .padd pd pa pb => Sys2Proof.Machine.execPadd pd pa pb s
  | .psub pd pa pb => Sys2Proof.Machine.execPsub pd pa pb s
  | .pntt pd pa => Sys2Proof.Machine.execPntt pd pa s
  | .pintt pd pa => Sys2Proof.Machine.execPintt pd pa s
  | .pbmul pd pa pb => Sys2Proof.Machine.execPbmul pd pa pb s
  | .pbmac pd pa pb => Sys2Proof.Machine.execPbmac pd pa pb s
  | .pcopy pd pa => Sys2Proof.Machine.execPcopy pd pa s
  | .pzero pd t => Sys2Proof.Machine.execPzero pd t s
  | .pscale pd pa fb => Sys2Proof.Machine.execPscale pd pa fb s
  | .pcomp pd pa d => Sys2Proof.Machine.execPcomp pd pa d s
  | .pdecomp pd pa d => Sys2Proof.Machine.execPdecomp pd pa d s
  -- samplers and byte packers (42_sampling_encoding.md)
  | .parse pd x y blk => Sys2Proof.Machine.execParse pd x y blk s
  | .cbd pd eta n blk => Sys2Proof.Machine.execCbd pd eta n blk s
  | .penc pa d blk => Sys2Proof.Machine.execPenc pa d blk s
  | .pdec pd d blk t => Sys2Proof.Machine.execPdec pd d blk t s
  -- CPA-PKE pipeline (43_pke.md)
  | .pkeKeygen => Sys2Proof.Machine.execPkeKeygen s
  | .pkeEnc => Sys2Proof.Machine.execPkeEnc s
  | .pkeDec => Sys2Proof.Machine.execPkeDec s
  -- CCA-KEM controller (44_kem.md)
  | .kemKeygen => Sys2Proof.Machine.execKemKeygen s
  | .kemEncaps => Sys2Proof.Machine.execKemEncaps s
  | .kemDecaps => Sys2Proof.Machine.execKemDecaps s

end Sys2Proof.Machine
end

