-- ==== Sys2Proof/Machine/Unit.lean ====
section
/-!
DEFINITION. The unit's own step: the end of reset initialisation, or a step of the command it runs (20_memory.md R93,
70_reset_and_hazards.md R401, R416); and the reset input (R400-R402). There is no fetch: the command is the word latched by
its CMD write (10_state.md R36).
-/

namespace Sys2Proof.Machine

/-- The fault a word takes that is no command (R362, R363). -/
def decodeFault : DecodeError → FaultCode
  | .illegalOpcode => .illegalOpcode
  | .reservedBits => .reservedBits

/-- A step of the unit on a command word. -/
def runWord (w : Word) (s : State) : Host.Outcome State Fault Refusal :=
  match decode w with
  | .command i => exec i s
  | .rejected e => .next (s.takeFault (decodeFault e))

/-- The unit's step: when it is idle it does nothing (R385). -/
def unitStep (s : State) : Host.Outcome State Fault Refusal :=
  match s.phase with
  | .idle => .next s
  | .initialising => .next s.endInit
  | .running p => runWord p.cmd s

/-! ## Reset -/

/-- A KEM command's draws, if it draws: with DETRNG = 0, and after its fault checks have passed (R329). -/
def State.kemDraws (s : State) (n : Nat) : Option Nat :=
  if s.latchedDetrng || (levelParams s.latchedLevel).isNone then none else some n

/-- The bytes a command can take from the random source, after at most `n` of its draws, in the state that runs it: FRAND
its pairs (R164), KEM_KEYGEN 64 bytes and KEM_ENCAPS 32, with DETRNG = 0 and a LEVEL with a row; no other command draws
(R53, R329). -/
def State.drawsOf (rand : Nat → Option Byte) (n : Nat) (s : State) (i : Instr) : Option Nat :=
  match i with
  | .frand _ => some (frandDraws rand n s.randPos)
  | .kemKeygen => s.kemDraws (suppliedBytes rand (min n 64) s.randPos)
  | .kemEncaps => s.kemDraws (suppliedBytes rand (min n 32) s.randPos)
  | .nop | .zeroize | .fadd _ _ _ | .fsub _ _ _ | .fneg _ _ | .fmul _ _ _ | .finv _ _ | .fdiv _ _ _ | .fpow _ _ _
  | .feq _ _ | .fli _ _ | .fmov _ _ | .ftom _ _ | .ffromm _ _ | .fcomp _ _ _ | .fdecomp _ _ _ | .fbct _ _ _
  | .fbgs _ _ _ | .fld _ _ _ | .fst _ _ _ => none
  | .padd _ _ _ | .psub _ _ _ | .pntt _ _ | .pintt _ _ | .pbmul _ _ _ | .pbmac _ _ _ | .pcopy _ _ | .pzero _ _
  | .pscale _ _ _ | .pcomp _ _ _ | .pdecomp _ _ _ => none
  | .parse _ _ _ _ | .cbd _ _ _ _ | .penc _ _ _ | .pdec _ _ _ _ => none
  | .pkeKeygen | .pkeEnc | .pkeDec | .kemDecaps => none

/-- The draws of the command a reset finds running (R400); `none` where it finds none that draws. -/
def State.abandonedDraws (rand : Nat → Option Byte) (n : Nat) (s : State) : Option Nat :=
  match s.phase with
  | .idle | .initialising => none
  | .running p =>
    match decode p.cmd with
    | .command i => s.drawsOf rand n i
    | .rejected _ => none

/-- The random source's position after a reset, moved on by what the command it abandons had drawn, and the count of free
values used: how many of the command's draws had happened is a free value (log entry 9). -/
def State.abandonDraws (s : State) (rand : Nat → Option Byte) : Nat × Nat :=
  match s.abandonedDraws rand (Config.drawsAbandoned s.freeDraws) with
  | none => (s.randPos, s.freeDraws)
  | some n => (s.randPos + n, s.freeDraws + 1)

/-- The reset input (R400-R402): every piece of the block's state takes its reset value. What is outside the block stays:
the host's moves and the word it last read, and the random source. -/
def State.resetBlock (s : State) (rand : Nat → Option Byte := Config.randStream) : State :=
  { State.reset with
    script    := s.script
    rdata     := s.rdata
    randPos   := (s.abandonDraws rand).1
    freeDraws := (s.abandonDraws rand).2 }

/-- A move of an outside agent, or, where none moves, the unit's step (R92, R400). -/
def moveOf (e : HostEvent) (s : State) : Host.Outcome State Fault Refusal :=
  match e with
  | .read addr => .next (s.busRead addr)
  | .write addr be d => .next (s.busWrite addr be d)
  | .reset => .next s.resetBlock
  | .wait => unitStep s

/-- The state that runs `w` next, as if the host's CMD write of it had just been accepted (R34): the fault state left, the
accept step taken, and no outside move before the unit's step. -/
def State.loadCommand (s : State) (w : Word) : State := { s.leaveFault.accept w with script := [] }

end Sys2Proof.Machine
end

