-- ==== Sys2Proof/Machine/Step.lean ====
section
/-!
DEFINITION. One step of the machine: the next move of the script, or the unit's step when no outside move is left. All
moves are totally ordered (20_memory.md R92).
-/

namespace Sys2Proof.Machine

/-- One step. -/
def step (s : State) : Host.Outcome State Fault Refusal :=
  match s.script with
  | [] => unitStep s
  | e :: rest => moveOf e { s with script := rest }

/-- `s` with the instruction whose `nbits` bits have the value `w` as the command the very next step runs. -/
def State.withFetchWord (s : State) (nbits w : Nat) : State := s.loadCommand (BitVec.ofNat 32 (w % 2 ^ nbits))

end Sys2Proof.Machine
end

