-- ==== Sys2Proof/Machine/Parameters.lean ====
section
/-!
DEFINITION. The machine as a function of the configuration it takes as arguments (10_state.md R55, 00_scope.md R13, D3):
MONT_R, the collaborator and the random-source draws. `exec`, `step` and `core` are these at `Config.params`
(Laws/Parameters.lean), whose radix is the default 2^16.
-/

namespace Sys2Proof.Machine

/-- The completion step of a command under a configuration. -/
def execWith (e : Params) (i : Instr) (s : State) : State :=
  match i with
  | .nop => s.complete
  | .zeroize => s.zeroData.complete
  | .fadd rd ra rb => faddWith rd ra rb s e.radix
  | .fsub rd ra rb => fsubWith rd ra rb s e.radix
  | .fneg rd ra => fnegWith rd ra s e.radix
  | .fmul rd ra rb => fmulWith rd ra rb s e.radix
  | .finv rd ra => finvWith rd ra s e.radix
  | .fdiv rd ra rb => fdivWith rd ra rb s e.radix
  | .fpow rd ra n => fpowWith rd ra n s e.radix
  | .feq ra rb => (s.setEq (s.freg ra == s.freg rb)).complete
  | .fli rd v => fliWith rd v s e.radix
  | .fmov rd ra => (s.setFreg rd (s.freg ra)).complete
  | .frand rd => frandFrom e.rand rd s e.radix
  | .ftom rd ra => ftomWith rd ra s e.radix
  | .ffromm rd ra => ffrommWith rd ra s e.radix
  | .fcomp rd ra d => fcompWith rd ra d s e.radix
  | .fdecomp rd ra d => fdecompWith rd ra d s e.radix
  | .fbct ra rb rz => fbctWith ra rb rz s e.radix
  | .fbgs ra rb rz => fbgsWith ra rb rz s e.radix
  | .fld rd ps idx => (s.setFreg rd (s.slotWord ps idx)).complete
  | .fst pd fa idx => (s.setSlotWord pd idx (s.freg fa)).complete
  | .padd pd pa pb => paddWith pd pa pb s e.radix
  | .psub pd pa pb => psubWith pd pa pb s e.radix
  | .pntt pd pa => pnttWith pd pa s e.radix
  | .pintt pd pa => pinttWith pd pa s e.radix
  | .pbmul pd pa pb => pbmulWith pd pa pb s e.radix
  | .pbmac pd pa pb => pbmacWith pd pa pb s e.radix
  | .pcopy pd pa => (s.setSlot pd (s.slot pa) (s.tag pa)).complete
  | .pzero pd t => (s.setSlot pd (Vector.replicate 256 0) t).complete
  | .pscale pd pa fb => pscaleWith pd pa fb s e.radix
  | .pcomp pd pa d => pcompWith pd pa d s e.radix
  | .pdecomp pd pa d => pdecompWith pd pa d s e.radix
  | .parse pd x y blk => parseWith e.collab pd x y blk s e.radix
  | .cbd pd eta n blk => cbdWith e.collab pd eta n blk s e.radix
  | .penc pa d blk => pencWith pa d blk s e.radix
  | .pdec pd d blk t => pdecWith pd d blk t s e.radix
  | .pkeKeygen => pkeKeygenWith e.collab s
  | .pkeEnc => pkeEncWith e.collab s
  | .pkeDec => pkeDecState s
  | .kemKeygen => kemKeygenWith e.collab e.rand s
  | .kemEncaps => kemEncapsWith e.collab e.rand s
  | .kemDecaps => kemDecapsWith e.collab s

/-- `runWord` under a configuration. -/
def runWordWith (e : Params) (w : Word) (s : State) : State :=
  match decode w with
  | .command i => execWith e i s
  | .rejected x => s.takeFault (decodeFault x)

/-- `unitStep` under a configuration. -/
def unitStepWith (e : Params) (s : State) : State :=
  match s.phase with
  | .idle => s
  | .initialising => s.endInit
  | .running p => runWordWith e p.cmd s

/-- `step` under a configuration. -/
def stepWith (e : Params) (s : State) : State :=
  match s.script with
  | [] => unitStepWith e s
  | .read addr :: rest => State.busRead { s with script := rest } addr
  | .write addr be d :: rest => State.busWrite { s with script := rest } addr be d
  | .reset :: rest => State.resetBlock { s with script := rest } e.rand
  | .wait :: rest => unitStepWith e { s with script := rest }

/-- The machine under a configuration, behind the host's interface. -/
def coreWith (e : Params) : Host.Core where
  State   := State
  Fault   := Fault
  Refusal := Refusal
  step    := fun s => .next (stepWith e s)
  reset   := State.reset

/-- The state in which every word of F and of the slots stands under the radix `R'` for the value it stands for under `R`
in `s`; everything else is that of `s`. -/
def State.rebase (R R' : Radix) (s : State) : State :=
  { s with
    fregs := s.fregs.map fun w => mont (val w R) R'
    slots := s.slots.map fun p => p.map fun w => mont (val w R) R' }

end Sys2Proof.Machine
end

