-- ==== Sys2Proof/Safety.lean ====
section
/-!
DEFINITION. The terms the claims about the machine use: the invariant every step keeps, the frame of a completed command,
the fault conditions of 60_exceptions.md and 41_poly_ntt.md R201, and the reference forms of the transforms and samplers.
-/

namespace Sys2Proof.Machine

/-! ## The invariant -/

/-- What holds of every state the machine reaches. -/
structure State.Inv (s : State) : Prop where
  /-- field registers hold words below q (R39, R40) -/
  fregsCanonical : ∀ i, (s.freg i).toNat < q
  /-- slots hold words below q (R42) -/
  slotsCanonical : ∀ p j, (s.slotWord p j).toNat < q
  /-- BUF is in canonical form, inside its 8192 bytes (R46) -/
  bufCanonical : s.buf.wf = true
  /-- the private scratch is zero between commands (R50, R368) -/
  scratchZero : s.scratch = []
  /-- a busy unit has neither DONE nor ERR set (R33, R34) -/
  busyClean : s.busy = true → s.done = false ∧ s.err = false
  /-- the latched values always equal CTRL (R51) -/
  latchIsCtrl : ∀ p, s.phase = .running p → p.level = s.level ∧ p.detrng = s.detrng
  /-- ERR comes with a cause (R361: code 0 is never reported by a fault) -/
  errHasCause : s.err = true → s.errcode ≠ .noFault

/-! ## Frames -/

/-- No byte. -/
def noBytes : Nat → Prop := fun _ => False

/-- The bytes from `a` to `a + n - 1`. -/
def span (a n : Nat) : Nat → Prop := fun b => a ≤ b ∧ b < a + n

/-- `t` is `s` after a command completed without fault (R33, R37) that writes no field register but those of `regs`, no
slot or tag but those of `slots`, and no byte of BUF but those in `bytes`. -/
structure Frame (regs : List FReg) (slots : List Slot) (bytes : Nat → Prop) (s t : State) : Prop where
  phase   : t.phase = .idle
  done    : t.done = true
  cmdcnt  : t.cmdcnt = s.cmdcnt + 1
  err     : t.err = s.err
  errcode : t.errcode = s.errcode
  errcmd  : t.errcmd = s.errcmd
  level   : t.level = s.level
  detrng  : t.detrng = s.detrng
  cmdrej  : t.cmdrej = s.cmdrej
  busyacc : t.busyacc = s.busyacc
  badval  : t.badval = s.badval
  doneIE  : t.doneIE = s.doneIE
  errIE   : t.errIE = s.errIE
  script  : t.script = s.script
  rdata   : t.rdata = s.rdata
  freeDraws : t.freeDraws = s.freeDraws
  fregs   : ∀ i, i ∉ regs → t.freg i = s.freg i
  slots   : ∀ p, p ∉ slots → t.slot p = s.slot p ∧ t.tag p = s.tag p
  buf     : ∀ a, ¬bytes a → t.buf.read a = s.buf.read a

/-- The flag EQ, the random source and the private scratch are as before. -/
structure Quiet (s t : State) : Prop where
  eqFlag  : t.eqFlag = s.eqFlag
  randPos : t.randPos = s.randPos
  scratch : t.scratch = s.scratch

/-- The word `w` is the command `i`, and `i` in `s` answers a next state with `P`. -/
def Runs (w : Word) (i : Instr) (s : State) (P : State → Prop) : Prop :=
  decode w = .command i ∧ ∃ t, exec i s = .next t ∧ P t

/-- Every word of this opcode with a 1 among the `len` bits from `lo` up takes RESERVED_BITS (R115, R363). -/
def ReservedBitsFault (op lo len : Nat) : Prop :=
  ∀ (w : Word) (s : State), opField w = op → field w lo len ≠ 0 → runWord w s = .next (s.takeFault .reservedBits)

/-- A completed command that writes the field register `rd`, with `P` of its new word, and nothing else. -/
def WritesFreg (rd : FReg) (s : State) (P : Raw → Prop) (t : State) : Prop :=
  Frame [rd] [] noBytes s t ∧ Quiet s t ∧ P (t.freg rd)

/-- A completed command that writes the slot `pd`: its tag, and words below q whose values satisfy `P`; nothing else. -/
def WritesSlot (pd : Slot) (tag : Tag) (s : State) (P : Fin 256 → Nat → Prop) (t : State) : Prop :=
  Frame [] [pd] noBytes s t ∧ Quiet s t ∧ t.tag pd = tag ∧
    ∀ j, (t.slotWord pd j).toNat < q ∧ P j (val (t.slotWord pd j))

/-- A word below q (R39). -/
def Canonical (w : Raw) : Prop := w.toNat < q

/-- 256 values below q (R21). -/
def Coeffs.Canonical (f : Coeffs) : Prop := ∀ j, f.at j < q

/-! ## Encoding -/

/-- The match and mask columns of opcode_table.json, row by row (R116). -/
def opcodeTable : List (Word × Word) :=
  [(0x00000000, 0xFFFFFFFF), (0x04000000, 0xFFFFFFFF), (0x20000000, 0xFC003FFF), (0x24000000, 0xFC003FFF),
   (0x28000000, 0xFC03FFFF), (0x2C000000, 0xFC003FFF), (0x30000000, 0xFC03FFFF), (0x34000000, 0xFC003FFF),
   (0x38000000, 0xFC03F000), (0x3C000000, 0xFFC03FFF), (0x40000000, 0xFC3FF000), (0x44000000, 0xFC03FFFF),
   (0x48000000, 0xFC3FFFFF), (0x4C000000, 0xFC03FFFF), (0x50000000, 0xFC03FFFF), (0x54000000, 0xFC003FFF),
   (0x58000000, 0xFC003FFF), (0x5C000000, 0xFC003FFF), (0x60000000, 0xFC003FFF), (0x64000000, 0xFC03FF00),
   (0x68000000, 0xFC03FF00), (0x80000000, 0xFC003FFF), (0x84000000, 0xFC003FFF), (0x88000000, 0xFC03FFFF),
   (0x8C000000, 0xFC03FFFF), (0x90000000, 0xFC003FFF), (0x94000000, 0xFC003FFF), (0x98000000, 0xFC03FFFF),
   (0x9C000000, 0xFC3FDFFF), (0xA0000000, 0xFC003FFF), (0xA4000000, 0xFC003FFF), (0xA8000000, 0xFC003FFF),
   (0xC0000000, 0xFC03FF00), (0xC4000000, 0xFC000F00), (0xC8000000, 0xFC03FF00), (0xCC000000, 0xFC03DF00),
   (0xE0000000, 0xFFFFFFFF), (0xE4000000, 0xFFFFFFFF), (0xE8000000, 0xFFFFFFFF), (0xEC000000, 0xFFFFFFFF),
   (0xF0000000, 0xFFFFFFFF), (0xF4000000, 0xFFFFFFFF)]

/-- The reserved opcodes (R117). -/
def reservedOpcodes : List Nat :=
  [0x02, 0x03, 0x04, 0x05, 0x06, 0x07, 0x1B, 0x1C, 0x1D, 0x1E, 0x1F, 0x2B, 0x2C, 0x2D, 0x2E, 0x2F, 0x34, 0x35, 0x36, 0x37,
   0x3E, 0x3F]

/-! ## Fault conditions -/

/-- A field value outside its legal set (R364). -/
def badFieldOf : Instr → Prop
  | .fli _ v => 3329 ≤ v.val
  | .fcomp _ _ d | .fdecomp _ _ d | .pcomp _ _ d | .pdecomp _ _ d => d.val = 0 ∨ 12 ≤ d.val
  | .penc _ d _ | .pdec _ d _ _ => d.val = 0 ∨ 13 ≤ d.val
  | .cbd _ eta _ _ => eta.val ≠ 2 ∧ eta.val ≠ 3
  | .fbct ra rb _ | .fbgs ra rb _ => ra = rb
  | .nop | .zeroize | .fadd _ _ _ | .fsub _ _ _ | .fneg _ _ | .fmul _ _ _ | .finv _ _ | .fdiv _ _ _ | .fpow _ _ _
  | .feq _ _ | .fmov _ _ | .frand _ | .ftom _ _ | .ffromm _ _ | .fld _ _ _ | .fst _ _ _ => False
  | .padd _ _ _ | .psub _ _ _ | .pntt _ _ | .pintt _ _ | .pbmul _ _ _ | .pbmac _ _ _ | .pcopy _ _ | .pzero _ _
  | .pscale _ _ _ | .parse _ _ _ _ => False
  | .pkeKeygen | .pkeEnc | .pkeDec | .kemKeygen | .kemEncaps | .kemDecaps => False

/-- The macro commands (R290). -/
def macroCommands : List Instr := [.pkeKeygen, .pkeEnc, .pkeDec, .kemKeygen, .kemEncaps, .kemDecaps]

/-- The bytes of PENC or PDEC would pass BUF index 8191 (R366). -/
def bufRangeOf : Instr → Prop
  | .penc _ d blk | .pdec _ d blk _ => 8192 < 32 * blk.val + 32 * d.val
  | .nop | .zeroize | .fadd _ _ _ | .fsub _ _ _ | .fneg _ _ | .fmul _ _ _ | .finv _ _ | .fdiv _ _ _ | .fpow _ _ _
  | .feq _ _ | .fli _ _ | .fmov _ _ | .frand _ | .ftom _ _ | .ffromm _ _ | .fcomp _ _ _ | .fdecomp _ _ _
  | .fbct _ _ _ | .fbgs _ _ _ | .fld _ _ _ | .fst _ _ _ => False
  | .padd _ _ _ | .psub _ _ _ | .pntt _ _ | .pintt _ _ | .pbmul _ _ _ | .pbmac _ _ _ | .pcopy _ _ | .pzero _ _
  | .pscale _ _ _ | .pcomp _ _ _ | .pdecomp _ _ _ | .parse _ _ _ _ | .cbd _ _ _ _ => False
  | .pkeKeygen | .pkeEnc | .pkeDec | .kemKeygen | .kemEncaps | .kemDecaps => False

/-- A tag requirement of the table of R201 fails. -/
def domainMismatchOf (s : State) : Instr → Prop
  | .padd _ pa pb | .psub _ pa pb => s.tag pa ≠ s.tag pb
  | .pntt _ pa | .pcomp _ pa _ | .pdecomp _ pa _ => s.tag pa ≠ .normal
  | .pintt _ pa => s.tag pa ≠ .ntt
  | .pbmul _ pa pb => ¬(s.tag pa = .ntt ∧ s.tag pb = .ntt)
  | .pbmac pd pa pb => ¬(s.tag pd = .ntt ∧ s.tag pa = .ntt ∧ s.tag pb = .ntt)
  | .nop | .zeroize | .fadd _ _ _ | .fsub _ _ _ | .fneg _ _ | .fmul _ _ _ | .finv _ _ | .fdiv _ _ _ | .fpow _ _ _
  | .feq _ _ | .fli _ _ | .fmov _ _ | .frand _ | .ftom _ _ | .ffromm _ _ | .fcomp _ _ _ | .fdecomp _ _ _
  | .fbct _ _ _ | .fbgs _ _ _ | .fld _ _ _ | .fst _ _ _ => False
  | .pcopy _ _ | .pzero _ _ | .pscale _ _ _ | .parse _ _ _ _ | .cbd _ _ _ _ | .penc _ _ _ | .pdec _ _ _ _ => False
  | .pkeKeygen | .pkeEnc | .pkeDec | .kemKeygen | .kemEncaps | .kemDecaps => False

/-- The unit is running some command. -/
def State.Running (s : State) : Prop := ∃ p, s.phase = .running p

/-! ## Reference forms -/

/-- Coefficient k of the product of two polynomials modulo X^256 + 1 (R212). -/
def negacyclic (f g : Coeffs) (k : Nat) : Int :=
  (∑ i ∈ Finset.range 256, ∑ j ∈ Finset.range 256,
    if i + j = k then (f.at i * g.at j : Int)
    else if i + j = k + 256 then -(f.at i * g.at j : Int)
    else 0) % (q : Int)

/-- The candidates below q of the first n 3-byte groups of a stream, in order (R250, R251): each group is read as one
24-bit little-endian integer v, and gives v mod 4096 and then v div 4096. -/
def goodCandidates (stream : Nat → Byte) (n : Nat) : List Nat :=
  ((List.range n).flatMap fun g =>
    let v := (stream (3 * g)).toNat + 256 * (stream (3 * g + 1)).toNat + 65536 * (stream (3 * g + 2)).toNat
    [v % 4096, v / 4096]).filter (· < q)

/-- The pair of random bytes at p gives the candidate c (R164). -/
def pairAt (rand : Nat → Option Byte) (p c : Nat) : Prop :=
  ∃ b0 b1, rand p = some b0 ∧ rand (p + 1) = some b1 ∧ c = (b0.toNat + 256 * b1.toNat) % 4096

/-- Â[i][j] = SampleNTT(ρ, j, i), as far as `n` groups of its stream go (R291): the column is the first extra byte. -/
def matrixEntry (c : Collab) (n : Nat) (rho : List Byte) (i j : Nat) : Option Coeffs :=
  sampleNTT (c.xof128 rho (BitVec.ofNat 8 j) (BitVec.ofNat 8 i)) n

/-- Σ_{j<k} BaseMul(a_j, b_j) modulo q, coefficient by coefficient (R292-R294). -/
def dotProduct (k : Nat) (a b : Nat → Coeffs) : Coeffs :=
  Coeffs.build fun x => (∑ j ∈ Finset.range k, (baseMul (a j) (b j)).at x) % 3329

/-- A command that may take bytes from the random source (R53, R329): FRAND, and with DETRNG = 0 and a LEVEL that has a row
KEM_KEYGEN and KEM_ENCAPS. -/
def mayDraw (p : Pending) : Prop :=
  (∃ rd, decode p.cmd = .command (.frand rd)) ∨
  ((decode p.cmd = .command .kemKeygen ∨ decode p.cmd = .command .kemEncaps) ∧ p.detrng = false ∧ p.level ≠ 3)

/-- The state with other field registers, slots, tags and EQ. -/
def State.withData (s : State) (f : Vector Raw 16) (sl : Vector Poly 16) (tg : Vector Tag 16) (e : Bool) : State :=
  { s with fregs := f, slots := sl, tags := tg, eqFlag := e }

end Sys2Proof.Machine
end

