-- ==== Sys2Proof/Certificates/Slice0/Obligations.lean ====
section
/-!
DEFINITION. The statements for the provers, family by family of the spec's rules. A statement that rests on a choice of the
model says so in its docstring and names the log entry.
-/

open Sys2Proof Sys2Proof.Machine

/-! ## Encoding and the step -/

/-- Encoder and decoder agree on every command, with every operand at every value its field admits, and on every word that
is a command: each command has one word, and each word at most one command. -/
def Obligations.EncodeAndDecodeAgree : Prop :=
  (∀ i : Instr, decode (encode i) = .command i) ∧ ∀ (w : Word) (i : Instr), decode w = .command i → encode i = w

/-- R115, R116, R118, R363: a word is a command exactly when it matches a row of the opcode table, and then exactly one;
otherwise, where its opcode is assigned, it has a reserved bit set and takes RESERVED_BITS; and no fourth case exists. -/
def Obligations.WordsMatchTheOpcodeTable : Prop :=
  (opcodeTable.Pairwise fun r r' => ∀ w : Word, ¬(w &&& r.2 = r.1 ∧ w &&& r'.2 = r'.1)) ∧
  ∀ w : Word,
    ((∃ i, decode w = .command i) ↔ ∃ r ∈ opcodeTable, w &&& r.2 = r.1) ∧
    (decode w = .rejected .reservedBits ↔
      ∃ r ∈ opcodeTable, opField w = opField r.1 ∧ w &&& (r.2 &&& 0x03FFFFFF) ≠ 0) ∧
    (∀ s : State, decode w = .rejected .reservedBits → runWord w s = .next (s.takeFault .reservedBits)) ∧
    ((∃ i, decode w = .command i) ∨ decode w = .rejected .reservedBits ∨ decode w = .rejected .illegalOpcode)

/-- R117, R362: the 22 reserved opcodes, whatever the other bits, take ILLEGAL_OPCODE, and no other opcode does. -/
def Obligations.ReservedOpcodesAreIllegal : Prop :=
  reservedOpcodes.length = 22 ∧
  ∀ (w : Word) (s : State),
    (decode w = .rejected .illegalOpcode ↔ opField w ∈ reservedOpcodes) ∧
    (opField w ∈ reservedOpcodes → runWord w s = .next (s.takeFault .illegalOpcode))

/-- The worked encodings of 30_encoding.md section 6. -/
def Obligations.WorkedEncodingsDecode : Prop :=
  decode 0x20C48000 = .command (.fadd 3 1 2) ∧ decode 0x29040000 = .command (.fneg 4 1) ∧
  decode 0x3C104000 = .command (.feq 4 1) ∧ decode 0x49C00000 = .command (.frand 7) ∧
  decode 0x39440CFF = .command (.fpow 5 1 3327) ∧ decode 0x40400005 = .command (.fli 1 5) ∧
  decode 0x54850000 = .command (.fcomp 2 1 4) ∧ decode 0x5C48C000 = .command (.fbct 1 2 3) ∧
  decode 0x64480011 = .command (.fld 1 2 17) ∧ decode 0x68840011 = .command (.fst 2 1 17) ∧
  decode 0x88400000 = .command (.pntt 1 0) ∧ decode 0x95048000 = .command (.pbmac 4 1 2) ∧
  decode 0xA040C000 = .command (.pscale 1 0 3) ∧ decode 0x9D402000 = .command (.pzero 5 .ntt) ∧
  decode 0xC0500063 = .command (.parse 1 1 0 99) ∧ decode 0xC4B050C7 = .command (.cbd 2 3 5 199) ∧
  decode 0xC83000CA = .command (.penc 0 12 202) ∧ decode 0xCCE80094 = .command (.pdec 3 10 148 .normal) ∧
  decode 0xCCF02000 = .command (.pdec 3 12 0 .ntt) ∧ decode 0xF4000000 = .command .kemDecaps

/-- R92, R93, R385, R401: a step of a busy unit, when no outside agent moves, runs the command its latched word decodes to (or
takes that word's fault), at that state; it ends reset initialisation; an idle unit does nothing. The last clause is the
model's choice (log entry 13): `withFetchWord` stands for the host's accepted CMD write, and the next step runs its word. -/
def Obligations.StepRunsTheLatchedCommand : Prop :=
  ∀ (s : State) (rest : List HostEvent),
    s.script = [] ∧ rest = [] ∨ s.script = .wait :: rest →
    (∀ p i, s.phase = .running p → decode p.cmd = .command i → step s = exec i { s with script := rest }) ∧
    (∀ p e, s.phase = .running p → decode p.cmd = .rejected e →
      step s = .next (State.takeFault { s with script := rest } (decodeFault e))) ∧
    (s.phase = .initialising → step s = .next { s with script := rest, phase := .idle }) ∧
    (s.phase = .idle → step s = .next { s with script := rest }) ∧
    (∀ (w : Word) (i : Instr), decode w = .command i →
      step (s.withFetchWord 32 w.toNat) = exec i (s.withFetchWord 32 w.toNat))

/-! ## Field unit (40_field.md) -/

/-- R151, R154, R155, R156, R157: FADD, FSUB, FNEG and FMUL, on values and on raw words. -/
def Obligations.FieldArithmeticIsModular : Prop :=
  (∀ (rd ra rb : FReg) (s : State),
    Runs (packWord 0x08 rd ra rb 0) (.fadd rd ra rb) s (WritesFreg rd s fun w =>
      val w = (s.fval ra + s.fval rb) % 3329 ∧ w.toNat = ((s.freg ra).toNat + (s.freg rb).toNat) % 3329) ∧
    Runs (packWord 0x09 rd ra rb 0) (.fsub rd ra rb) s (WritesFreg rd s fun w =>
      (val w : Int) = ((s.fval ra : Int) - s.fval rb) % 3329 ∧
      (w.toNat : Int) = (((s.freg ra).toNat : Int) - (s.freg rb).toNat) % 3329) ∧
    Runs (packWord 0x0A rd ra 0 0) (.fneg rd ra) s (WritesFreg rd s fun w =>
      (val w : Int) = (3329 - (s.fval ra : Int)) % 3329 ∧
      (w.toNat : Int) = (3329 - ((s.freg ra).toNat : Int)) % 3329) ∧
    Runs (packWord 0x0B rd ra rb 0) (.fmul rd ra rb) s (WritesFreg rd s fun w =>
      val w = s.fval ra * s.fval rb % 3329 ∧ w.toNat = (s.freg ra).toNat * (s.freg rb).toNat * 169 % 3329)) ∧
  ReservedBitsFault 0x08 0 14 ∧ ReservedBitsFault 0x09 0 14 ∧ ReservedBitsFault 0x0A 0 18 ∧ ReservedBitsFault 0x0B 0 14

/-- R158, R159, R160: FINV, FDIV and FPOW, with the inverse and the quotient characterised by multiplication, zero for a zero
divisor, and x^0 = 1. -/
def Obligations.FieldInverseQuotientAndPower : Prop :=
  (∀ (rd ra rb : FReg) (e : Fin 4096) (s : State),
    Runs (packWord 0x0C rd ra 0 0) (.finv rd ra) s (WritesFreg rd s fun w =>
      Canonical w ∧ val w = s.fval ra ^ 3327 % 3329 ∧
      (s.fval ra ≠ 0 → val w * s.fval ra % 3329 = 1) ∧ (s.fval ra = 0 → val w = 0)) ∧
    Runs (packWord 0x0D rd ra rb 0) (.fdiv rd ra rb) s (WritesFreg rd s fun w =>
      Canonical w ∧ val w = s.fval ra * s.fval rb ^ 3327 % 3329 ∧
      (s.fval rb ≠ 0 → val w * s.fval rb % 3329 = s.fval ra) ∧ (s.fval rb = 0 → val w = 0)) ∧
    Runs (packWord 0x0E rd ra 0 e) (.fpow rd ra e) s (WritesFreg rd s fun w =>
      Canonical w ∧ val w = s.fval ra ^ e.val % 3329 ∧ (e.val = 0 → val w = 1))) ∧
  ReservedBitsFault 0x0C 0 18 ∧ ReservedBitsFault 0x0D 0 14 ∧ ReservedBitsFault 0x0E 12 6

/-- R161, R162, R163: FEQ, FLI and FMOV. -/
def Obligations.FieldCompareLoadAndMove : Prop :=
  (∀ (rd ra rb : FReg) (v : Fin 4096) (s : State),
    Runs (packWord 0x0F 0 ra rb 0) (.feq ra rb) s (fun t =>
      Frame [] [] noBytes s t ∧ t.randPos = s.randPos ∧ t.scratch = s.scratch ∧
      (t.eqFlag = true ↔ s.freg ra = s.freg rb) ∧
      (Canonical (s.freg ra) → Canonical (s.freg rb) → (t.eqFlag = true ↔ s.fval ra = s.fval rb))) ∧
    (v.val < 3329 →
      Runs (packWord 0x10 rd 0 0 v) (.fli rd v) s (WritesFreg rd s fun w => Canonical w ∧ val w = v.val)) ∧
    (3329 ≤ v.val → decode (packWord 0x10 rd 0 0 v) = .command (.fli rd v) ∧
      exec (.fli rd v) s = .next (s.takeFault .badField)) ∧
    Runs (packWord 0x11 rd ra 0 0) (.fmov rd ra) s (WritesFreg rd s fun w => w = s.freg ra)) ∧
  ReservedBitsFault 0x0F 22 4 ∧ ReservedBitsFault 0x0F 0 14 ∧ ReservedBitsFault 0x10 12 10 ∧ ReservedBitsFault 0x11 0 18

/-- FRAND (40_field.md section 3), for every random source. It completes with the first value below q among the byte pairs,
having taken the bytes up to it; while no such pair has come within the model's budget of a unit step (log entry 2) it stays
busy. -/
def Obligations.FrandTakesTheFirstPairBelowQ : Prop :=
  (∀ (rd : FReg) (s : State), Runs (packWord 0x12 rd 0 0 0) (.frand rd) s (· = frandFrom Config.randStream rd s)) ∧
  (∀ (rand : Nat → Option Byte) (rd : FReg) (s : State) (k c : Nat), k < s.budget →
    (∀ j < k, ∃ c', pairAt rand (s.randPos + 2 * j) c' ∧ 3329 ≤ c') →
    pairAt rand (s.randPos + 2 * k) c → c < 3329 →
    Frame [rd] [] noBytes s (frandFrom rand rd s) ∧
    val ((frandFrom rand rd s).freg rd) = c ∧ Canonical ((frandFrom rand rd s).freg rd) ∧
    (frandFrom rand rd s).randPos = s.randPos + 2 * k + 2 ∧
    (frandFrom rand rd s).eqFlag = s.eqFlag ∧ (frandFrom rand rd s).scratch = s.scratch) ∧
  (∀ (rand : Nat → Option Byte) (rd : FReg) (s : State),
    (∀ k < s.budget, (∀ j < k, ∃ c', pairAt rand (s.randPos + 2 * j) c' ∧ 3329 ≤ c') →
      ¬∃ c, pairAt rand (s.randPos + 2 * k) c ∧ c < 3329) →
    frandFrom rand rd s = s.keepBusy) ∧
  ReservedBitsFault 0x12 0 22

/-- R165, R166: FTOM and FFROMM, and that FFROMM followed by FTOM is the identity on words below q. -/
def Obligations.MontgomeryConversions : Prop :=
  (∀ (rd ra : FReg) (s : State),
    Runs (packWord 0x13 rd ra 0 0) (.ftom rd ra) s (WritesFreg rd s fun w =>
      w.toNat = (s.freg ra).toNat * 65536 % 3329 ∧ (Canonical (s.freg ra) → val w = (s.freg ra).toNat)) ∧
    Runs (packWord 0x14 rd ra 0 0) (.ffromm rd ra) s (WritesFreg rd s fun w =>
      w.toNat = (s.freg ra).toNat * 169 % 3329 ∧ w.toNat = s.fval ra ∧
      (Canonical (s.freg ra) → w.toNat * 65536 % 3329 = (s.freg ra).toNat))) ∧
  ReservedBitsFault 0x13 0 18 ∧ ReservedBitsFault 0x14 0 18

/-- R18: for every radix with an inverse modulo q, val and mont are inverse bijections on [0, q). -/
def Obligations.ValAndMontAreInverseForEveryRadix : Prop :=
  ∀ r rinv : Nat, r * rinv % 3329 = 1 →
    (∀ a < 3329, (montFor r a).toNat < 3329 ∧ valFor rinv (montFor r a) = a) ∧
    (∀ w : Raw, w.toNat < 3329 → valFor rinv w < 3329 ∧ montFor r (valFor rinv w) = w)

/-- R13, R55: the machine is `execWith` and `stepWith` at its configuration, whose radix is the default 2^16; and under
another radix every command but FTOM and FFROMM does the same to the values: from the state whose words of F and the slots
stand for the same values, it ends in the state whose words stand for the same values, with everything else (BUF, EQ, tags,
reports, counters) equal. For every radix FTOM's value is the raw word and FFROMM's raw word is the value. -/
def Obligations.RadixChangesRawWordsAlone : Prop :=
  (∀ (i : Instr) (s : State), exec i s = .next (execWith Config.params i s)) ∧
  (∀ s : State, step s = .next (stepWith Config.params s)) ∧ Config.params.radix.r = 65536 ∧
  ∀ (e : Params) (R' : Radix) (i : Instr) (s : State), (∀ f, Canonical (s.freg f)) →
    ((∀ rd ra, i ≠ .ftom rd ra ∧ i ≠ .ffromm rd ra) →
      execWith { e with radix := R' } i (s.rebase e.radix R') = (execWith e i s).rebase e.radix R') ∧
    (∀ rd ra, i = .ftom rd ra → (execWith e i s).fval rd e.radix = (s.freg ra).toNat) ∧
    (∀ rd ra, i = .ffromm rd ra → ((execWith e i s).freg rd).toNat = s.fval ra e.radix)

/-- R167, R168: FCOMP and FDECOMP on the legal widths, BAD_FIELD on the others. -/
def Obligations.FieldQuantizers : Prop :=
  (∀ (rd ra : FReg) (d : Width) (s : State),
    (1 ≤ d.val ∧ d.val ≤ 11 →
      Runs (packWord 0x15 rd ra d 0) (.fcomp rd ra d) s (WritesFreg rd s fun w =>
        Canonical w ∧ val w < 2 ^ d.val ∧
        val w = (2 ^ (d.val + 1) * s.fval ra + 3329) / (2 * 3329) % 2 ^ d.val) ∧
      Runs (packWord 0x16 rd ra d 0) (.fdecomp rd ra d) s (WritesFreg rd s fun w =>
        Canonical w ∧ val w = (3329 * (s.fval ra % 2 ^ d.val) + 2 ^ (d.val - 1)) / 2 ^ d.val)) ∧
    (d.val = 0 ∨ 12 ≤ d.val →
      decode (packWord 0x15 rd ra d 0) = .command (.fcomp rd ra d) ∧
      decode (packWord 0x16 rd ra d 0) = .command (.fdecomp rd ra d) ∧
      exec (.fcomp rd ra d) s = .next (s.takeFault .badField) ∧
      exec (.fdecomp rd ra d) s = .next (s.takeFault .badField))) ∧
  ReservedBitsFault 0x15 0 14 ∧ ReservedBitsFault 0x16 0 14

/-- R169, R170: the butterflies, all three operands read before either write; BAD_FIELD when ra = rb. -/
def Obligations.ButterfliesWriteBothOperands : Prop :=
  (∀ (ra rb rz : FReg) (s : State), ra ≠ rb →
    Runs (packWord 0x17 ra rb rz 0) (.fbct ra rb rz) s (fun t =>
      Frame [ra, rb] [] noBytes s t ∧ Quiet s t ∧ Canonical (t.freg ra) ∧ Canonical (t.freg rb) ∧
      val (t.freg ra) = (s.fval ra + s.fval rz * s.fval rb) % 3329 ∧
      (val (t.freg rb) : Int) = ((s.fval ra : Int) - s.fval rz * s.fval rb) % 3329) ∧
    Runs (packWord 0x18 ra rb rz 0) (.fbgs ra rb rz) s (fun t =>
      Frame [ra, rb] [] noBytes s t ∧ Quiet s t ∧ Canonical (t.freg ra) ∧ Canonical (t.freg rb) ∧
      val (t.freg ra) = (s.fval ra + s.fval rb) % 3329 ∧
      (val (t.freg rb) : Int) = (s.fval rz : Int) * ((s.fval rb : Int) - s.fval ra) % 3329)) ∧
  (∀ (ra rz : FReg) (s : State),
    decode (packWord 0x17 ra ra rz 0) = .command (.fbct ra ra rz) ∧
    decode (packWord 0x18 ra ra rz 0) = .command (.fbgs ra ra rz) ∧
    exec (.fbct ra ra rz) s = .next (s.takeFault .badField) ∧
    exec (.fbgs ra ra rz) s = .next (s.takeFault .badField)) ∧
  ReservedBitsFault 0x17 0 14 ∧ ReservedBitsFault 0x18 0 14

/-- R171, R172: FLD and FST move one raw word; FST leaves the tag and the other 255 words. -/
def Obligations.SlotWordTransfers : Prop :=
  (∀ (r : FReg) (p : Slot) (idx : Fin 256) (s : State),
    Runs (packWord 0x19 r p 0 idx) (.fld r p idx) s (WritesFreg r s fun w => w = s.slotWord p idx) ∧
    Runs (packWord 0x1A p r 0 idx) (.fst p r idx) s (fun t =>
      Frame [] [p] noBytes s t ∧ Quiet s t ∧ t.tag p = s.tag p ∧ t.slotWord p idx = s.freg r ∧
      ∀ j, j ≠ idx → t.slotWord p j = s.slotWord p j)) ∧
  ReservedBitsFault 0x19 8 10 ∧ ReservedBitsFault 0x1A 8 10

/-! ## Polynomial unit (41_poly_ntt.md) -/

/-- R213, R214, R224: PADD and PSUB on slots of one domain, PSCALE on any slot; the domain is kept. -/
def Obligations.SlotArithmetic : Prop :=
  (∀ (pd pa pb : Slot) (fb : FReg) (s : State),
    (s.tag pa = s.tag pb →
      Runs (packWord 0x20 pd pa pb 0) (.padd pd pa pb) s (WritesSlot pd (s.tag pa) s fun j v =>
        v = (val (s.slotWord pa j) + val (s.slotWord pb j)) % 3329) ∧
      Runs (packWord 0x21 pd pa pb 0) (.psub pd pa pb) s (WritesSlot pd (s.tag pa) s fun j v =>
        (v : Int) = ((val (s.slotWord pa j) : Int) - val (s.slotWord pb j)) % 3329)) ∧
    (s.tag pa ≠ s.tag pb →
      decode (packWord 0x20 pd pa pb 0) = .command (.padd pd pa pb) ∧
      decode (packWord 0x21 pd pa pb 0) = .command (.psub pd pa pb) ∧
      exec (.padd pd pa pb) s = .next (s.takeFault .domainMismatch) ∧
      exec (.psub pd pa pb) s = .next (s.takeFault .domainMismatch)) ∧
    Runs (packWord 0x28 pd pa fb 0) (.pscale pd pa fb) s (WritesSlot pd (s.tag pa) s fun j v =>
      v = s.fval fb * val (s.slotWord pa j) % 3329)) ∧
  ReservedBitsFault 0x20 0 14 ∧ ReservedBitsFault 0x21 0 14 ∧ ReservedBitsFault 0x28 0 14

/-- R215, R216: PNTT and PINTT apply the transforms of R205 and R207 to the slot's values and set the tag. -/
def Obligations.SlotTransforms : Prop :=
  (∀ (pd pa : Slot) (s : State),
    (s.tag pa = .normal →
      Runs (packWord 0x22 pd pa 0 0) (.pntt pd pa) s (WritesSlot pd .ntt s fun j v => v = (ntt (s.slotVals pa)).at j)) ∧
    (s.tag pa = .ntt → decode (packWord 0x22 pd pa 0 0) = .command (.pntt pd pa) ∧
      exec (.pntt pd pa) s = .next (s.takeFault .domainMismatch)) ∧
    (s.tag pa = .ntt →
      Runs (packWord 0x23 pd pa 0 0) (.pintt pd pa) s
        (WritesSlot pd .normal s fun j v => v = (nttInv (s.slotVals pa)).at j)) ∧
    (s.tag pa = .normal → decode (packWord 0x23 pd pa 0 0) = .command (.pintt pd pa) ∧
      exec (.pintt pd pa) s = .next (s.takeFault .domainMismatch))) ∧
  ReservedBitsFault 0x22 0 18 ∧ ReservedBitsFault 0x23 0 18

/-- R210, R217, R218: PBMUL and PBMAC, block by block with the block's own root, the old pd in the sum. -/
def Obligations.SlotBaseMultiplication : Prop :=
  (∀ (pd pa pb : Slot) (s : State),
    let a := fun j => (s.slotVals pa).at j
    let b := fun j => (s.slotVals pb).at j
    let block := fun i => a (2 * i) * b (2 * i) + a (2 * i + 1) * b (2 * i + 1) * (17 ^ (2 * bitRev7 i + 1) % 3329)
    let cross := fun i => a (2 * i) * b (2 * i + 1) + a (2 * i + 1) * b (2 * i)
    let product := fun j : Nat => if j % 2 = 0 then block (j / 2) else cross (j / 2)
    (s.tag pa = .ntt → s.tag pb = .ntt →
      Runs (packWord 0x24 pd pa pb 0) (.pbmul pd pa pb) s (WritesSlot pd .ntt s fun j v => v = product j % 3329)) ∧
    (s.tag pa = .normal ∨ s.tag pb = .normal → decode (packWord 0x24 pd pa pb 0) = .command (.pbmul pd pa pb) ∧
      exec (.pbmul pd pa pb) s = .next (s.takeFault .domainMismatch)) ∧
    (s.tag pd = .ntt → s.tag pa = .ntt → s.tag pb = .ntt →
      Runs (packWord 0x25 pd pa pb 0) (.pbmac pd pa pb) s (WritesSlot pd .ntt s fun j v =>
        v = ((s.slotVals pd).at j + product j) % 3329)) ∧
    (s.tag pd = .normal ∨ s.tag pa = .normal ∨ s.tag pb = .normal →
      decode (packWord 0x25 pd pa pb 0) = .command (.pbmac pd pa pb) ∧
      exec (.pbmac pd pa pb) s = .next (s.takeFault .domainMismatch))) ∧
  ReservedBitsFault 0x24 0 14 ∧ ReservedBitsFault 0x25 0 14

/-- R219, R223: PCOPY copies words and tag, PZERO zeroes the slot and sets the tag; neither looks at a tag. -/
def Obligations.SlotCopyAndZero : Prop :=
  (∀ (pd pa : Slot) (t : Tag) (s : State),
    Runs (packWord 0x26 pd pa 0 0) (.pcopy pd pa) s (fun u =>
      Frame [] [pd] noBytes s u ∧ Quiet s u ∧ u.tag pd = s.tag pa ∧ ∀ j, u.slotWord pd j = s.slotWord pa j) ∧
    Runs (packWord 0x27 pd 0 0 (t.bit * 2 ^ 13)) (.pzero pd t) s (fun u =>
      Frame [] [pd] noBytes s u ∧ Quiet s u ∧ u.tag pd = t ∧ ∀ j, u.slotWord pd j = 0)) ∧
  ReservedBitsFault 0x26 0 18 ∧ ReservedBitsFault 0x27 14 8 ∧ ReservedBitsFault 0x27 0 13

/-- R225, R226: PCOMP and PDECOMP on a coefficient-domain slot; BAD_FIELD for an illegal width, before DOMAIN_MISMATCH for a
transformed slot. -/
def Obligations.SlotQuantizers : Prop :=
  (∀ (pd pa : Slot) (d : Width) (s : State),
    decode (packWord 0x29 pd pa d 0) = .command (.pcomp pd pa d) ∧
    decode (packWord 0x2A pd pa d 0) = .command (.pdecomp pd pa d) ∧
    (d.val = 0 ∨ 12 ≤ d.val → exec (.pcomp pd pa d) s = .next (s.takeFault .badField) ∧
      exec (.pdecomp pd pa d) s = .next (s.takeFault .badField)) ∧
    (1 ≤ d.val ∧ d.val ≤ 11 → s.tag pa = .ntt → exec (.pcomp pd pa d) s = .next (s.takeFault .domainMismatch) ∧
      exec (.pdecomp pd pa d) s = .next (s.takeFault .domainMismatch)) ∧
    (1 ≤ d.val ∧ d.val ≤ 11 → s.tag pa = .normal →
      Runs (packWord 0x29 pd pa d 0) (.pcomp pd pa d) s (WritesSlot pd .normal s fun j v =>
        v = (2 ^ (d.val + 1) * val (s.slotWord pa j) + 3329) / (2 * 3329) % 2 ^ d.val) ∧
      Runs (packWord 0x2A pd pa d 0) (.pdecomp pd pa d) s (WritesSlot pd .normal s fun j v =>
        v = (3329 * (val (s.slotWord pa j) % 2 ^ d.val) + 2 ^ (d.val - 1)) / 2 ^ d.val))) ∧
  ReservedBitsFault 0x29 0 14 ∧ ReservedBitsFault 0x2A 0 14

/-- R205: the forward transform gives, for each block i, the coefficients of f modulo X² − γ_i. -/
def Obligations.NttGivesTheResidues : Prop :=
  ∀ (f : Coeffs) (i : Nat), i < 128 →
    (ntt f).at (2 * i) = (∑ m ∈ Finset.range 128, f.at (2 * m) * gamma i ^ m) % 3329 ∧
    (ntt f).at (2 * i + 1) = (∑ m ∈ Finset.range 128, f.at (2 * m + 1) * gamma i ^ m) % 3329

/-- R209: the transforms are exact inverses of each other on values below q. -/
def Obligations.TransformsAreInverse : Prop :=
  ∀ f : Coeffs, f.Canonical → nttInv (ntt f) = f ∧ ntt (nttInv f) = f

/-- R212: base multiplication of transforms is multiplication modulo X^256 + 1. -/
def Obligations.BaseMulIsRingMultiplication : Prop :=
  ∀ (f g : Coeffs) (k : Nat), k < 256 → ((nttInv (baseMul (ntt f) (ntt g))).at k : Int) = negacyclic f g k

/-- R220, R221, R222: Compress_d and Decompress_d are the scalings rounded to the nearest integer, ties up, and the error of
one after the other is bounded, in the centred distance, by a bound that is reached. -/
def Obligations.QuantizersRoundAndBoundTheError : Prop :=
  ∀ d, 1 ≤ d → d ≤ 11 →
    (∀ x < 3329, (compress d x : Int) = ⌊(2 ^ d / 3329 * x + 1 / 2 : ℚ)⌋ % 2 ^ d) ∧
    (∀ y < 2 ^ d, (decompress d y : Int) = ⌊(3329 / 2 ^ d * y + 1 / 2 : ℚ)⌋ ∧ decompress d y < 3329) ∧
    (∀ x < 3329, (cdist (decompress d (compress d x)) x : Int) ≤ ⌊(3329 / 2 ^ (d + 1) + 1 / 2 : ℚ)⌋) ∧
    (∃ x < 3329, (cdist (decompress d (compress d x)) x : Int) = ⌊(3329 / 2 ^ (d + 1) + 1 / 2 : ℚ)⌋)

/-! ## Samplers and packers (42_sampling_encoding.md) -/

/-- PARSE (section 1), for every collaborator: with the stream's 256 candidates it writes them to the slot as a transformed
polynomial; until the model's budget reaches them it stays busy (log entry 2). -/
def Obligations.ParseSamplesASlot : Prop :=
  (∀ (pd : Slot) (x y : Fin 4) (blk : Blk) (s : State),
    Runs (packWord 0x30 pd 0 0 (x * 2 ^ 20 + y * 2 ^ 18 + blk)) (.parse pd x y blk) s
      (· = parseWith Config.collab pd x y blk s)) ∧
  (∀ (c : Collab) (pd : Slot) (x y : Fin 4) (blk : Blk) (s : State),
    let good := goodCandidates
      (c.xof128 (s.readBuf (32 * blk) 32) (BitVec.ofNat 8 x) (BitVec.ofNat 8 y)) s.budget
    (256 ≤ good.length → WritesSlot pd .ntt s (fun j v => v = good.getD j 0) (parseWith c pd x y blk s)) ∧
    (good.length < 256 → parseWith c pd x y blk s = s.keepBusy)) ∧
  ReservedBitsFault 0x30 8 10

/-- R252, R415: PARSE completes after some number of unit steps if its stream ever gives 256 candidates below q, and
otherwise stays busy at every unit step; both for every collaborator and every latched command. That the groups looked
through grow with the unit steps is the model's choice (log entry 2). -/
def Obligations.ParseCompletesIfItsStreamDoes : Prop :=
  ∀ (c : Collab) (pd : Slot) (x y : Fin 4) (blk : Blk) (s : State), s.Running →
    let stream := c.xof128 (s.readBuf (32 * blk) 32) (BitVec.ofNat 8 x) (BitVec.ofNat 8 y)
    let after := fun k => (fun u => parseWith c pd x y blk u)^[k] s
    ((∃ n, 256 ≤ (goodCandidates stream n).length) →
      ∃ k, (∀ j ≤ k, (after j).busy = true) ∧ (after (k + 1)).busy = false ∧ (after (k + 1)).done = true) ∧
    ((∀ n, (goodCandidates stream n).length < 256) → ∀ k, (after k).busy = true)

/-- R255, R256, R257: CBD writes the differences of bit counts of PRF bytes, for every collaborator; BAD_FIELD for an eta
other than 2 or 3. -/
def Obligations.CbdSamplesASlot : Prop :=
  (∀ (pd : Slot) (eta : Fin 4) (n : Fin 256) (blk : Blk) (s : State),
    Runs (packWord 0x31 pd 0 0 (eta * 2 ^ 20 + n * 2 ^ 12 + blk)) (.cbd pd eta n blk) s
      (· = cbdWith Config.collab pd eta n blk s)) ∧
  (∀ (c : Collab) (pd : Slot) (eta : Fin 4) (n : Fin 256) (blk : Blk) (s : State),
    let bit := fun i => (c.xof256 (s.readBuf (32 * blk) 32) (BitVec.ofNat 8 n) (i / 8)).getLsbD (i % 8)
    (eta.val = 2 ∨ eta.val = 3 → WritesSlot pd .normal s (fun j v =>
        (v : Int) = ((∑ t ∈ Finset.range eta, ((bit (2 * j * eta + t)).toNat : Int))
          - ∑ t ∈ Finset.range eta, ((bit (2 * j * eta + eta + t)).toNat : Int)) % 3329)
      (cbdWith c pd eta n blk s)) ∧
    (eta.val = 0 ∨ eta.val = 1 → cbdWith c pd eta n blk s = s.takeFault .badField)) ∧
  ReservedBitsFault 0x31 8 4

/-- R264: PENC writes d bits of each value, least significant first, to 32·d bytes; BAD_FIELD before BUF_RANGE. -/
def Obligations.PencPacksASlot : Prop :=
  (∀ (pa : Slot) (d : Width) (blk : Blk) (s : State),
    decode (packWord 0x32 pa d 0 blk) = .command (.penc pa d blk) ∧
    (d.val = 0 ∨ 13 ≤ d.val → exec (.penc pa d blk) s = .next (s.takeFault .badField)) ∧
    (1 ≤ d.val ∧ d.val ≤ 12 → 256 < blk.val + d.val → exec (.penc pa d blk) s = .next (s.takeFault .bufRange)) ∧
    (1 ≤ d.val ∧ d.val ≤ 12 → blk.val + d.val ≤ 256 → ∃ t, exec (.penc pa d blk) s = .next t ∧
      Frame [] [] (span (32 * blk) (32 * d)) s t ∧ Quiet s t ∧
      ∀ (i : Fin 256) (b : Nat), b < d.val →
        (t.buf.read (32 * blk + (i * d + b) / 8)).getLsbD ((i * d + b) % 8) = (val (s.slotWord pa i)).testBit b)) ∧
  ReservedBitsFault 0x32 8 10

/-- R265: PDEC reads 256 groups of d bits into a slot, a 12-bit group modulo q; BAD_FIELD before BUF_RANGE. -/
def Obligations.PdecUnpacksASlot : Prop :=
  (∀ (pd : Slot) (d : Width) (blk : Blk) (t : Tag) (s : State),
    decode (packWord 0x33 pd d 0 (t.bit * 2 ^ 13 + blk)) = .command (.pdec pd d blk t) ∧
    (d.val = 0 ∨ 13 ≤ d.val → exec (.pdec pd d blk t) s = .next (s.takeFault .badField)) ∧
    (1 ≤ d.val ∧ d.val ≤ 12 → 256 < blk.val + d.val → exec (.pdec pd d blk t) s = .next (s.takeFault .bufRange)) ∧
    (1 ≤ d.val ∧ d.val ≤ 12 → blk.val + d.val ≤ 256 → ∃ u, exec (.pdec pd d blk t) s = .next u ∧
      WritesSlot pd t s (fun i v => v = (∑ b ∈ Finset.range d,
        ((s.buf.read (32 * blk + (i * d + b) / 8)).getLsbD ((i * d + b) % 8)).toNat * 2 ^ b) % 3329) u)) ∧
  ReservedBitsFault 0x33 14 4 ∧ ReservedBitsFault 0x33 8 5

/-- R266: packing and unpacking are inverse, on values below 2^d (below q for d = 12) and on byte strings (all of them for
d < 12, exactly those with every 12-bit group below q for d = 12). -/
def Obligations.PackingRoundTrips : Prop :=
  ∀ d, 1 ≤ d → d ≤ 12 →
    (∀ f : Coeffs, (∀ j < 256, f.at j < if d = 12 then 3329 else 2 ^ d) → byteDecode d (byteEncode d f) = f) ∧
    (∀ bs : List Byte, bs.length = 32 * d →
      (byteEncode d (byteDecode d bs) = bs ↔
        d < 12 ∨ ∀ i < 256, bitSum 12 (fun t => bytesToBits bs (12 * i + t)) < 3329))

/-! ## Macro commands (43_pke.md, 44_kem.md) -/

/-- R11, R12: the level table, with the byte lengths. -/
def Obligations.LevelTable : Prop :=
  (levelParams 0).map (fun lp => (lp.k, lp.eta1, lp.eta2, lp.du, lp.dv)) = some (2, 3, 2, 10, 4) ∧
  (levelParams 1).map (fun lp => (lp.k, lp.eta1, lp.eta2, lp.du, lp.dv)) = some (3, 2, 2, 10, 4) ∧
  (levelParams 2).map (fun lp => (lp.k, lp.eta1, lp.eta2, lp.du, lp.dv)) = some (4, 2, 2, 11, 5) ∧
  levelParams 3 = none ∧
  (levelParams 0).map (fun lp => (lp.pkBytes, lp.skBytes, lp.ctBytes, lp.ccaSkBytes)) = some (800, 768, 768, 1632) ∧
  (levelParams 1).map (fun lp => (lp.pkBytes, lp.skBytes, lp.ctBytes, lp.ccaSkBytes)) = some (1184, 1152, 1088, 2400) ∧
  (levelParams 2).map (fun lp => (lp.pkBytes, lp.skBytes, lp.ctBytes, lp.ccaSkBytes)) = some (1568, 1536, 1568, 3168)

/-- PKE_KEYGEN (R291, R292, R295), for every collaborator. With (rho, sigma) the halves of H512(D), A the matrix of rho, and
s_0, …, s_(2k-1) the noise polynomials of sigma with eta1: SK takes ByteEncode_12 of each NTT(s_i), PK that of each
Σ_j BaseMul(A_ij, NTT(s_j)) + NTT(s_(k+i)), and then rho; nothing else changes and the scratch is zero. BAD_LEVEL at
LEVEL 3. While a matrix entry is not sampled it stays busy (log entry 2). -/
def Obligations.PkeKeygenWritesTheKeyPair : Prop :=
  (∀ s : State, Runs 0xE0000000 .pkeKeygen s (· = pkeKeygenWith Config.collab s)) ∧
  (∀ (c : Collab) (s : State),
    (s.latchedLevel = 3 → pkeKeygenWith c s = s.takeFault .badLevel) ∧
    ∀ lp, levelParams s.latchedLevel = some lp →
      let d := s.readBuf 0x18E0 32
      let rho := (c.h512 d).toList.take 32
      let sigma := (c.h512 d).toList.drop 32
      let noise := fun n => ntt (samplePolyCBD lp.eta1 (prf c lp.eta1 sigma (BitVec.ofNat 8 n)))
      let t := pkeKeygenWith c s
      ((∃ i < lp.k, ∃ j < lp.k, matrixEntry c s.budget rho i j = none) →
        pkeKeyGen c s.budget lp d = none ∧ t = s.keepBusy) ∧
      ∀ A : Nat → Nat → Coeffs, (∀ i < lp.k, ∀ j < lp.k, matrixEntry c s.budget rho i j = some (A i j)) →
        Frame [] [] (fun a => span 0x0C60 (384 * lp.k + 32) a ∨ span 0 (384 * lp.k) a) s t ∧
        t.eqFlag = s.eqFlag ∧ t.randPos = s.randPos ∧ t.scratch = [] ∧
        (∀ i < lp.k, t.readBuf (384 * i) 384 = byteEncode 12 (noise i) ∧
          t.readBuf (0x0C60 + 384 * i) 384 = byteEncode 12 ((dotProduct lp.k (A i) noise).add (noise (lp.k + i)))) ∧
        t.readBuf (0x0C60 + 384 * lp.k) 32 = rho ∧
        pkeKeyGen c s.budget lp d = some (t.readBuf 0x0C60 (384 * lp.k + 32), t.readBuf 0 (384 * lp.k))) ∧
  ReservedBitsFault 0x38 0 26

/-- PKE_ENC (R291, R293, R296), for every collaborator. With t_j the decoded polynomials of PK, A the matrix of its rho, r_j
the noise of COINS with eta1 and counters 0 to k-1, and the errors those with eta2 and counters k to 2k: CT takes the packed
Compress of each NTT_inv(Σ_j BaseMul(A_ji, NTT(r_j))) + e1_i, and that of NTT_inv(Σ_j BaseMul(t_j, NTT(r_j))) + e2 + mu, mu
being 1665 at each 1 bit of MSG; nothing else changes. While a matrix entry is not sampled it stays busy (log entry 2). -/
def Obligations.PkeEncWritesTheCiphertext : Prop :=
  (∀ s : State, Runs 0xE4000000 .pkeEnc s (· = pkeEncWith Config.collab s)) ∧
  (∀ (c : Collab) (s : State),
    (s.latchedLevel = 3 → pkeEncWith c s = s.takeFault .badLevel) ∧
    ∀ lp, levelParams s.latchedLevel = some lp →
      let coins := s.readBuf 0x18C0 32
      let rho := s.readBuf (0x0C60 + 384 * lp.k) 32
      let tHat := fun j => byteDecode 12 (s.readBuf (0x0C60 + 384 * j) 384)
      let noise := fun eta n => samplePolyCBD eta (prf c eta coins (BitVec.ofNat 8 n))
      let rHat := fun j => ntt (noise lp.eta1 j)
      let mu := Coeffs.build fun x => if (s.buf.read (0x18A0 + x / 8)).getLsbD (x % 8) then 1665 else 0
      let v := ((nttInv (dotProduct lp.k tHat rHat)).add (noise lp.eta2 (2 * lp.k))).add mu
      let t := pkeEncWith c s
      let out := pkeEncrypt c s.budget lp (s.readBuf 0x0C60 (384 * lp.k + 32)) (s.readBuf 0x18A0 32) coins
      ((∃ i < lp.k, ∃ j < lp.k, matrixEntry c s.budget rho i j = none) → out = none ∧ t = s.keepBusy) ∧
      ∀ A : Nat → Nat → Coeffs, (∀ i < lp.k, ∀ j < lp.k, matrixEntry c s.budget rho i j = some (A i j)) →
        Frame [] [] (span 0x1280 (32 * (lp.k * lp.du + lp.dv))) s t ∧
        t.eqFlag = s.eqFlag ∧ t.randPos = s.randPos ∧ t.scratch = [] ∧
        (∀ i < lp.k, t.readBuf (0x1280 + 32 * lp.du * i) (32 * lp.du) = byteEncode lp.du
          (((nttInv (dotProduct lp.k (fun j => A j i) rHat)).add (noise lp.eta2 (lp.k + i))).mapEach (compress lp.du))) ∧
        t.readBuf (0x1280 + 32 * lp.du * lp.k) (32 * lp.dv) = byteEncode lp.dv (v.mapEach (compress lp.dv)) ∧
        out = some (t.readBuf 0x1280 (32 * (lp.k * lp.du + lp.dv)))) ∧
  ReservedBitsFault 0x39 0 26

/-- R294, R297: PKE_DEC. With u_i and v the unpacked and decompressed parts of CT and s_i the decoded polynomials of SK, bit x
of MSG is 1 exactly when coefficient x of v - NTT_inv(Σ_i BaseMul(s_i, NTT(u_i))) is 833 to 2496, where Compress_1 is 1;
nothing else changes; BAD_LEVEL at LEVEL 3. -/
def Obligations.PkeDecWritesTheMessage : Prop :=
  (∀ s : State,
    decode 0xE8000000 = .command .pkeDec ∧
    (s.latchedLevel = 3 → exec .pkeDec s = .next (s.takeFault .badLevel)) ∧
    ∀ lp, levelParams s.latchedLevel = some lp →
      let u := fun i =>
        (byteDecode lp.du (s.readBuf (0x1280 + 32 * lp.du * i) (32 * lp.du))).mapEach (decompress lp.du)
      let v := (byteDecode lp.dv (s.readBuf (0x1280 + 32 * lp.du * lp.k) (32 * lp.dv))).mapEach (decompress lp.dv)
      let sHat := fun i => byteDecode 12 (s.readBuf (384 * i) 384)
      let w := v.sub (nttInv (dotProduct lp.k sHat fun i => ntt (u i)))
      ∃ t, exec .pkeDec s = .next t ∧
        Frame [] [] (span 0x18A0 32) s t ∧ t.eqFlag = s.eqFlag ∧ t.randPos = s.randPos ∧ t.scratch = [] ∧
        (∀ x : Fin 256, (t.buf.read (0x18A0 + x / 8)).getLsbD (x % 8) = decide (833 ≤ w.at x ∧ w.at x ≤ 2496)) ∧
        t.readBuf 0x18A0 32 =
          pkeDecrypt lp (s.readBuf 0 (384 * lp.k)) (s.readBuf 0x1280 (32 * (lp.k * lp.du + lp.dv)))) ∧
  ReservedBitsFault 0x3A 0 26

/-- KEM_KEYGEN (R320, R324, R329), for every collaborator and random source. With DETRNG = 1 d and z are read from BUF; with
DETRNG = 0 they are the next 64 random bytes, are left in D and Z, and the source has moved on by 64. With (pk, sk) the
K-PKE.KeyGen of d, PK takes pk and SK sk ‖ pk ‖ H256(pk) ‖ z. While a matrix entry or a random byte is missing it stays busy
(log entry 2). -/
def Obligations.KemKeygenWritesTheKeyPair : Prop :=
  (∀ s : State, Runs 0xEC000000 .kemKeygen s (· = kemKeygenWith Config.collab Config.randStream s)) ∧
  (∀ (c : Collab) (rand : Nat → Option Byte) (s : State),
    (s.latchedLevel = 3 → kemKeygenWith c rand s = s.takeFault .badLevel) ∧
    ∀ lp, levelParams s.latchedLevel = some lp →
      let t := kemKeygenWith c rand s
      (s.latchedDetrng = false → drawBytes rand 64 s.randPos = none → t = s.keepBusy) ∧
      ∀ d z, d.length = 32 → z.length = 32 →
        (if s.latchedDetrng then d = s.readBuf 0x18E0 32 ∧ z = s.readBuf 0x1900 32
          else drawBytes rand 64 s.randPos = some (d ++ z)) →
        (pkeKeyGen c s.budget lp d = none → t = s.keepBusy) ∧
        ∀ pk sk, pkeKeyGen c s.budget lp d = some (pk, sk) →
          Frame [] [] (fun a => span 0x0C60 (384 * lp.k + 32) a ∨ span 0 (768 * lp.k + 96) a ∨
            (s.latchedDetrng = false ∧ span 0x18E0 64 a)) s t ∧
          t.eqFlag = s.eqFlag ∧ t.scratch = [] ∧ t.randPos = s.randPos + (if s.latchedDetrng then 0 else 64) ∧
          t.readBuf 0x0C60 (384 * lp.k + 32) = pk ∧
          t.readBuf 0 (768 * lp.k + 96) = sk ++ pk ++ (c.h256 pk).toList ++ z ∧
          t.readBuf 0x18E0 32 = d ∧ t.readBuf 0x1900 32 = z ∧
          kemKeyGen c s.budget lp d z = some (pk, sk ++ pk ++ (c.h256 pk).toList ++ z)) ∧
  ReservedBitsFault 0x3B 0 26

/-- KEM_ENCAPS (R321, R325, R329), for every collaborator and random source: m from MSG or the next 32 random bytes. With
(K', coins) the halves of H512(H256(PK) ‖ m), CT takes the K-PKE.Encrypt of PK, m and coins, and SS takes
KDF(K' ‖ H256(CT)); COINS is not written. While a matrix entry or a random byte is missing it stays busy (log entry 2). -/
def Obligations.KemEncapsWritesCiphertextAndSecret : Prop :=
  (∀ s : State, Runs 0xF0000000 .kemEncaps s (· = kemEncapsWith Config.collab Config.randStream s)) ∧
  (∀ (c : Collab) (rand : Nat → Option Byte) (s : State),
    (s.latchedLevel = 3 → kemEncapsWith c rand s = s.takeFault .badLevel) ∧
    ∀ lp, levelParams s.latchedLevel = some lp →
      let t := kemEncapsWith c rand s
      (s.latchedDetrng = false → drawBytes rand 32 s.randPos = none → t = s.keepBusy) ∧
      ∀ m, m.length = 32 →
        (if s.latchedDetrng then m = s.readBuf 0x18A0 32 else drawBytes rand 32 s.randPos = some m) →
        let pk := s.readBuf 0x0C60 (384 * lp.k + 32)
        let g := (c.h512 ((c.h256 pk).toList ++ m)).toList
        (pkeEncrypt c s.budget lp pk m (g.drop 32) = none → t = s.keepBusy) ∧
        ∀ ct, pkeEncrypt c s.budget lp pk m (g.drop 32) = some ct →
          let ss := (c.kdf (g.take 32 ++ (c.h256 ct).toList)).toList
          Frame [] [] (fun a => span 0x1280 (32 * (lp.k * lp.du + lp.dv)) a ∨ span 0x1920 32 a ∨
            (s.latchedDetrng = false ∧ span 0x18A0 32 a)) s t ∧
          t.eqFlag = s.eqFlag ∧ t.scratch = [] ∧ t.randPos = s.randPos + (if s.latchedDetrng then 0 else 32) ∧
          t.readBuf 0x1280 (32 * (lp.k * lp.du + lp.dv)) = ct ∧ t.readBuf 0x1920 32 = ss ∧ t.readBuf 0x18A0 32 = m ∧
          kemEncaps c s.budget lp pk m = some (ct, ss)) ∧
  ReservedBitsFault 0x3C 0 26

/-- KEM_DECAPS (R322, R326), for every collaborator. With m' the K-PKE.Decrypt of SK's first part and CT, (K', coins) the
halves of H512(h ‖ m') for the h in SK, and c' the K-PKE.Encrypt of SK's pk, m' and coins: SS takes KDF(K' ‖ H256(CT)) when
c' = CT and KDF(z ‖ H256(CT)) when not. Nothing else changes and no random byte is drawn. While a matrix entry is not sampled
it stays busy (log entry 2). -/
def Obligations.KemDecapsWritesTheSecret : Prop :=
  (∀ s : State, Runs 0xF4000000 .kemDecaps s (· = kemDecapsWith Config.collab s)) ∧
  (∀ (c : Collab) (s : State),
    (s.latchedLevel = 3 → kemDecapsWith c s = s.takeFault .badLevel) ∧
    ∀ lp, levelParams s.latchedLevel = some lp →
      let ct := s.readBuf 0x1280 (32 * (lp.k * lp.du + lp.dv))
      let pk := s.readBuf (384 * lp.k) (384 * lp.k + 32)
      let h := s.readBuf (768 * lp.k + 32) 32
      let z := s.readBuf (768 * lp.k + 64) 32
      let m := pkeDecrypt lp (s.readBuf 0 (384 * lp.k)) ct
      let g := (c.h512 (h ++ m)).toList
      let t := kemDecapsWith c s
      (pkeEncrypt c s.budget lp pk m (g.drop 32) = none → t = s.keepBusy) ∧
      ∀ ct', pkeEncrypt c s.budget lp pk m (g.drop 32) = some ct' →
        let ss := (c.kdf ((if ct' = ct then g.take 32 else z) ++ (c.h256 ct).toList)).toList
        Frame [] [] (span 0x1920 32) s t ∧ t.eqFlag = s.eqFlag ∧ t.randPos = s.randPos ∧ t.scratch = [] ∧
        t.readBuf 0x1920 32 = ss ∧ kemDecaps c s.budget lp (s.readBuf 0 (768 * lp.k + 96)) ct = some ss) ∧
  ReservedBitsFault 0x3D 0 26

/-- R323: the constant-time compare and select compute equality and choice. -/
def Obligations.ConstantTimeCompareAndSelect : Prop :=
  ∀ a b : List Byte, a.length = b.length →
    (ctEqual a b = true ↔ a = b) ∧ ctSelect true a b = a ∧ ctSelect false a b = b

/-- R328: if CPA decryption recovers the message, decapsulation recovers the key; where re-encryption gives another
ciphertext, the key is KDF(z ‖ H256(c)), a value of z and c alone. For every collaborator and every parameter row. -/
def Obligations.DecapsulationRecoversOrRejects : Prop :=
  ∀ (c : Collab) (n : Nat) (lp : LevelParams),
    (∀ d z m pk sk ct k : List Byte, z.length = 32 →
      kemKeyGen c n lp d z = some (pk, sk) → kemEncaps c n lp pk m = some (ct, k) →
      pkeDecrypt lp (sk.take (384 * lp.k)) ct = m → kemDecaps c n lp sk ct = some k) ∧
    (∀ sk ct ct' : List Byte, sk.length = 768 * lp.k + 96 → ct.length = 32 * (lp.k * lp.du + lp.dv) →
      let m := pkeDecrypt lp (sk.take (384 * lp.k)) ct
      let g := (c.h512 ((sk.drop (768 * lp.k + 32)).take 32 ++ m)).toList
      pkeEncrypt c n lp ((sk.drop (384 * lp.k)).take (384 * lp.k + 32)) m (g.drop 32) = some ct' → ct' ≠ ct →
      kemDecaps c n lp sk ct = some (c.kdf (sk.drop (768 * lp.k + 64) ++ (c.h256 ct).toList)).toList)

/-- R327: two runs of KEM_DECAPS that differ only in BUF, so in the key and the ciphertext, and both complete, end in states
that differ only in BUF. Nothing tells the host which accepted. -/
def Obligations.DecapsulationOutcomeIsNotObservable : Prop :=
  ∀ (c : Collab) (s : State) (buf' : Memory), s.Running →
    let t := kemDecapsWith c s
    let t' := kemDecapsWith c { s with buf := buf' }
    t.busy = false → t'.busy = false → { t with buf := [] } = { t' with buf := [] }

/-- R290: a macro command neither reads nor writes F, S, TAG or EQ: with other contents there, it does the same and leaves
those contents. -/
def Obligations.MacrosUseNoRegisterOrSlot : Prop :=
  ∀ i ∈ macroCommands, ∀ (s t : State) (f : Vector Raw 16) (sl : Vector Poly 16) (tg : Vector Tag 16) (e : Bool),
    exec i s = .next t →
      exec i (s.withData f sl tg e) = .next (t.withData f sl tg e) ∧
      t.fregs = s.fregs ∧ t.slots = s.slots ∧ t.tags = s.tags ∧ t.eqFlag = s.eqFlag

/-! ## Control commands (45_control.md) -/

/-- R350, R351: NOP only completes; ZEROIZE clears F, S, TAG, BUF, EQ and the scratch, keeps every control bit, and is counted
in CMDCNT as R351 says (for R37's words on it see log entry 18). -/
def Obligations.NopAndZeroize : Prop :=
  (∀ s : State,
    Runs 0x00000000 .nop s (fun t => Frame [] [] noBytes s t ∧ Quiet s t) ∧
    Runs 0x04000000 .zeroize s (fun t =>
      Frame (List.finRange 16) (List.finRange 16) (fun _ => True) s t ∧
      (∀ i, t.freg i = 0) ∧ (∀ p, t.tag p = .normal ∧ ∀ j, t.slotWord p j = 0) ∧ (∀ a, t.buf.read a = 0) ∧
      t.eqFlag = false ∧ t.scratch = [] ∧ t.randPos = s.randPos)) ∧
  ReservedBitsFault 0x00 0 26 ∧ ReservedBitsFault 0x01 0 26

/-! ## Faults (60_exceptions.md) -/

/-- R370: a command completes and leaves the fault report, or faults with nothing but the report, or, if it may wait for a
stream, stays busy with nothing changed but the model's count (the last case is the model's choice, log entry 2). -/
def Obligations.FaultsArePrecise : Prop :=
  ∀ (i : Instr) (s : State), ∃ t, exec i s = .next t ∧
    (Frame (List.finRange 16) (List.finRange 16) (fun _ => True) s t ∨
      (∃ code, code ≠ .noFault ∧ t = s.takeFault code) ∨
      (t = s.keepBusy ∧ ((∃ rd, i = .frand rd) ∨ (∃ pd x y blk, i = .parse pd x y blk) ∨
        (i ∈ macroCommands ∧ i ≠ .pkeDec))))

/-- R361, R368: what the report of a command fault is, and the cause codes ERRCODE reads. -/
def Obligations.FaultEntryWritesTheReport : Prop :=
  ∀ (s : State) (p : Pending) (code : FaultCode), s.phase = .running p →
    let t := s.takeFault code
    t.err = true ∧ t.errcode = code ∧ t.errcmd = p.cmd ∧ t.done = true ∧ t.busy = false ∧
    t = { s with phase := .idle, done := true, err := true, errcode := t.errcode, errcmd := t.errcmd } ∧
    t.hostRead 0x0014 = p.cmd ∧
    (s.takeFault .illegalOpcode).hostRead 0x0010 = 1 ∧ (s.takeFault .reservedBits).hostRead 0x0010 = 2 ∧
    (s.takeFault .badField).hostRead 0x0010 = 3 ∧ (s.takeFault .badLevel).hostRead 0x0010 = 4 ∧
    (s.takeFault .bufRange).hostRead 0x0010 = 5 ∧ (s.takeFault .domainMismatch).hostRead 0x0010 = 6

/-- R364, R365, R366, R367, R369: which fault a command takes, the first in the order BAD_FIELD, BAD_LEVEL, BUF_RANGE,
DOMAIN_MISMATCH; and none of them otherwise. -/
def Obligations.FaultConditionsAndPriority : Prop :=
  ∀ (i : Instr) (s : State),
    (badFieldOf i → exec i s = .next (s.takeFault .badField)) ∧
    (¬badFieldOf i → i ∈ macroCommands → s.latchedLevel = 3 → exec i s = .next (s.takeFault .badLevel)) ∧
    (¬badFieldOf i → bufRangeOf i → exec i s = .next (s.takeFault .bufRange)) ∧
    (¬badFieldOf i → domainMismatchOf s i → exec i s = .next (s.takeFault .domainMismatch)) ∧
    (¬badFieldOf i → ¬(i ∈ macroCommands ∧ s.latchedLevel = 3) → ¬bufRangeOf i → ¬domainMismatchOf s i →
      ∃ t, exec i s = .next t ∧ t.err = s.err ∧ t.errcode = s.errcode ∧ t.errcmd = s.errcmd)

/-- R378: whether a command faults, and how, depends on the command word, the latched LEVEL and the tags alone. -/
def Obligations.FaultsDependOnNoSecret : Prop :=
  ∀ (i : Instr) (s s' : State) (code : FaultCode), s.Running → s'.Running → s.latchedLevel = s'.latchedLevel →
    (∀ p, s.tag p = s'.tag p) →
    (exec i s = .next (s.takeFault code) ↔ exec i s' = .next (s'.takeFault code))

/-- R371, R372, R373: in the fault state a CMD write changes nothing but CMDREJ; writing 1 to STATUS.ERR leaves it, keeping
ERRCODE and ERRCMD, and then the next CMD write is accepted. -/
def Obligations.FaultStateBlocksCommandsUntilCleared : Prop :=
  ∀ (s : State) (w d : Word), s.err = true →
    s.hostWrite 0x000C w = { s with cmdrej := true } ∧
    (d.getLsbD 2 = true → s.busy = false →
      (s.hostWrite 0x0008 d).err = false ∧ (s.hostWrite 0x0008 d).errcode = s.errcode ∧
      (s.hostWrite 0x0008 d).errcmd = s.errcmd ∧
      ((s.hostWrite 0x0008 d).hostWrite 0x000C w).phase =
        .running { cmd := w, level := s.level, detrng := s.detrng, attempt := 0 }) ∧
    (d.getLsbD 2 = false → (s.hostWrite 0x0008 d).err = true)

/-- R375, R376: the interrupt line, and that a completion, a fault, the clearing writes and the enables move it. -/
def Obligations.InterruptLine : Prop :=
  ∀ (s : State) (d w : Word) (code : FaultCode),
    (s.irq = true ↔ (s.done = true ∧ s.doneIE = true) ∨ (s.err = true ∧ s.errIE = true)) ∧
    (s.doneIE = true → s.complete.irq = true ∧ (s.takeFault code).irq = true) ∧
    (s.errIE = true → (s.takeFault code).irq = true) ∧
    ((s.hostWrite 0x0008 0x00000006).irq = false) ∧
    (s.busy = false → s.err = false → (s.hostWrite 0x000C w).irq = false) ∧
    ((s.hostWrite 0x001C d).irq = ((s.done && d.getLsbD 0) || (s.err && d.getLsbD 1)))

/-! ## Host accesses (10_state.md, 20_memory.md) -/

/-- R34, R37: a CMD write is accepted exactly when BUSY = 0 and ERR = 0; a completion without fault adds 1 to CMDCNT, modulo
2^32, and a fault or a rejected write does not; CMD reads 0. -/
def Obligations.CmdWriteAcceptance : Prop :=
  ∀ (s : State) (w : Word) (code : FaultCode),
    s.hostRead 0x000C = 0 ∧
    (s.busy = false → s.err = false → s.hostWrite 0x000C w =
      { s with phase := .running { cmd := w, level := s.level, detrng := s.detrng, attempt := 0 }, done := false }) ∧
    (s.busy = true ∨ s.err = true → s.hostWrite 0x000C w = { s with cmdrej := true }) ∧
    s.complete.cmdcnt.toNat = (s.cmdcnt.toNat + 1) % 2 ^ 32 ∧ (s.takeFault code).cmdcnt = s.cmdcnt ∧
    s.hostRead 0x0018 = s.cmdcnt ∧ s.hostWrite 0x0018 w = s

/-- R406, R407, R408: while BUSY = 1 a CMD write is lost and sets CMDREJ, reads of the data windows return 0, writes of the
data windows, TAG and CTRL are dropped and set BUSYACC, and no host write at all changes what the command reads (R93). -/
def Obligations.BusyPhaseAccesses : Prop :=
  ∀ (s : State) (d : Word) (i : Fin 16) (j : Fin 256) (n : Fin 2048) (addr : HostAddr), s.busy = true →
    s.hostWrite 0x000C d = { s with cmdrej := true } ∧
    s.hostWrite 0x0004 d = { s with busyacc := true } ∧
    s.hostRead 0x0020 = 0 ∧ s.hostWrite 0x0020 d = { s with busyacc := true } ∧
    s.hostRead (BitVec.ofNat 16 (0x0400 + 4 * i)) = 0 ∧
    s.hostWrite (BitVec.ofNat 16 (0x0400 + 4 * i)) d = { s with busyacc := true } ∧
    s.hostRead (BitVec.ofNat 16 (0x4000 + 1024 * i + 4 * j)) = 0 ∧
    s.hostWrite (BitVec.ofNat 16 (0x4000 + 1024 * i + 4 * j)) d = { s with busyacc := true } ∧
    s.hostRead (BitVec.ofNat 16 (0x8000 + 4 * n)) = 0 ∧
    s.hostWrite (BitVec.ofNat 16 (0x8000 + 4 * n)) d = { s with busyacc := true } ∧
    s.hostWrite addr d = { s with
      done := (s.hostWrite addr d).done, err := (s.hostWrite addr d).err, cmdrej := (s.hostWrite addr d).cmdrej
      busyacc := (s.hostWrite addr d).busyacc, badval := (s.hostWrite addr d).badval
      doneIE := (s.hostWrite addr d).doneIE, errIE := (s.hostWrite addr d).errIE }

/-- R41, R44, R82: host access to a field register or a slot word, whatever the two low address bits: the word read, a
canonical word stored there alone and read back, any other word only reported. The tags stay. -/
def Obligations.HostAccessToRegistersAndSlots : Prop :=
  ∀ (s : State) (i : Fin 16) (j : Fin 256) (low : Fin 4) (d : Word), s.busy = false →
    let a : HostAddr := BitVec.ofNat 16 (0x0400 + 4 * i + low)
    let b : HostAddr := BitVec.ofNat 16 (0x4000 + 1024 * i + 4 * j + low)
    let t := s.hostWrite a d
    let u := s.hostWrite b d
    (s.hostRead a).toNat = (s.freg i).toNat ∧ (s.hostRead b).toNat = (s.slotWord i j).toNat ∧
    (d.extractLsb' 12 20 = 0 ∧ (d.extractLsb' 0 12).toNat < 3329 →
      t.freg i = d.extractLsb' 0 12 ∧ (∀ i', i' ≠ i → t.freg i' = s.freg i') ∧ t = { s with fregs := t.fregs } ∧
      t.hostRead a = d ∧
      u.slotWord i j = d.extractLsb' 0 12 ∧
      (∀ p j', ¬(p = i ∧ j' = j) → u.slotWord p j' = s.slotWord p j') ∧ u = { s with slots := u.slots } ∧
      u.hostRead b = d) ∧
    (¬(d.extractLsb' 12 20 = 0 ∧ (d.extractLsb' 0 12).toNat < 3329) →
      t = { s with badval := true } ∧ u = { s with badval := true })

/-- R85, R82: the BUF window is little-endian, a write changes its four bytes and no other, and a read after it returns the
word written. -/
def Obligations.BufWindowIsLittleEndian : Prop :=
  ∀ (s : State) (n : Fin 2048) (low : Fin 4) (d : Word), s.busy = false →
    let a : HostAddr := BitVec.ofNat 16 (0x8000 + 4 * n + low)
    let t := s.hostWrite a d
    (s.hostRead a).toNat = (s.buf.read (4 * n)).toNat + 256 * (s.buf.read (4 * n + 1)).toNat
      + 65536 * (s.buf.read (4 * n + 2)).toNat + 16777216 * (s.buf.read (4 * n + 3)).toNat ∧
    (∀ b : Fin 4, t.buf.read (4 * n + b) = d.extractLsb' (8 * b) 8) ∧
    (∀ c, ¬span (4 * n) 4 c → t.buf.read c = s.buf.read c) ∧
    t = { s with buf := t.buf } ∧ t.hostRead a = d

/-- R84, R31, R35: unmapped addresses and the read-only registers: reads and ignored writes. -/
def Obligations.UnmappedAndReadOnlyAccesses : Prop :=
  ∀ (s : State) (a : HostAddr) (d : Word),
    ((0x0024 ≤ a.toNat ∧ a.toNat < 0x0400) ∨ (0x0440 ≤ a.toNat ∧ a.toNat < 0x4000) ∨ 0xA000 ≤ a.toNat →
      s.hostRead a = 0 ∧ s.hostWrite a d = s) ∧
    s.hostRead 0x0000 = 0x4D4B0001 ∧ s.hostWrite 0x0000 d = s ∧
    s.hostRead 0x0010 = s.errcode.code.setWidth 32 ∧ s.hostWrite 0x0010 d = s ∧
    s.hostRead 0x0014 = s.errcmd ∧ s.hostWrite 0x0014 d = s

/-- R32, R33, R38, R43: CTRL, IRQEN and TAG read back what was written, in their fields alone; the bits STATUS reads, and
that a STATUS write clears the W1C bits it names and changes nothing else. -/
def Obligations.ControlAndStatusRegisters : Prop :=
  ∀ (s : State) (d : Word),
    (s.busy = false → (s.hostWrite 0x0004 d).hostRead 0x0004 = d &&& 0x00000007 ∧
      s.hostWrite 0x0004 d = { s with level := d.extractLsb' 0 2, detrng := d.getLsbD 2 }) ∧
    ((s.hostWrite 0x001C d).hostRead 0x001C = d &&& 0x00000003 ∧
      s.hostWrite 0x001C d = { s with doneIE := d.getLsbD 0, errIE := d.getLsbD 1 }) ∧
    (s.busy = false → (s.hostWrite 0x0020 d).hostRead 0x0020 = d &&& 0x0000FFFF ∧
      (∀ p, (s.hostWrite 0x0020 d).tag p = if d.getLsbD p then .ntt else .normal) ∧
      s.hostWrite 0x0020 d = { s with tags := (s.hostWrite 0x0020 d).tags }) ∧
    (let status := s.hostRead 0x0008
     status.getLsbD 0 = s.busy ∧ status.getLsbD 1 = s.done ∧ status.getLsbD 2 = s.err ∧ status.getLsbD 3 = s.eqFlag ∧
     status.getLsbD 4 = s.cmdrej ∧ status.getLsbD 5 = s.busyacc ∧ status.getLsbD 6 = s.badval ∧
     ∀ n, 7 ≤ n → status.getLsbD n = false) ∧
    s.hostWrite 0x0008 d = { s with
      done := s.done && !d.getLsbD 1
      err := s.err && !d.getLsbD 2
      cmdrej := s.cmdrej && !d.getLsbD 4
      busyacc := s.busyacc && !d.getLsbD 5
      badval := s.badval && !d.getLsbD 6 }

/-- R81, R82, R83: a host access moves one whole word, whatever the byte enables; the two low address bits do not matter; a
read changes nothing but the word the host got. The address is the block's own plus the platform's base. -/
def Obligations.BusAccessesMoveWholeWords : Prop :=
  ∀ (s : State) (rest : List HostEvent) (a : HostAddr) (be : BitVec 4) (d : Word),
    (s.script = .read (Config.baseAddr + a.toNat) :: rest →
      step s = .next { s with script := rest, rdata := s.hostRead a }) ∧
    (s.script = .write (Config.baseAddr + a.toNat) be d :: rest →
      step s = .next (State.hostWrite { s with script := rest } a d)) ∧
    s.hostRead a = s.hostRead (a &&& 0xFFFC) ∧ s.hostWrite a d = s.hostWrite (a &&& 0xFFFC) d

/-- R93: the accept step and the completion step: an accepted CMD write and then the unit's step run the word at the state
the accept step left. -/
def Obligations.AcceptThenCompletion : Prop :=
  ∀ (s : State) (rest : List HostEvent) (be : BitVec 4) (w : Word), s.busy = false → s.err = false →
    s.script = .write (Config.baseAddr + 0x000C) be w :: .wait :: rest →
    Sys2Proof.core.run 2 s = runWord w { s with
      phase := .running { cmd := w, level := s.level, detrng := s.detrng, attempt := 0 }, done := false, script := rest }

/-! ## Reset and the invariant -/

/-- R54: the reset value of every piece of state, BUSY 1 and then 0; the raw words 0 are the value 0 for every radix. -/
def Obligations.ResetValues : Prop :=
  let s := State.reset
  s.hostRead 0x0000 = 0x4D4B0001 ∧ s.level = 0 ∧ s.detrng = false ∧ s.busy = true ∧ s.phase = .initialising ∧
  s.done = false ∧ s.err = false ∧ s.eqFlag = false ∧ s.cmdrej = false ∧ s.busyacc = false ∧ s.badval = false ∧
  s.errcode.code = 0 ∧ s.errcmd = 0 ∧ s.cmdcnt = 0 ∧ s.doneIE = false ∧ s.errIE = false ∧
  (∀ p, s.tag p = .normal) ∧ (∀ i, s.freg i = 0) ∧ (∀ p j, s.slotWord p j = 0) ∧ (∀ a, s.buf.read a = 0) ∧
  s.scratch = [] ∧ s.irq = false ∧
  (∀ (R : Radix) i, s.fval i R = 0) ∧ (∀ (R : Radix) p j, val (s.slotWord p j) R = 0) ∧
  step s = .next { s with phase := .idle }

/-- R400, R401, R402, R53, R329: the reset input takes any state to the reset state with BUSY = 1, abandoning a running
command; the unit's next step then only sets BUSY to 0. The random source is not reset: it has supplied what the abandoned
command drew, which is nothing unless the command draws, at most 64 bytes for KEM_KEYGEN and 32 for KEM_ENCAPS, for FRAND at
most the bytes up to its first value below q, and never a byte past a stall. How many of those draws had happened is a free
value (log entry 9). -/
def Obligations.ResetFromEveryState : Prop :=
  ∀ (s : State) (rest : List HostEvent), s.script = .reset :: rest →
    step s = .next (State.resetBlock { s with script := rest }) ∧
    ∀ rand : Nat → Option Byte,
      let t := State.resetBlock { s with script := rest } rand
      t = { State.reset with script := rest, rdata := s.rdata, randPos := t.randPos, freeDraws := t.freeDraws } ∧
      t.busy = true ∧
      (rest = [] → step t = .next { t with phase := .idle }) ∧
      (∀ rest', rest = .wait :: rest' → step t = .next { t with script := rest', phase := .idle }) ∧
      s.randPos ≤ t.randPos ∧ (∀ n, s.randPos ≤ n → n < t.randPos → (rand n).isSome = true) ∧
      ((∀ p, s.phase = .running p → ¬mayDraw p) → t.randPos = s.randPos) ∧
      (∀ p, s.phase = .running p →
        (decode p.cmd = .command .kemKeygen → t.randPos ≤ s.randPos + 64) ∧
        (decode p.cmd = .command .kemEncaps → t.randPos ≤ s.randPos + 32) ∧
        ∀ rd k c, decode p.cmd = .command (.frand rd) →
          (∀ j < k, ∃ c', pairAt rand (s.randPos + 2 * j) c' ∧ 3329 ≤ c') → pairAt rand (s.randPos + 2 * k) c → c < 3329 →
          t.randPos ≤ s.randPos + 2 * k + 2)

/-- The reset state meets the invariant. -/
def Obligations.ResetMeetsTheInvariant : Prop := State.reset.Inv

/-- No step stops, and every step keeps the invariant: words below q, BUF canonical, the scratch zero between commands, DONE
and ERR clear while busy, the latch equal to CTRL, and a cause with every ERR. -/
def Obligations.StepKeepsTheInvariant : Prop :=
  (∀ s : State, ∃ t, step s = .next t) ∧ ∀ s t : State, s.Inv → step s = .next t → t.Inv
end

