-- ==== Sys2Proof/Laws/Arith.lean ====
section
/-!
SUPPORT. The Montgomery form and modular arithmetic: what `val`, `mont` and the operations on values give, as facts of
natural numbers and integers that omega can use.
-/

namespace Sys2Proof.Machine

theorem val_lt (w : Raw) (R : Radix := Config.radix) : val w R < 3329 := Nat.mod_lt _ (by decide)

/-- The word of a value, as a number (R18). -/
theorem mont_toNat_radix (a : Nat) (R : Radix) : (mont a R).toNat = a * R.r % 3329 := by
  simp only [mont, montFor, BitVec.toNat_ofNat]
  exact Nat.mod_eq_of_lt (lt_trans (Nat.mod_lt _ (by decide)) (by decide))

theorem mont_canonical (a : Nat) (R : Radix := Config.radix) : (mont a R).toNat < 3329 := by
  rw [mont_toNat_radix]; exact Nat.mod_lt _ (by decide)

/-- Multiplying by the radix and then by its inverse changes nothing modulo q. -/
theorem radix_cancel (x : Nat) (R : Radix) : x * R.r % 3329 * R.rInv % 3329 = x % 3329 ∧
    x * R.rInv % 3329 * R.r % 3329 = x % 3329 := by
  have h : R.r * R.rInv % 3329 = 1 % 3329 := R.inv
  constructor
  · rw [Nat.mod_mul_mod, Nat.mul_assoc, ← Nat.mul_mod_mod, h, Nat.mul_mod_mod, Nat.mul_one]
  · rw [Nat.mod_mul_mod, Nat.mul_assoc, Nat.mul_comm R.rInv, ← Nat.mul_mod_mod, h, Nat.mul_mod_mod, Nat.mul_one]

/-- The value of the word of a is a mod q, under every radix (R18). -/
theorem val_mont_mod (a : Nat) (R : Radix := Config.radix) : val (mont a R) R = a % 3329 := by
  rw [val, valFor, mont_toNat_radix]; exact (radix_cancel a R).1

/-- The value of the word of a value is that value (R18). -/
theorem val_mont {a : Nat} (h : a < 3329) (R : Radix := Config.radix) : val (mont a R) R = a := by
  rw [val_mont_mod a R, Nat.mod_eq_of_lt h]

/-- The word of the value of a canonical word is that word (R18). -/
theorem mont_val {w : Raw} (h : w.toNat < 3329) (R : Radix := Config.radix) : mont (val w R) R = w := by
  apply BitVec.eq_of_toNat_eq
  rw [mont_toNat_radix, val, valFor, (radix_cancel _ R).2, Nat.mod_eq_of_lt h]

/-- The word of a depends on a mod q alone. -/
theorem mont_mod (a : Nat) (R : Radix := Config.radix) : mont (a % 3329) R = mont a R := by
  apply BitVec.eq_of_toNat_eq
  rw [mont_toNat_radix, mont_toNat_radix, Nat.mod_mul_mod]

/-! At this hardware's radix, in numbers (R40). -/

theorem val_def (w : Raw) : val w = w.toNat * 169 % 3329 := rfl

theorem mont_toNat (a : Nat) : (mont a).toNat = a * 65536 % 3329 := mont_toNat_radix a Config.radix

theorem addMod_lt (a b : Nat) : addMod a b < 3329 := Nat.mod_lt _ (by decide)
theorem subMod_lt (a b : Nat) : subMod a b < 3329 := Nat.mod_lt _ (by decide)
theorem mulMod_lt (a b : Nat) : mulMod a b < 3329 := Nat.mod_lt _ (by decide)
theorem powMod_lt (a e : Nat) : powMod a e < 3329 := Nat.mod_lt _ (by decide)

theorem addMod_eq (a b : Nat) : addMod a b = (a + b) % 3329 := rfl

/-- A difference modulo q is the residue of the integer difference (R15). -/
theorem subMod_int (a b : Nat) : (subMod a b : Int) = ((a : Int) - b) % 3329 := by
  simp only [subMod, q]; omega

theorem zeta_lt (i : Nat) : zeta i < 3329 := Nat.mod_lt _ (by decide)
theorem gamma_lt (i : Nat) : gamma i < 3329 := Nat.mod_lt _ (by decide)

theorem compress_lt (d x : Nat) : compress d x < 2 ^ d := Nat.mod_lt _ (Nat.two_pow_pos d)

theorem bitSum_lt (n : Nat) (b : Nat → Bool) : bitSum n b < 2 ^ n := by
  induction n with
  | zero => simp [bitSum]
  | succ n ih => cases h : b n <;> simp [bitSum, h, Nat.pow_succ] <;> omega

/-- Bit i of a bit sum is the i-th bit summed. -/
theorem bitSum_testBit (n : Nat) (b : Nat → Bool) (i : Nat) : (bitSum n b).testBit i = (decide (i < n) && b i) := by
  induction n with
  | zero => simp [bitSum]
  | succ n ih =>
    have hlt := bitSum_lt n b
    rw [bitSum, Nat.add_comm, Nat.mul_comm, Nat.testBit_two_pow_mul_add _ hlt]
    by_cases h : i < n
    · simp [h, ih, Nat.lt_succ_of_lt h]
    · by_cases h2 : i = n
      · subst h2; cases b i <;> simp
      · have h3 : ¬i < n + 1 := by omega
        obtain ⟨m, hm⟩ : ∃ m, i - n = m + 1 := ⟨i - n - 1, by omega⟩
        cases b n <;> simp [h, h3, hm, Nat.testBit_succ]

/-! ## Coefficients -/

theorem Coeffs.build_at (f : Nat → Nat) (j : Nat) : (Coeffs.build f).at j = if j < 256 then f j else 0 := by
  unfold Coeffs.build Coeffs.at tabulate
  split
  · rename_i h; simp [List.getD_eq_getElem?_getD, h]
  · rename_i h; simp [List.getD_eq_getElem?_getD, h]

theorem Coeffs.build_at_lt (f : Nat → Nat) {j : Nat} (h : j < 256) : (Coeffs.build f).at j = f j := by
  rw [Coeffs.build_at, if_pos h]

theorem Coeffs.at_eq_getElem (f : Coeffs) {j : Nat} (h : j < 256) : f.at j = f[j] := by
  simp [Coeffs.at, List.getD_eq_getElem?_getD, h]

/-- Polynomials with the same 256 values are the same. -/
theorem Coeffs.ext_at {f g : Coeffs} (h : ∀ j, j < 256 → f.at j = g.at j) : f = g := by
  apply Vector.ext
  intro j hj
  have := h j hj
  rwa [Coeffs.at_eq_getElem f hj, Coeffs.at_eq_getElem g hj] at this

theorem polyVals_at (p : Poly) {j : Nat} (h : j < 256) (R : Radix := Config.radix) :
    (polyVals p R).at j = val p[j] R := by
  rw [polyVals, Coeffs.build_at_lt _ h]
  simp [List.getD_eq_getElem?_getD, h]

theorem polyMont_getElem (f : Coeffs) {j : Nat} (h : j < 256) (R : Radix := Config.radix) :
    (polyMont f R)[j] = mont (f.at j) R := by
  simp [polyMont, tabulate]

theorem polyVals_polyMont_at (f : Coeffs) (j : Nat) (h : j < 256) : (polyVals (polyMont f)).at j = f.at j % 3329 := by
  rw [polyVals_at _ h, polyMont_getElem f h, val_mont_mod]

/-- The values of the words of a polynomial whose values are below q are those values (R18, R200). -/
theorem polyVals_polyMont {f : Coeffs} (h : ∀ j, f.at j < 3329) : polyVals (polyMont f) = f :=
  Coeffs.ext_at fun j hj => by rw [polyVals_polyMont_at f j hj, Nat.mod_eq_of_lt (h j)]

end Sys2Proof.Machine
end

