-- ==== Sys2Proof/Laws/Codec.lean ====
section
/-!
SUPPORT. The packers and samplers: lengths, bits in and out of bytes, the values a decoder gives, and what the two bounded
loops over a stream answer.
-/

namespace Sys2Proof.Machine

/-! ## Bits and bytes -/

@[simp] theorem bitsToBytes_length (len : Nat) (b : Nat → Bool) : (bitsToBytes len b).length = len := by
  simp [bitsToBytes]

@[simp] theorem byteEncode_length (d : Nat) (f : Coeffs) : (byteEncode d f).length = 32 * d := bitsToBytes_length _ _

/-- A byte packed from bits has those bits. -/
theorem bitsToBytes_getD (len : Nat) (b : Nat → Bool) (m t : Nat) (hm : m < len) (ht : t < 8) :
    ((bitsToBytes len b).getD m 0).getLsbD t = b (8 * m + t) := by
  have h8 := bitSum_lt 8 fun t => b (8 * m + t)
  simp only [bitsToBytes, List.getD_eq_getElem?_getD, List.getElem?_map, List.getElem?_range hm, Option.map_some,
    Option.getD_some, Byte.ofNat, BitVec.getLsbD, BitVec.toNat_ofNat]
  rw [Nat.mod_eq_of_lt h8, bitSum_testBit]
  simp [ht]

/-- BytesToBits undoes BitsToBytes (R260). -/
theorem bytesToBits_bitsToBytes (len : Nat) (b : Nat → Bool) (i : Nat) (h : i < 8 * len) :
    bytesToBits (bitsToBytes len b) i = b i := by
  rw [bytesToBits, bitsToBytes_getD _ _ _ _ (by omega) (by omega)]
  congr 1; omega

theorem bitSum_congr {n : Nat} {b b' : Nat → Bool} (h : ∀ t < n, b t = b' t) : bitSum n b = bitSum n b' := by
  induction n with
  | zero => rfl
  | succ n ih => simp [bitSum, ih fun t ht => h t (by omega), h n (by omega)]

/-- Summing the bits of a number below 2^n gives the number. -/
theorem bitSum_testBit_self (n v : Nat) (h : v < 2 ^ n) : bitSum n v.testBit = v := by
  apply Nat.eq_of_testBit_eq
  intro i
  rw [bitSum_testBit]
  by_cases hi : i < n
  · simp [hi]
  · simp [hi, Nat.testBit_eq_false_of_lt (lt_of_lt_of_le h (Nat.pow_le_pow_right (by decide) (by omega : n ≤ i)))]

/-- Byte strings of one length with the same bits are the same. -/
theorem bytes_ext {as bs : List Byte} (hl : as.length = bs.length)
    (h : ∀ i < 8 * as.length, bytesToBits as i = bytesToBits bs i) : as = bs := by
  apply List.ext_getElem hl
  intro m h1 h2
  apply BitVec.eq_of_getLsbD_eq
  intro t ht
  have := h (8 * m + t) (by omega)
  simpa [bytesToBits, show (8 * m + t) / 8 = m by omega, show (8 * m + t) % 8 = t by omega, h1, h2] using this

/-- Bit n of an encoded polynomial (R262). -/
theorem bytesToBits_byteEncode (d : Nat) (f : Coeffs) (n : Nat) (h : n < 256 * d) :
    bytesToBits (byteEncode d f) n = (f.at (n / d)).testBit (n % d) := bytesToBits_bitsToBytes _ _ _ (by omega)

theorem byteDecode_at (d : Nat) (bs : List Byte) {i : Nat} (h : i < 256) :
    (byteDecode d bs).at i =
      if d = 12 then bitSum d (fun t => bytesToBits bs (i * d + t)) % q
      else bitSum d fun t => bytesToBits bs (i * d + t) := Coeffs.build_at_lt _ h

@[simp] theorem prf_length (c : Collab) (eta : Nat) (s : List Byte) (n : Byte) : (prf c eta s n).length = 64 * eta := by
  simp [prf]

/-! ## Values of polynomials -/

theorem Coeffs.mapEach_at (h : Nat → Nat) (f : Coeffs) {j : Nat} (hj : j < 256) : (f.mapEach h).at j = h (f.at j) :=
  Coeffs.build_at_lt _ hj

theorem Coeffs.add_at (f g : Coeffs) {j : Nat} (hj : j < 256) : (f.add g).at j = (f.at j + g.at j) % 3329 :=
  Coeffs.build_at_lt _ hj

theorem Coeffs.sub_at (f g : Coeffs) {j : Nat} (hj : j < 256) : (f.sub g).at j = subMod (f.at j) (g.at j) :=
  Coeffs.build_at_lt _ hj

theorem Coeffs.scale_at (c : Nat) (f : Coeffs) {j : Nat} (hj : j < 256) : (f.scale c).at j = c * f.at j % 3329 :=
  Coeffs.build_at_lt _ hj

theorem Coeffs.build_lt {f : Nat → Nat} (h : ∀ j, f j < 3329) (j : Nat) : (Coeffs.build f).at j < 3329 := by
  rw [Coeffs.build_at]; split
  · exact h j
  · decide

theorem nttLayer_lt (g : Coeffs) (len j : Nat) : (nttLayer g len).at j < 3329 := by
  apply Coeffs.build_lt; intro j; dsimp only; split
  · exact addMod_lt _ _
  · exact subMod_lt _ _

theorem ntt_lt (f : Coeffs) (j : Nat) : (ntt f).at j < 3329 := nttLayer_lt _ _ _

theorem nttInv_lt (g : Coeffs) (j : Nat) : (nttInv g).at j < 3329 := Coeffs.build_lt (fun _ => mulMod_lt _ _) j

theorem baseMul_lt (a b : Coeffs) (j : Nat) : (baseMul a b).at j < 3329 := by
  apply Coeffs.build_lt; intro j; dsimp only; split <;> exact Nat.mod_lt _ (by decide)

theorem samplePolyCBD_lt (eta : Nat) (bs : List Byte) (j : Nat) : (samplePolyCBD eta bs).at j < 3329 :=
  Coeffs.build_lt (fun _ => subMod_lt _ _) j

/-! ## The loop of SampleNTT -/

/-- The candidates below q that a number of groups from position p gives, in order. -/
def candidatesFrom (stream : Nat → Byte) : Nat → Nat → List Nat
  | 0, _ => []
  | n + 1, p =>
    ([candidate1 (stream p) (stream (p + 1)), candidate2 (stream (p + 1)) (stream (p + 2))].filter (· < q))
      ++ candidatesFrom stream n (p + 3)

theorem keepCandidate_append (a : List Nat) (c : Nat) :
    keepCandidate a c = (a ++ [c].filter (· < q)).take (max 256 a.length) := by
  unfold keepCandidate
  by_cases hc : c < q
  · by_cases hl : a.length < 256
    · simp only [hc, hl, and_self, if_true, List.filter_cons_of_pos, decide_true, List.filter_nil]
      rw [List.take_of_length_le (by simp; omega)]
    · simp only [hl, and_false, if_false]
      rw [Nat.max_eq_right (by omega), List.take_append_of_le_length (Nat.le_refl _), List.take_length]
  · rw [if_neg (fun h => hc h.1)]
    simp only [List.filter_cons, decide_eq_true_eq, hc, if_false, List.filter_nil, List.append_nil]
    rw [List.take_of_length_le (by omega)]

theorem keepCandidate_of_le {a : List Nat} (h : a.length ≤ 256) (c : Nat) :
    keepCandidate a c = (a ++ [c].filter (· < q)).take 256 := by
  rw [keepCandidate_append, Nat.max_eq_left h]

theorem keepCandidate_length {a : List Nat} (h : a.length ≤ 256) (c : Nat) : (keepCandidate a c).length ≤ 256 := by
  rw [keepCandidate_of_le h, List.length_take]; exact Nat.min_le_left _ _

theorem take_append_after_take (n : Nat) (l r : List Nat) : (l.take n ++ r).take n = (l ++ r).take n := by
  rw [List.take_append, List.take_append, List.take_take, Nat.min_self, List.length_take]
  congr 2; omega

theorem length_append_after_take (n : Nat) (l r : List Nat) : n ≤ (l.take n ++ r).length ↔ n ≤ (l ++ r).length := by
  simp only [List.length_append, List.length_take]; omega

/-- The loop of R250 keeps the first 256 of the coefficients it has and of the candidates below q, when there are so
many; else it has not ended. -/
theorem sampleLoop_eq (stream : Nat → Byte) (n p : Nat) (a : List Nat) (ha : a.length ≤ 256) :
    sampleLoop stream n p a =
      if 256 ≤ (a ++ candidatesFrom stream n p).length then some ((a ++ candidatesFrom stream n p).take 256)
      else none := by
  induction n generalizing p a with
  | zero =>
    simp only [sampleLoop, candidatesFrom, List.append_nil]
    split
    · rw [List.take_of_length_le ha]
    · rfl
  | succ n ih =>
    rw [sampleLoop]
    split
    · rename_i h
      have hl : a.length = 256 := by omega
      rw [if_pos (by rw [List.length_append]; omega), List.take_append_of_le_length (by omega), ← hl, List.take_length]
    · have h1 := keepCandidate_length ha (candidate1 (stream p) (stream (p + 1)))
      have hpair : ∀ x y : Nat, [x, y].filter (· < q) = [x].filter (· < q) ++ [y].filter (· < q) :=
        fun x y => List.filter_append (p := (· < q)) [x] [y]
      rw [ih _ _ (keepCandidate_length h1 _), keepCandidate_of_le h1, keepCandidate_of_le ha, candidatesFrom, hpair]
      simp only [take_append_after_take, length_append_after_take, List.append_assoc]

theorem candidatesFrom_lt (stream : Nat → Byte) (n p : Nat) : ∀ c ∈ candidatesFrom stream n p, c < 3329 := by
  induction n generalizing p with
  | zero => simp [candidatesFrom]
  | succ n ih =>
    intro c hc
    rw [candidatesFrom, List.mem_append] at hc
    rcases hc with hc | hc
    · exact of_decide_eq_true (List.mem_filter.1 hc).2
    · exact ih _ c hc

/-- More groups never give fewer candidates. -/
theorem candidatesFrom_append (stream : Nat → Byte) (m n p : Nat) :
    candidatesFrom stream (m + n) p = candidatesFrom stream m p ++ candidatesFrom stream n (p + 3 * m) := by
  induction m generalizing p with
  | zero => simp [candidatesFrom]
  | succ m ih =>
    rw [show m + 1 + n = m + n + 1 by omega, candidatesFrom, ih, candidatesFrom, List.append_assoc,
      show p + 3 + 3 * m = p + 3 * (m + 1) by omega]

/-- SampleNTT within n groups: the first 256 candidates, or nothing while there are fewer. -/
theorem sampleNTT_eq (stream : Nat → Byte) (n : Nat) :
    sampleNTT stream n =
      if 256 ≤ (candidatesFrom stream n 0).length then
        some (Coeffs.ofList ((candidatesFrom stream n 0).take 256))
      else none := by
  rw [sampleNTT, sampleLoop_eq _ _ _ _ (by simp)]
  simp only [List.nil_append]
  split <;> rfl

theorem Coeffs.ofList_at (l : List Nat) {j : Nat} (h : j < 256) : (Coeffs.ofList l).at j = l.getD j 0 :=
  Coeffs.build_at_lt _ h

theorem Coeffs.ofList_lt {l : List Nat} (h : ∀ c ∈ l, c < 3329) (j : Nat) : (Coeffs.ofList l).at j < 3329 := by
  apply Coeffs.build_lt
  intro j
  rw [List.getD_eq_getElem?_getD]
  cases hj : l[j]? with
  | none => simp
  | some c => exact h c (List.mem_of_getElem? hj)

/-- What SampleNTT answers has every value below q. -/
theorem sampleNTT_lt {stream : Nat → Byte} {n : Nat} {f : Coeffs} (h : sampleNTT stream n = some f) (j : Nat) :
    f.at j < 3329 := by
  rw [sampleNTT_eq] at h
  split at h
  · rw [← Option.some.inj h]
    exact Coeffs.ofList_lt (fun c hc => candidatesFrom_lt stream n 0 c (List.mem_of_mem_take hc)) j
  · cases h

/-! ## The random source -/

/-- What FRAND's loop answers: a value below q at a later even distance (R164). -/
theorem randLoop_some {rand : Nat → Option Byte} {n p c p' : Nat} (h : randLoop rand n p = some (c, p')) :
    c < 3329 ∧ ∃ k < n, p' = p + 2 * k + 2 := by
  induction n generalizing p with
  | zero => simp [randLoop] at h
  | succ n ih =>
    simp only [randLoop] at h
    split at h
    · split at h
      · rename_i hc
        simp only [Option.some.injEq, Prod.mk.injEq] at h
        exact ⟨h.1 ▸ hc, 0, by omega, by omega⟩
      · obtain ⟨h1, k, hk, h2⟩ := ih h
        exact ⟨h1, k + 1, by omega, by omega⟩
    · cases h

theorem drawBytes_length {rand : Nat → Option Byte} {n p : Nat} {bs : List Byte} (h : drawBytes rand n p = some bs) :
    bs.length = n := by
  induction n generalizing p bs with
  | zero => simp only [drawBytes, Option.some.injEq] at h; subst h; rfl
  | succ n ih =>
    simp only [drawBytes] at h
    split at h
    · rename_i hbs
      simp only [Option.some.injEq] at h
      subst h
      simp [ih hbs]
    · cases h

/-- Byte i of a draw is the source's i-th byte from there (R329). -/
theorem drawBytes_getD {rand : Nat → Option Byte} {n p : Nat} {bs : List Byte} (h : drawBytes rand n p = some bs) :
    ∀ i < n, rand (p + i) = some (bs.getD i 0) := by
  induction n generalizing p bs with
  | zero => intro i hi; omega
  | succ n ih =>
    simp only [drawBytes] at h
    split at h
    · rename_i b bs' hb hbs
      simp only [Option.some.injEq] at h
      subst h
      intro i hi
      cases i with
      | zero => simpa using hb
      | succ i =>
        rw [show p + (i + 1) = p + 1 + i by omega]
        simpa using ih hbs i (by omega)
    · cases h

/-! ## Draws a reset abandons -/

theorem suppliedBytes_le (rand : Nat → Option Byte) (n p : Nat) : suppliedBytes rand n p ≤ n := by
  induction n generalizing p with
  | zero => exact Nat.le_refl _
  | succ n ih =>
    have := ih (p + 1)
    rw [suppliedBytes]; split <;> omega

/-- Every byte counted as supplied is one the source supplies (R411). -/
theorem suppliedBytes_supplied {rand : Nat → Option Byte} {n p m : Nat} (hp : p ≤ m)
    (hm : m < p + suppliedBytes rand n p) : (rand m).isSome = true := by
  induction n generalizing p with
  | zero => rw [suppliedBytes] at hm; omega
  | succ n ih =>
    rw [suppliedBytes] at hm
    split at hm
    · next h =>
      by_cases he : m = p
      · rw [he]; exact h
      · exact ih (p := p + 1) (by omega) (by omega)
    · omega

/-- Every byte FRAND can have taken is one the source supplies (R411). -/
theorem frandDraws_supplied {rand : Nat → Option Byte} (n : Nat) {p m : Nat} (hp : p ≤ m)
    (hm : m < p + frandDraws rand n p) : (rand m).isSome = true := by
  induction n using Nat.strongRecOn generalizing p with
  | _ n ih =>
    match n with
    | 0 => rw [frandDraws] at hm; omega
    | 1 => exact suppliedBytes_supplied hp hm
    | n + 2 =>
      rw [frandDraws] at hm
      split at hm
      · next h0 h1 =>
        by_cases e0 : m = p
        · rw [e0, h0]; rfl
        · by_cases e1 : m = p + 1
          · rw [e1, h1]; rfl
          · split at hm
            · omega
            · exact ih n (by omega) (p := p + 2) (by omega) (by omega)
      · exact suppliedBytes_supplied hp hm

end Sys2Proof.Machine
end

