-- ==== Sys2Proof/Laws/Decode.lean ====
section
/-!
SUPPORT. Fields and reserved bits of a command word: a mask test as a test of bit ranges, and the fields of a packed word.
-/

namespace Sys2Proof

theorem and_eq_zero_iff (w m : Word) : w &&& m = 0 ↔ ∀ i, i < 32 → m.getLsbD i = true → w.getLsbD i = false := by
  constructor
  · intro h i _ hm
    have := congrArg (BitVec.getLsbD · i) h
    simpa [hm] using this
  · intro h
    apply BitVec.eq_of_getLsbD_eq
    intro i hi
    cases hm : m.getLsbD i with
    | false => simp [hm]
    | true => simp [hm, h i hi hm]

theorem field_testBit (w : Word) (lo len i : Nat) :
    (field w lo len).testBit i = (decide (i < len) && w.getLsbD (lo + i)) := by
  simp [field, Nat.testBit_mod_two_pow, Nat.testBit_div_two_pow, BitVec.getLsbD, Nat.add_comm]

theorem field_eq_zero_iff (w : Word) (lo len : Nat) :
    field w lo len = 0 ↔ ∀ i, lo ≤ i → i < lo + len → w.getLsbD i = false := by
  constructor
  · intro h i h1 h2
    have := field_testBit w lo len (i - lo)
    rw [h] at this
    simpa [show i - lo < len by omega, show lo + (i - lo) = i by omega] using this.symm
  · intro h
    apply Nat.eq_of_testBit_eq
    intro i
    rw [field_testBit]
    by_cases hi : i < len
    · simp [h (lo + i) (by omega) (by omega)]
    · simp [hi]

/-- The reserved bits of each format as ranges (lowest bit, length): the columns of R112 that are 0. -/
def Format.reserved : Format → List (Nat × Nat)
  | .n   => [(0, 26)]
  | .r3  => [(0, 14)]
  | .r2  => [(0, 18)]
  | .rc  => [(0, 14), (22, 4)]
  | .r1  => [(0, 22)]
  | .i12 => [(12, 6)]
  | .li  => [(12, 10)]
  | .qz  => [(0, 14)]
  | .bf  => [(0, 14)]
  | .m   => [(8, 10)]
  | .ms  => [(8, 10)]
  | .p3  => [(0, 14)]
  | .p2  => [(0, 18)]
  | .pf  => [(0, 14)]
  | .pq  => [(0, 14)]
  | .pt  => [(0, 13), (14, 8)]
  | .sp  => [(8, 10)]
  | .sc  => [(8, 4)]
  | .se  => [(8, 10)]
  | .sd  => [(8, 5), (14, 4)]

/-- Each zero mask of R112 covers the bits of its reserved columns and no other. -/
theorem zeroMask_bits (f : Format) :
    ∀ i, i < 32 → (f.zeroMask.getLsbD i = true ↔ ∃ r ∈ f.reserved, r.1 ≤ i ∧ i < r.1 + r.2) := by
  cases f <;> decide

theorem reserved_inside (f : Format) : ∀ r ∈ f.reserved, r.1 + r.2 ≤ 32 := by
  cases f <;> decide

/-- No bit under the zero mask is 1 exactly when every reserved column is 0. -/
theorem maskClear_iff (f : Format) (w : Word) : w &&& f.zeroMask = 0 ↔ ∀ r ∈ f.reserved, field w r.1 r.2 = 0 := by
  rw [and_eq_zero_iff]
  constructor
  · intro h r hr
    rw [field_eq_zero_iff]
    intro i h1 h2
    have hi : i < 32 := by have := reserved_inside f r hr; omega
    exact h i hi ((zeroMask_bits f i hi).2 ⟨r, hr, h1, h2⟩)
  · intro h i hi hm
    obtain ⟨r, hr, h1, h2⟩ := (zeroMask_bits f i hi).1 hm
    exact (field_eq_zero_iff w r.1 r.2).1 (h r hr) i h1 h2

/-- The number a packed word is, when every field fits. -/
theorem packWord_toNat {op a b c l : Nat} (ho : op < 64)
    (h : a * 2 ^ 22 + b * 2 ^ 18 + c * 2 ^ 14 + l < 2 ^ 26) :
    (packWord op a b c l).toNat = op * 2 ^ 26 + a * 2 ^ 22 + b * 2 ^ 18 + c * 2 ^ 14 + l := by
  have hlt : op * 2 ^ 26 + a * 2 ^ 22 + b * 2 ^ 18 + c * 2 ^ 14 + l < 2 ^ 32 := by
    have := Nat.le_of_lt_succ ho
    norm_num at h ⊢
    linarith
  simp only [packWord, BitVec.toNat_ofNat]
  exact Nat.mod_eq_of_lt hlt

/-- A word is the sum of its five fields (R111). -/
theorem word_eq_fields (w : Word) :
    w.toNat = field w 26 6 * 2 ^ 26 + field w 22 4 * 2 ^ 22 + field w 18 4 * 2 ^ 18 + field w 14 4 * 2 ^ 14
      + field w 0 14 := by
  have := w.isLt
  simp only [field]
  omega

end Sys2Proof
end

