-- ==== Sys2Proof/Laws/Memory.lean ====
section
/-!
SUPPORT. The byte store: a read after a write, that every operation keeps the canonical form, and that stores in canonical
form with the same bytes are the same list.
-/

namespace Sys2Proof.Machine

theorem Memory.read_erase (m : Memory) (a c : Nat) : (m.erase a).read c = if c = a then 0 else m.read c := by
  induction m with
  | nil => simp [Memory.erase, Memory.read]
  | cons kv m ih =>
    obtain ⟨k, v⟩ := kv
    simp only [Memory.erase]
    split
    · rename_i hk; subst hk
      rw [ih, Memory.read]
      split <;> rfl
    · rename_i hk
      rw [Memory.read, ih]
      split
      · rename_i hc; subst hc; rw [if_neg hk, Memory.read, if_pos rfl]
      · rename_i hc; rw [Memory.read, if_neg hc]

theorem Memory.read_insert (m : Memory) (a c : Nat) (b : Byte) :
    (m.insert a b).read c = if c = a then b else m.read c := by
  induction m with
  | nil => simp [Memory.insert, Memory.read]
  | cons kv m ih =>
    obtain ⟨k, v⟩ := kv
    simp only [Memory.insert]
    split
    · simp [Memory.read]
    · split
      · rename_i h; subst h
        by_cases hc : c = a <;> simp [Memory.read, hc]
      · simp only [Memory.read, ih]
        by_cases hc : c = k
        · subst hc; simp_all [eq_comm]
        · simp [hc]

/-- A read after a write: the byte written there, and every other byte as before. -/
theorem Memory.read_write (m : Memory) (a c : Nat) (b : Byte) :
    (m.write a b).read c = if c = a then b else m.read c := by
  unfold Memory.write
  split
  · rename_i h; subst h; exact m.read_erase a c
  · exact m.read_insert a c b

theorem Memory.read_writeBytes (m : Memory) (a c : Nat) (bs : List Byte) :
    (m.writeBytes a bs).read c = if a ≤ c ∧ c < a + bs.length then bs.getD (c - a) 0 else m.read c := by
  induction bs generalizing m a with
  | nil => simp [Memory.writeBytes]
  | cons b bs ih =>
    simp only [Memory.writeBytes, ih, Memory.read_write, List.length_cons]
    by_cases h1 : a + 1 ≤ c ∧ c < a + 1 + bs.length
    · have h2 : a ≤ c ∧ c < a + (bs.length + 1) := by omega
      have h3 : c - a = (c - (a + 1)) + 1 := by omega
      simp [h1, h2, h3]
    · by_cases h2 : c = a
      · subst h2; simp
      · have h3 : ¬(a ≤ c ∧ c < a + (bs.length + 1)) := by omega
        rw [if_neg h1, if_neg h2, if_neg h3]

/-- A byte outside the bytes written reads as before. -/
theorem Memory.read_writeBytes_outside (m : Memory) (a c : Nat) (bs : List Byte)
    (h : ¬(a ≤ c ∧ c < a + bs.length)) : (m.writeBytes a bs).read c = m.read c := by
  rw [Memory.read_writeBytes, if_neg h]

@[simp] theorem Memory.readBytes_length (m : Memory) (a n : Nat) : (m.readBytes a n).length = n := by
  simp [Memory.readBytes]

theorem Memory.readBytes_getD (m : Memory) (a n i : Nat) (h : i < n) : (m.readBytes a n).getD i 0 = m.read (a + i) := by
  simp [Memory.readBytes, List.getD_eq_getElem?_getD, h]

/-- BufRead after BufWrite at the same place gives the bytes written. -/
theorem Memory.readBytes_writeBytes_same (m : Memory) (a : Nat) (bs : List Byte) :
    (m.writeBytes a bs).readBytes a bs.length = bs := by
  apply List.ext_getElem
  · simp
  · intro i h1 h2
    simp [Memory.readBytes, Memory.read_writeBytes, h2]

/-- BufRead away from a BufWrite gives the bytes of before. -/
theorem Memory.readBytes_writeBytes_apart (m : Memory) (a c n : Nat) (bs : List Byte)
    (h : c + n ≤ a ∨ a + bs.length ≤ c) : (m.writeBytes a bs).readBytes c n = m.readBytes c n := by
  apply List.map_congr_left
  intro i hi
  rw [List.mem_range] at hi
  exact m.read_writeBytes_outside _ _ _ (by omega)

/-! ## The canonical form -/

theorem Memory.sortedFrom_mono {lo lo' : Nat} (m : Memory) (h : lo' ≤ lo) (hm : Memory.sortedFrom lo m = true) :
    Memory.sortedFrom lo' m = true := by
  cases m with
  | nil => rfl
  | cons kv m =>
    obtain ⟨k, v⟩ := kv
    simp only [Memory.sortedFrom, Bool.and_eq_true, decide_eq_true_eq] at hm ⊢
    exact ⟨⟨⟨by omega, hm.1.1.2⟩, hm.1.2⟩, hm.2⟩

theorem Memory.sortedFrom_erase {lo : Nat} (m : Memory) (a : Nat) (hm : Memory.sortedFrom lo m = true) :
    Memory.sortedFrom lo (m.erase a) = true := by
  induction m generalizing lo with
  | nil => rfl
  | cons kv m ih =>
    obtain ⟨k, v⟩ := kv
    simp only [Memory.sortedFrom, Bool.and_eq_true, decide_eq_true_eq] at hm
    simp only [Memory.erase]
    split
    · exact Memory.sortedFrom_mono _ (by omega) (ih hm.2)
    · simp only [Memory.sortedFrom, Bool.and_eq_true, decide_eq_true_eq]
      exact ⟨hm.1, ih hm.2⟩

theorem Memory.sortedFrom_insert {lo : Nat} (m : Memory) (a : Nat) (b : Byte) (hm : Memory.sortedFrom lo m = true)
    (hlo : lo ≤ a) (ha : a < Config.bufBytes) (hb : b ≠ 0) : Memory.sortedFrom lo (m.insert a b) = true := by
  induction m generalizing lo with
  | nil =>
    simp only [Memory.insert, Memory.sortedFrom, Bool.and_true, Bool.and_eq_true, decide_eq_true_eq]
    exact ⟨⟨hlo, ha⟩, hb⟩
  | cons kv m ih =>
    obtain ⟨k, v⟩ := kv
    simp only [Memory.sortedFrom, Bool.and_eq_true, decide_eq_true_eq] at hm
    simp only [Memory.insert]
    split
    · simp only [Memory.sortedFrom, Bool.and_eq_true, decide_eq_true_eq]
      exact ⟨⟨⟨hlo, ha⟩, hb⟩, ⟨⟨by omega, hm.1.1.2⟩, hm.1.2⟩, hm.2⟩
    · split
      · rename_i h; subst h
        simp only [Memory.sortedFrom, Bool.and_eq_true, decide_eq_true_eq]
        exact ⟨⟨⟨hlo, ha⟩, hb⟩, hm.2⟩
      · simp only [Memory.sortedFrom, Bool.and_eq_true, decide_eq_true_eq]
        exact ⟨hm.1, ih hm.2 (by omega)⟩

/-- A write inside BUF keeps the canonical form. -/
theorem Memory.wf_write (m : Memory) (a : Nat) (b : Byte) (hm : m.wf = true) (ha : a < Config.bufBytes) :
    (m.write a b).wf = true := by
  unfold Memory.write Memory.wf at *
  split
  · exact Memory.sortedFrom_erase m a hm
  · rename_i hb; exact Memory.sortedFrom_insert m a b hm (by omega) ha hb

/-- A BufWrite inside BUF keeps the canonical form. -/
theorem Memory.wf_writeBytes (m : Memory) (a : Nat) (bs : List Byte) (hm : m.wf = true)
    (ha : a + bs.length ≤ Config.bufBytes) : (m.writeBytes a bs).wf = true := by
  induction bs generalizing m a with
  | nil => exact hm
  | cons b bs ih =>
    simp only [List.length_cons] at ha
    exact ih _ _ (Memory.wf_write m a b hm (by omega)) (by omega)

theorem Memory.read_below {lo a : Nat} (m : Memory) (hm : Memory.sortedFrom lo m = true) (h : a < lo) :
    m.read a = 0 := by
  induction m generalizing lo with
  | nil => rfl
  | cons kv m ih =>
    obtain ⟨k, v⟩ := kv
    simp only [Memory.sortedFrom, Bool.and_eq_true, decide_eq_true_eq] at hm
    simp [Memory.read, show a ≠ k by omega, ih hm.2 (by omega)]

theorem Memory.eq_of_read_from {lo : Nat} (m m' : Memory) (hm : Memory.sortedFrom lo m = true)
    (hm' : Memory.sortedFrom lo m' = true) (h : ∀ a, m.read a = m'.read a) : m = m' := by
  induction m generalizing lo m' with
  | nil =>
    cases m' with
    | nil => rfl
    | cons kv m' =>
      obtain ⟨k, v⟩ := kv
      simp only [Memory.sortedFrom, Bool.and_eq_true, decide_eq_true_eq] at hm'
      have := h k
      simp only [Memory.read, if_true] at this
      exact absurd this.symm hm'.1.2
  | cons kv m ih =>
    obtain ⟨k, v⟩ := kv
    simp only [Memory.sortedFrom, Bool.and_eq_true, decide_eq_true_eq] at hm
    cases m' with
    | nil =>
      have := h k
      simp only [Memory.read, if_true] at this
      exact absurd this hm.1.2
    | cons kv' m' =>
      obtain ⟨k', v'⟩ := kv'
      simp only [Memory.sortedFrom, Bool.and_eq_true, decide_eq_true_eq] at hm'
      have hk : k = k' := by
        rcases Nat.lt_trichotomy k k' with hlt | heq | hgt
        · have := h k
          simp only [Memory.read, if_true, show k ≠ k' by omega, if_false] at this
          rw [Memory.read_below m' hm'.2 (by omega)] at this
          exact absurd this hm.1.2
        · exact heq
        · have := h k'
          simp only [Memory.read, if_true, show k' ≠ k by omega, if_false] at this
          rw [Memory.read_below m hm.2 (by omega)] at this
          exact absurd this.symm hm'.1.2
      subst hk
      have hv : v = v' := by simpa [Memory.read] using h k
      subst hv
      congr 1
      refine ih m' hm.2 hm'.2 fun a => ?_
      by_cases ha : a = k
      · subst ha
        rw [Memory.read_below m hm.2 (by omega), Memory.read_below m' hm'.2 (by omega)]
      · simpa [Memory.read, ha] using h a

/-- Equal memories are equal data. -/
theorem Memory.eq_of_read (m m' : Memory) (hm : m.wf = true) (hm' : m'.wf = true) (h : ∀ a, m.read a = m'.read a) :
    m = m' := Memory.eq_of_read_from m m' hm hm' h

end Sys2Proof.Machine
end

