-- ==== Sys2Proof/Laws/State.lean ====
section
/-!
SUPPORT. What each update of the state leaves in each field: one lemma per field and update, so that no later proof unfolds
a record update; after them, what the accessors of the running command and of the stores read after an update.
-/

namespace Sys2Proof.Machine

variable (s : State)


/-! ### setFreg -/

@[simp] theorem State.setFreg_level (i : FReg) (w : Raw) : (s.setFreg i w).level = s.level := rfl
@[simp] theorem State.setFreg_detrng (i : FReg) (w : Raw) : (s.setFreg i w).detrng = s.detrng := rfl
@[simp] theorem State.setFreg_phase (i : FReg) (w : Raw) : (s.setFreg i w).phase = s.phase := rfl
@[simp] theorem State.setFreg_done (i : FReg) (w : Raw) : (s.setFreg i w).done = s.done := rfl
@[simp] theorem State.setFreg_err (i : FReg) (w : Raw) : (s.setFreg i w).err = s.err := rfl
@[simp] theorem State.setFreg_eqFlag (i : FReg) (w : Raw) : (s.setFreg i w).eqFlag = s.eqFlag := rfl
@[simp] theorem State.setFreg_cmdrej (i : FReg) (w : Raw) : (s.setFreg i w).cmdrej = s.cmdrej := rfl
@[simp] theorem State.setFreg_busyacc (i : FReg) (w : Raw) : (s.setFreg i w).busyacc = s.busyacc := rfl
@[simp] theorem State.setFreg_badval (i : FReg) (w : Raw) : (s.setFreg i w).badval = s.badval := rfl
@[simp] theorem State.setFreg_errcode (i : FReg) (w : Raw) : (s.setFreg i w).errcode = s.errcode := rfl
@[simp] theorem State.setFreg_errcmd (i : FReg) (w : Raw) : (s.setFreg i w).errcmd = s.errcmd := rfl
@[simp] theorem State.setFreg_cmdcnt (i : FReg) (w : Raw) : (s.setFreg i w).cmdcnt = s.cmdcnt := rfl
@[simp] theorem State.setFreg_doneIE (i : FReg) (w : Raw) : (s.setFreg i w).doneIE = s.doneIE := rfl
@[simp] theorem State.setFreg_errIE (i : FReg) (w : Raw) : (s.setFreg i w).errIE = s.errIE := rfl
@[simp] theorem State.setFreg_tags (i : FReg) (w : Raw) : (s.setFreg i w).tags = s.tags := rfl
@[simp] theorem State.setFreg_fregs (i : FReg) (w : Raw) : (s.setFreg i w).fregs = s.fregs.set i.val w := rfl
@[simp] theorem State.setFreg_slots (i : FReg) (w : Raw) : (s.setFreg i w).slots = s.slots := rfl
@[simp] theorem State.setFreg_buf (i : FReg) (w : Raw) : (s.setFreg i w).buf = s.buf := rfl
@[simp] theorem State.setFreg_scratch (i : FReg) (w : Raw) : (s.setFreg i w).scratch = s.scratch := rfl
@[simp] theorem State.setFreg_script (i : FReg) (w : Raw) : (s.setFreg i w).script = s.script := rfl
@[simp] theorem State.setFreg_rdata (i : FReg) (w : Raw) : (s.setFreg i w).rdata = s.rdata := rfl
@[simp] theorem State.setFreg_randPos (i : FReg) (w : Raw) : (s.setFreg i w).randPos = s.randPos := rfl
@[simp] theorem State.setFreg_freeDraws (i : FReg) (w : Raw) : (s.setFreg i w).freeDraws = s.freeDraws := rfl

/-! ### setSlot -/

@[simp] theorem State.setSlot_level (p : Slot) (f : Poly) (t : Tag) : (s.setSlot p f t).level = s.level := rfl
@[simp] theorem State.setSlot_detrng (p : Slot) (f : Poly) (t : Tag) : (s.setSlot p f t).detrng = s.detrng := rfl
@[simp] theorem State.setSlot_phase (p : Slot) (f : Poly) (t : Tag) : (s.setSlot p f t).phase = s.phase := rfl
@[simp] theorem State.setSlot_done (p : Slot) (f : Poly) (t : Tag) : (s.setSlot p f t).done = s.done := rfl
@[simp] theorem State.setSlot_err (p : Slot) (f : Poly) (t : Tag) : (s.setSlot p f t).err = s.err := rfl
@[simp] theorem State.setSlot_eqFlag (p : Slot) (f : Poly) (t : Tag) : (s.setSlot p f t).eqFlag = s.eqFlag := rfl
@[simp] theorem State.setSlot_cmdrej (p : Slot) (f : Poly) (t : Tag) : (s.setSlot p f t).cmdrej = s.cmdrej := rfl
@[simp] theorem State.setSlot_busyacc (p : Slot) (f : Poly) (t : Tag) : (s.setSlot p f t).busyacc = s.busyacc := rfl
@[simp] theorem State.setSlot_badval (p : Slot) (f : Poly) (t : Tag) : (s.setSlot p f t).badval = s.badval := rfl
@[simp] theorem State.setSlot_errcode (p : Slot) (f : Poly) (t : Tag) : (s.setSlot p f t).errcode = s.errcode := rfl
@[simp] theorem State.setSlot_errcmd (p : Slot) (f : Poly) (t : Tag) : (s.setSlot p f t).errcmd = s.errcmd := rfl
@[simp] theorem State.setSlot_cmdcnt (p : Slot) (f : Poly) (t : Tag) : (s.setSlot p f t).cmdcnt = s.cmdcnt := rfl
@[simp] theorem State.setSlot_doneIE (p : Slot) (f : Poly) (t : Tag) : (s.setSlot p f t).doneIE = s.doneIE := rfl
@[simp] theorem State.setSlot_errIE (p : Slot) (f : Poly) (t : Tag) : (s.setSlot p f t).errIE = s.errIE := rfl
@[simp] theorem State.setSlot_tags (p : Slot) (f : Poly) (t : Tag) : (s.setSlot p f t).tags = s.tags.set p.val t := rfl
@[simp] theorem State.setSlot_fregs (p : Slot) (f : Poly) (t : Tag) : (s.setSlot p f t).fregs = s.fregs := rfl
@[simp] theorem State.setSlot_slots (p : Slot) (f : Poly) (t : Tag) : (s.setSlot p f t).slots = s.slots.set p.val f := rfl
@[simp] theorem State.setSlot_buf (p : Slot) (f : Poly) (t : Tag) : (s.setSlot p f t).buf = s.buf := rfl
@[simp] theorem State.setSlot_scratch (p : Slot) (f : Poly) (t : Tag) : (s.setSlot p f t).scratch = s.scratch := rfl
@[simp] theorem State.setSlot_script (p : Slot) (f : Poly) (t : Tag) : (s.setSlot p f t).script = s.script := rfl
@[simp] theorem State.setSlot_rdata (p : Slot) (f : Poly) (t : Tag) : (s.setSlot p f t).rdata = s.rdata := rfl
@[simp] theorem State.setSlot_randPos (p : Slot) (f : Poly) (t : Tag) : (s.setSlot p f t).randPos = s.randPos := rfl
@[simp] theorem State.setSlot_freeDraws (p : Slot) (f : Poly) (t : Tag) : (s.setSlot p f t).freeDraws = s.freeDraws := rfl

/-! ### setSlotWord -/

@[simp] theorem State.setSlotWord_level (p : Slot) (j : Fin 256) (w : Raw) : (s.setSlotWord p j w).level = s.level := rfl
@[simp] theorem State.setSlotWord_detrng (p : Slot) (j : Fin 256) (w : Raw) : (s.setSlotWord p j w).detrng = s.detrng := rfl
@[simp] theorem State.setSlotWord_phase (p : Slot) (j : Fin 256) (w : Raw) : (s.setSlotWord p j w).phase = s.phase := rfl
@[simp] theorem State.setSlotWord_done (p : Slot) (j : Fin 256) (w : Raw) : (s.setSlotWord p j w).done = s.done := rfl
@[simp] theorem State.setSlotWord_err (p : Slot) (j : Fin 256) (w : Raw) : (s.setSlotWord p j w).err = s.err := rfl
@[simp] theorem State.setSlotWord_eqFlag (p : Slot) (j : Fin 256) (w : Raw) : (s.setSlotWord p j w).eqFlag = s.eqFlag := rfl
@[simp] theorem State.setSlotWord_cmdrej (p : Slot) (j : Fin 256) (w : Raw) : (s.setSlotWord p j w).cmdrej = s.cmdrej := rfl
@[simp] theorem State.setSlotWord_busyacc (p : Slot) (j : Fin 256) (w : Raw) : (s.setSlotWord p j w).busyacc = s.busyacc := rfl
@[simp] theorem State.setSlotWord_badval (p : Slot) (j : Fin 256) (w : Raw) : (s.setSlotWord p j w).badval = s.badval := rfl
@[simp] theorem State.setSlotWord_errcode (p : Slot) (j : Fin 256) (w : Raw) : (s.setSlotWord p j w).errcode = s.errcode := rfl
@[simp] theorem State.setSlotWord_errcmd (p : Slot) (j : Fin 256) (w : Raw) : (s.setSlotWord p j w).errcmd = s.errcmd := rfl
@[simp] theorem State.setSlotWord_cmdcnt (p : Slot) (j : Fin 256) (w : Raw) : (s.setSlotWord p j w).cmdcnt = s.cmdcnt := rfl
@[simp] theorem State.setSlotWord_doneIE (p : Slot) (j : Fin 256) (w : Raw) : (s.setSlotWord p j w).doneIE = s.doneIE := rfl
@[simp] theorem State.setSlotWord_errIE (p : Slot) (j : Fin 256) (w : Raw) : (s.setSlotWord p j w).errIE = s.errIE := rfl
@[simp] theorem State.setSlotWord_tags (p : Slot) (j : Fin 256) (w : Raw) : (s.setSlotWord p j w).tags = s.tags := rfl
@[simp] theorem State.setSlotWord_fregs (p : Slot) (j : Fin 256) (w : Raw) : (s.setSlotWord p j w).fregs = s.fregs := rfl
@[simp] theorem State.setSlotWord_slots (p : Slot) (j : Fin 256) (w : Raw) : (s.setSlotWord p j w).slots = s.slots.set p.val ((s.slot p).set j.val w) := rfl
@[simp] theorem State.setSlotWord_buf (p : Slot) (j : Fin 256) (w : Raw) : (s.setSlotWord p j w).buf = s.buf := rfl
@[simp] theorem State.setSlotWord_scratch (p : Slot) (j : Fin 256) (w : Raw) : (s.setSlotWord p j w).scratch = s.scratch := rfl
@[simp] theorem State.setSlotWord_script (p : Slot) (j : Fin 256) (w : Raw) : (s.setSlotWord p j w).script = s.script := rfl
@[simp] theorem State.setSlotWord_rdata (p : Slot) (j : Fin 256) (w : Raw) : (s.setSlotWord p j w).rdata = s.rdata := rfl
@[simp] theorem State.setSlotWord_randPos (p : Slot) (j : Fin 256) (w : Raw) : (s.setSlotWord p j w).randPos = s.randPos := rfl
@[simp] theorem State.setSlotWord_freeDraws (p : Slot) (j : Fin 256) (w : Raw) : (s.setSlotWord p j w).freeDraws = s.freeDraws := rfl

/-! ### writeBuf -/

@[simp] theorem State.writeBuf_level (a : Nat) (bs : List Byte) : (s.writeBuf a bs).level = s.level := rfl
@[simp] theorem State.writeBuf_detrng (a : Nat) (bs : List Byte) : (s.writeBuf a bs).detrng = s.detrng := rfl
@[simp] theorem State.writeBuf_phase (a : Nat) (bs : List Byte) : (s.writeBuf a bs).phase = s.phase := rfl
@[simp] theorem State.writeBuf_done (a : Nat) (bs : List Byte) : (s.writeBuf a bs).done = s.done := rfl
@[simp] theorem State.writeBuf_err (a : Nat) (bs : List Byte) : (s.writeBuf a bs).err = s.err := rfl
@[simp] theorem State.writeBuf_eqFlag (a : Nat) (bs : List Byte) : (s.writeBuf a bs).eqFlag = s.eqFlag := rfl
@[simp] theorem State.writeBuf_cmdrej (a : Nat) (bs : List Byte) : (s.writeBuf a bs).cmdrej = s.cmdrej := rfl
@[simp] theorem State.writeBuf_busyacc (a : Nat) (bs : List Byte) : (s.writeBuf a bs).busyacc = s.busyacc := rfl
@[simp] theorem State.writeBuf_badval (a : Nat) (bs : List Byte) : (s.writeBuf a bs).badval = s.badval := rfl
@[simp] theorem State.writeBuf_errcode (a : Nat) (bs : List Byte) : (s.writeBuf a bs).errcode = s.errcode := rfl
@[simp] theorem State.writeBuf_errcmd (a : Nat) (bs : List Byte) : (s.writeBuf a bs).errcmd = s.errcmd := rfl
@[simp] theorem State.writeBuf_cmdcnt (a : Nat) (bs : List Byte) : (s.writeBuf a bs).cmdcnt = s.cmdcnt := rfl
@[simp] theorem State.writeBuf_doneIE (a : Nat) (bs : List Byte) : (s.writeBuf a bs).doneIE = s.doneIE := rfl
@[simp] theorem State.writeBuf_errIE (a : Nat) (bs : List Byte) : (s.writeBuf a bs).errIE = s.errIE := rfl
@[simp] theorem State.writeBuf_tags (a : Nat) (bs : List Byte) : (s.writeBuf a bs).tags = s.tags := rfl
@[simp] theorem State.writeBuf_fregs (a : Nat) (bs : List Byte) : (s.writeBuf a bs).fregs = s.fregs := rfl
@[simp] theorem State.writeBuf_slots (a : Nat) (bs : List Byte) : (s.writeBuf a bs).slots = s.slots := rfl
@[simp] theorem State.writeBuf_buf (a : Nat) (bs : List Byte) : (s.writeBuf a bs).buf = s.buf.writeBytes a bs := rfl
@[simp] theorem State.writeBuf_scratch (a : Nat) (bs : List Byte) : (s.writeBuf a bs).scratch = s.scratch := rfl
@[simp] theorem State.writeBuf_script (a : Nat) (bs : List Byte) : (s.writeBuf a bs).script = s.script := rfl
@[simp] theorem State.writeBuf_rdata (a : Nat) (bs : List Byte) : (s.writeBuf a bs).rdata = s.rdata := rfl
@[simp] theorem State.writeBuf_randPos (a : Nat) (bs : List Byte) : (s.writeBuf a bs).randPos = s.randPos := rfl
@[simp] theorem State.writeBuf_freeDraws (a : Nat) (bs : List Byte) : (s.writeBuf a bs).freeDraws = s.freeDraws := rfl

/-! ### setEq -/

@[simp] theorem State.setEq_level (b : Bool) : (s.setEq b).level = s.level := rfl
@[simp] theorem State.setEq_detrng (b : Bool) : (s.setEq b).detrng = s.detrng := rfl
@[simp] theorem State.setEq_phase (b : Bool) : (s.setEq b).phase = s.phase := rfl
@[simp] theorem State.setEq_done (b : Bool) : (s.setEq b).done = s.done := rfl
@[simp] theorem State.setEq_err (b : Bool) : (s.setEq b).err = s.err := rfl
@[simp] theorem State.setEq_eqFlag (b : Bool) : (s.setEq b).eqFlag = b := rfl
@[simp] theorem State.setEq_cmdrej (b : Bool) : (s.setEq b).cmdrej = s.cmdrej := rfl
@[simp] theorem State.setEq_busyacc (b : Bool) : (s.setEq b).busyacc = s.busyacc := rfl
@[simp] theorem State.setEq_badval (b : Bool) : (s.setEq b).badval = s.badval := rfl
@[simp] theorem State.setEq_errcode (b : Bool) : (s.setEq b).errcode = s.errcode := rfl
@[simp] theorem State.setEq_errcmd (b : Bool) : (s.setEq b).errcmd = s.errcmd := rfl
@[simp] theorem State.setEq_cmdcnt (b : Bool) : (s.setEq b).cmdcnt = s.cmdcnt := rfl
@[simp] theorem State.setEq_doneIE (b : Bool) : (s.setEq b).doneIE = s.doneIE := rfl
@[simp] theorem State.setEq_errIE (b : Bool) : (s.setEq b).errIE = s.errIE := rfl
@[simp] theorem State.setEq_tags (b : Bool) : (s.setEq b).tags = s.tags := rfl
@[simp] theorem State.setEq_fregs (b : Bool) : (s.setEq b).fregs = s.fregs := rfl
@[simp] theorem State.setEq_slots (b : Bool) : (s.setEq b).slots = s.slots := rfl
@[simp] theorem State.setEq_buf (b : Bool) : (s.setEq b).buf = s.buf := rfl
@[simp] theorem State.setEq_scratch (b : Bool) : (s.setEq b).scratch = s.scratch := rfl
@[simp] theorem State.setEq_script (b : Bool) : (s.setEq b).script = s.script := rfl
@[simp] theorem State.setEq_rdata (b : Bool) : (s.setEq b).rdata = s.rdata := rfl
@[simp] theorem State.setEq_randPos (b : Bool) : (s.setEq b).randPos = s.randPos := rfl
@[simp] theorem State.setEq_freeDraws (b : Bool) : (s.setEq b).freeDraws = s.freeDraws := rfl

/-! ### clearScratch -/

@[simp] theorem State.clearScratch_level : (s.clearScratch).level = s.level := rfl
@[simp] theorem State.clearScratch_detrng : (s.clearScratch).detrng = s.detrng := rfl
@[simp] theorem State.clearScratch_phase : (s.clearScratch).phase = s.phase := rfl
@[simp] theorem State.clearScratch_done : (s.clearScratch).done = s.done := rfl
@[simp] theorem State.clearScratch_err : (s.clearScratch).err = s.err := rfl
@[simp] theorem State.clearScratch_eqFlag : (s.clearScratch).eqFlag = s.eqFlag := rfl
@[simp] theorem State.clearScratch_cmdrej : (s.clearScratch).cmdrej = s.cmdrej := rfl
@[simp] theorem State.clearScratch_busyacc : (s.clearScratch).busyacc = s.busyacc := rfl
@[simp] theorem State.clearScratch_badval : (s.clearScratch).badval = s.badval := rfl
@[simp] theorem State.clearScratch_errcode : (s.clearScratch).errcode = s.errcode := rfl
@[simp] theorem State.clearScratch_errcmd : (s.clearScratch).errcmd = s.errcmd := rfl
@[simp] theorem State.clearScratch_cmdcnt : (s.clearScratch).cmdcnt = s.cmdcnt := rfl
@[simp] theorem State.clearScratch_doneIE : (s.clearScratch).doneIE = s.doneIE := rfl
@[simp] theorem State.clearScratch_errIE : (s.clearScratch).errIE = s.errIE := rfl
@[simp] theorem State.clearScratch_tags : (s.clearScratch).tags = s.tags := rfl
@[simp] theorem State.clearScratch_fregs : (s.clearScratch).fregs = s.fregs := rfl
@[simp] theorem State.clearScratch_slots : (s.clearScratch).slots = s.slots := rfl
@[simp] theorem State.clearScratch_buf : (s.clearScratch).buf = s.buf := rfl
@[simp] theorem State.clearScratch_scratch : (s.clearScratch).scratch = [] := rfl
@[simp] theorem State.clearScratch_script : (s.clearScratch).script = s.script := rfl
@[simp] theorem State.clearScratch_rdata : (s.clearScratch).rdata = s.rdata := rfl
@[simp] theorem State.clearScratch_randPos : (s.clearScratch).randPos = s.randPos := rfl
@[simp] theorem State.clearScratch_freeDraws : (s.clearScratch).freeDraws = s.freeDraws := rfl

/-! ### setRandPos -/

@[simp] theorem State.setRandPos_level (n : Nat) : (s.setRandPos n).level = s.level := rfl
@[simp] theorem State.setRandPos_detrng (n : Nat) : (s.setRandPos n).detrng = s.detrng := rfl
@[simp] theorem State.setRandPos_phase (n : Nat) : (s.setRandPos n).phase = s.phase := rfl
@[simp] theorem State.setRandPos_done (n : Nat) : (s.setRandPos n).done = s.done := rfl
@[simp] theorem State.setRandPos_err (n : Nat) : (s.setRandPos n).err = s.err := rfl
@[simp] theorem State.setRandPos_eqFlag (n : Nat) : (s.setRandPos n).eqFlag = s.eqFlag := rfl
@[simp] theorem State.setRandPos_cmdrej (n : Nat) : (s.setRandPos n).cmdrej = s.cmdrej := rfl
@[simp] theorem State.setRandPos_busyacc (n : Nat) : (s.setRandPos n).busyacc = s.busyacc := rfl
@[simp] theorem State.setRandPos_badval (n : Nat) : (s.setRandPos n).badval = s.badval := rfl
@[simp] theorem State.setRandPos_errcode (n : Nat) : (s.setRandPos n).errcode = s.errcode := rfl
@[simp] theorem State.setRandPos_errcmd (n : Nat) : (s.setRandPos n).errcmd = s.errcmd := rfl
@[simp] theorem State.setRandPos_cmdcnt (n : Nat) : (s.setRandPos n).cmdcnt = s.cmdcnt := rfl
@[simp] theorem State.setRandPos_doneIE (n : Nat) : (s.setRandPos n).doneIE = s.doneIE := rfl
@[simp] theorem State.setRandPos_errIE (n : Nat) : (s.setRandPos n).errIE = s.errIE := rfl
@[simp] theorem State.setRandPos_tags (n : Nat) : (s.setRandPos n).tags = s.tags := rfl
@[simp] theorem State.setRandPos_fregs (n : Nat) : (s.setRandPos n).fregs = s.fregs := rfl
@[simp] theorem State.setRandPos_slots (n : Nat) : (s.setRandPos n).slots = s.slots := rfl
@[simp] theorem State.setRandPos_buf (n : Nat) : (s.setRandPos n).buf = s.buf := rfl
@[simp] theorem State.setRandPos_scratch (n : Nat) : (s.setRandPos n).scratch = s.scratch := rfl
@[simp] theorem State.setRandPos_script (n : Nat) : (s.setRandPos n).script = s.script := rfl
@[simp] theorem State.setRandPos_rdata (n : Nat) : (s.setRandPos n).rdata = s.rdata := rfl
@[simp] theorem State.setRandPos_randPos (n : Nat) : (s.setRandPos n).randPos = n := rfl
@[simp] theorem State.setRandPos_freeDraws (n : Nat) : (s.setRandPos n).freeDraws = s.freeDraws := rfl

/-! ### complete -/

@[simp] theorem State.complete_level : (s.complete).level = s.level := rfl
@[simp] theorem State.complete_detrng : (s.complete).detrng = s.detrng := rfl
@[simp] theorem State.complete_phase : (s.complete).phase = .idle := rfl
@[simp] theorem State.complete_done : (s.complete).done = true := rfl
@[simp] theorem State.complete_err : (s.complete).err = s.err := rfl
@[simp] theorem State.complete_eqFlag : (s.complete).eqFlag = s.eqFlag := rfl
@[simp] theorem State.complete_cmdrej : (s.complete).cmdrej = s.cmdrej := rfl
@[simp] theorem State.complete_busyacc : (s.complete).busyacc = s.busyacc := rfl
@[simp] theorem State.complete_badval : (s.complete).badval = s.badval := rfl
@[simp] theorem State.complete_errcode : (s.complete).errcode = s.errcode := rfl
@[simp] theorem State.complete_errcmd : (s.complete).errcmd = s.errcmd := rfl
@[simp] theorem State.complete_cmdcnt : (s.complete).cmdcnt = s.cmdcnt + 1 := rfl
@[simp] theorem State.complete_doneIE : (s.complete).doneIE = s.doneIE := rfl
@[simp] theorem State.complete_errIE : (s.complete).errIE = s.errIE := rfl
@[simp] theorem State.complete_tags : (s.complete).tags = s.tags := rfl
@[simp] theorem State.complete_fregs : (s.complete).fregs = s.fregs := rfl
@[simp] theorem State.complete_slots : (s.complete).slots = s.slots := rfl
@[simp] theorem State.complete_buf : (s.complete).buf = s.buf := rfl
@[simp] theorem State.complete_scratch : (s.complete).scratch = s.scratch := rfl
@[simp] theorem State.complete_script : (s.complete).script = s.script := rfl
@[simp] theorem State.complete_rdata : (s.complete).rdata = s.rdata := rfl
@[simp] theorem State.complete_randPos : (s.complete).randPos = s.randPos := rfl
@[simp] theorem State.complete_freeDraws : (s.complete).freeDraws = s.freeDraws := rfl

/-! ### takeFault -/

@[simp] theorem State.takeFault_level (c : FaultCode) : (s.takeFault c).level = s.level := rfl
@[simp] theorem State.takeFault_detrng (c : FaultCode) : (s.takeFault c).detrng = s.detrng := rfl
@[simp] theorem State.takeFault_phase (c : FaultCode) : (s.takeFault c).phase = .idle := rfl
@[simp] theorem State.takeFault_done (c : FaultCode) : (s.takeFault c).done = true := rfl
@[simp] theorem State.takeFault_err (c : FaultCode) : (s.takeFault c).err = true := rfl
@[simp] theorem State.takeFault_eqFlag (c : FaultCode) : (s.takeFault c).eqFlag = s.eqFlag := rfl
@[simp] theorem State.takeFault_cmdrej (c : FaultCode) : (s.takeFault c).cmdrej = s.cmdrej := rfl
@[simp] theorem State.takeFault_busyacc (c : FaultCode) : (s.takeFault c).busyacc = s.busyacc := rfl
@[simp] theorem State.takeFault_badval (c : FaultCode) : (s.takeFault c).badval = s.badval := rfl
@[simp] theorem State.takeFault_errcode (c : FaultCode) : (s.takeFault c).errcode = c := rfl
@[simp] theorem State.takeFault_errcmd (c : FaultCode) : (s.takeFault c).errcmd = s.cmdWord := rfl
@[simp] theorem State.takeFault_cmdcnt (c : FaultCode) : (s.takeFault c).cmdcnt = s.cmdcnt := rfl
@[simp] theorem State.takeFault_doneIE (c : FaultCode) : (s.takeFault c).doneIE = s.doneIE := rfl
@[simp] theorem State.takeFault_errIE (c : FaultCode) : (s.takeFault c).errIE = s.errIE := rfl
@[simp] theorem State.takeFault_tags (c : FaultCode) : (s.takeFault c).tags = s.tags := rfl
@[simp] theorem State.takeFault_fregs (c : FaultCode) : (s.takeFault c).fregs = s.fregs := rfl
@[simp] theorem State.takeFault_slots (c : FaultCode) : (s.takeFault c).slots = s.slots := rfl
@[simp] theorem State.takeFault_buf (c : FaultCode) : (s.takeFault c).buf = s.buf := rfl
@[simp] theorem State.takeFault_scratch (c : FaultCode) : (s.takeFault c).scratch = s.scratch := rfl
@[simp] theorem State.takeFault_script (c : FaultCode) : (s.takeFault c).script = s.script := rfl
@[simp] theorem State.takeFault_rdata (c : FaultCode) : (s.takeFault c).rdata = s.rdata := rfl
@[simp] theorem State.takeFault_randPos (c : FaultCode) : (s.takeFault c).randPos = s.randPos := rfl
@[simp] theorem State.takeFault_freeDraws (c : FaultCode) : (s.takeFault c).freeDraws = s.freeDraws := rfl

/-! ### leaveFault -/

@[simp] theorem State.leaveFault_level : (s.leaveFault).level = s.level := rfl
@[simp] theorem State.leaveFault_detrng : (s.leaveFault).detrng = s.detrng := rfl
@[simp] theorem State.leaveFault_phase : (s.leaveFault).phase = s.phase := rfl
@[simp] theorem State.leaveFault_done : (s.leaveFault).done = s.done := rfl
@[simp] theorem State.leaveFault_err : (s.leaveFault).err = false := rfl
@[simp] theorem State.leaveFault_eqFlag : (s.leaveFault).eqFlag = s.eqFlag := rfl
@[simp] theorem State.leaveFault_cmdrej : (s.leaveFault).cmdrej = s.cmdrej := rfl
@[simp] theorem State.leaveFault_busyacc : (s.leaveFault).busyacc = s.busyacc := rfl
@[simp] theorem State.leaveFault_badval : (s.leaveFault).badval = s.badval := rfl
@[simp] theorem State.leaveFault_errcode : (s.leaveFault).errcode = s.errcode := rfl
@[simp] theorem State.leaveFault_errcmd : (s.leaveFault).errcmd = s.errcmd := rfl
@[simp] theorem State.leaveFault_cmdcnt : (s.leaveFault).cmdcnt = s.cmdcnt := rfl
@[simp] theorem State.leaveFault_doneIE : (s.leaveFault).doneIE = s.doneIE := rfl
@[simp] theorem State.leaveFault_errIE : (s.leaveFault).errIE = s.errIE := rfl
@[simp] theorem State.leaveFault_tags : (s.leaveFault).tags = s.tags := rfl
@[simp] theorem State.leaveFault_fregs : (s.leaveFault).fregs = s.fregs := rfl
@[simp] theorem State.leaveFault_slots : (s.leaveFault).slots = s.slots := rfl
@[simp] theorem State.leaveFault_buf : (s.leaveFault).buf = s.buf := rfl
@[simp] theorem State.leaveFault_scratch : (s.leaveFault).scratch = s.scratch := rfl
@[simp] theorem State.leaveFault_script : (s.leaveFault).script = s.script := rfl
@[simp] theorem State.leaveFault_rdata : (s.leaveFault).rdata = s.rdata := rfl
@[simp] theorem State.leaveFault_randPos : (s.leaveFault).randPos = s.randPos := rfl
@[simp] theorem State.leaveFault_freeDraws : (s.leaveFault).freeDraws = s.freeDraws := rfl

/-! ### accept -/

@[simp] theorem State.accept_level (w : Word) : (s.accept w).level = s.level := rfl
@[simp] theorem State.accept_detrng (w : Word) : (s.accept w).detrng = s.detrng := rfl
@[simp] theorem State.accept_phase (w : Word) : (s.accept w).phase = .running { cmd := w, level := s.level, detrng := s.detrng, attempt := 0 } := rfl
@[simp] theorem State.accept_done (w : Word) : (s.accept w).done = false := rfl
@[simp] theorem State.accept_err (w : Word) : (s.accept w).err = s.err := rfl
@[simp] theorem State.accept_eqFlag (w : Word) : (s.accept w).eqFlag = s.eqFlag := rfl
@[simp] theorem State.accept_cmdrej (w : Word) : (s.accept w).cmdrej = s.cmdrej := rfl
@[simp] theorem State.accept_busyacc (w : Word) : (s.accept w).busyacc = s.busyacc := rfl
@[simp] theorem State.accept_badval (w : Word) : (s.accept w).badval = s.badval := rfl
@[simp] theorem State.accept_errcode (w : Word) : (s.accept w).errcode = s.errcode := rfl
@[simp] theorem State.accept_errcmd (w : Word) : (s.accept w).errcmd = s.errcmd := rfl
@[simp] theorem State.accept_cmdcnt (w : Word) : (s.accept w).cmdcnt = s.cmdcnt := rfl
@[simp] theorem State.accept_doneIE (w : Word) : (s.accept w).doneIE = s.doneIE := rfl
@[simp] theorem State.accept_errIE (w : Word) : (s.accept w).errIE = s.errIE := rfl
@[simp] theorem State.accept_tags (w : Word) : (s.accept w).tags = s.tags := rfl
@[simp] theorem State.accept_fregs (w : Word) : (s.accept w).fregs = s.fregs := rfl
@[simp] theorem State.accept_slots (w : Word) : (s.accept w).slots = s.slots := rfl
@[simp] theorem State.accept_buf (w : Word) : (s.accept w).buf = s.buf := rfl
@[simp] theorem State.accept_scratch (w : Word) : (s.accept w).scratch = s.scratch := rfl
@[simp] theorem State.accept_script (w : Word) : (s.accept w).script = s.script := rfl
@[simp] theorem State.accept_rdata (w : Word) : (s.accept w).rdata = s.rdata := rfl
@[simp] theorem State.accept_randPos (w : Word) : (s.accept w).randPos = s.randPos := rfl
@[simp] theorem State.accept_freeDraws (w : Word) : (s.accept w).freeDraws = s.freeDraws := rfl

/-! ### endInit -/

@[simp] theorem State.endInit_level : (s.endInit).level = s.level := rfl
@[simp] theorem State.endInit_detrng : (s.endInit).detrng = s.detrng := rfl
@[simp] theorem State.endInit_phase : (s.endInit).phase = .idle := rfl
@[simp] theorem State.endInit_done : (s.endInit).done = s.done := rfl
@[simp] theorem State.endInit_err : (s.endInit).err = s.err := rfl
@[simp] theorem State.endInit_eqFlag : (s.endInit).eqFlag = s.eqFlag := rfl
@[simp] theorem State.endInit_cmdrej : (s.endInit).cmdrej = s.cmdrej := rfl
@[simp] theorem State.endInit_busyacc : (s.endInit).busyacc = s.busyacc := rfl
@[simp] theorem State.endInit_badval : (s.endInit).badval = s.badval := rfl
@[simp] theorem State.endInit_errcode : (s.endInit).errcode = s.errcode := rfl
@[simp] theorem State.endInit_errcmd : (s.endInit).errcmd = s.errcmd := rfl
@[simp] theorem State.endInit_cmdcnt : (s.endInit).cmdcnt = s.cmdcnt := rfl
@[simp] theorem State.endInit_doneIE : (s.endInit).doneIE = s.doneIE := rfl
@[simp] theorem State.endInit_errIE : (s.endInit).errIE = s.errIE := rfl
@[simp] theorem State.endInit_tags : (s.endInit).tags = s.tags := rfl
@[simp] theorem State.endInit_fregs : (s.endInit).fregs = s.fregs := rfl
@[simp] theorem State.endInit_slots : (s.endInit).slots = s.slots := rfl
@[simp] theorem State.endInit_buf : (s.endInit).buf = s.buf := rfl
@[simp] theorem State.endInit_scratch : (s.endInit).scratch = s.scratch := rfl
@[simp] theorem State.endInit_script : (s.endInit).script = s.script := rfl
@[simp] theorem State.endInit_rdata : (s.endInit).rdata = s.rdata := rfl
@[simp] theorem State.endInit_randPos : (s.endInit).randPos = s.randPos := rfl
@[simp] theorem State.endInit_freeDraws : (s.endInit).freeDraws = s.freeDraws := rfl

/-! ### keepBusy -/

@[simp] theorem State.keepBusy_level : (s.keepBusy).level = s.level := by
  unfold State.keepBusy; split <;> rfl
@[simp] theorem State.keepBusy_detrng : (s.keepBusy).detrng = s.detrng := by
  unfold State.keepBusy; split <;> rfl
@[simp] theorem State.keepBusy_done : (s.keepBusy).done = s.done := by
  unfold State.keepBusy; split <;> rfl
@[simp] theorem State.keepBusy_err : (s.keepBusy).err = s.err := by
  unfold State.keepBusy; split <;> rfl
@[simp] theorem State.keepBusy_eqFlag : (s.keepBusy).eqFlag = s.eqFlag := by
  unfold State.keepBusy; split <;> rfl
@[simp] theorem State.keepBusy_cmdrej : (s.keepBusy).cmdrej = s.cmdrej := by
  unfold State.keepBusy; split <;> rfl
@[simp] theorem State.keepBusy_busyacc : (s.keepBusy).busyacc = s.busyacc := by
  unfold State.keepBusy; split <;> rfl
@[simp] theorem State.keepBusy_badval : (s.keepBusy).badval = s.badval := by
  unfold State.keepBusy; split <;> rfl
@[simp] theorem State.keepBusy_errcode : (s.keepBusy).errcode = s.errcode := by
  unfold State.keepBusy; split <;> rfl
@[simp] theorem State.keepBusy_errcmd : (s.keepBusy).errcmd = s.errcmd := by
  unfold State.keepBusy; split <;> rfl
@[simp] theorem State.keepBusy_cmdcnt : (s.keepBusy).cmdcnt = s.cmdcnt := by
  unfold State.keepBusy; split <;> rfl
@[simp] theorem State.keepBusy_doneIE : (s.keepBusy).doneIE = s.doneIE := by
  unfold State.keepBusy; split <;> rfl
@[simp] theorem State.keepBusy_errIE : (s.keepBusy).errIE = s.errIE := by
  unfold State.keepBusy; split <;> rfl
@[simp] theorem State.keepBusy_tags : (s.keepBusy).tags = s.tags := by
  unfold State.keepBusy; split <;> rfl
@[simp] theorem State.keepBusy_fregs : (s.keepBusy).fregs = s.fregs := by
  unfold State.keepBusy; split <;> rfl
@[simp] theorem State.keepBusy_slots : (s.keepBusy).slots = s.slots := by
  unfold State.keepBusy; split <;> rfl
@[simp] theorem State.keepBusy_buf : (s.keepBusy).buf = s.buf := by
  unfold State.keepBusy; split <;> rfl
@[simp] theorem State.keepBusy_scratch : (s.keepBusy).scratch = s.scratch := by
  unfold State.keepBusy; split <;> rfl
@[simp] theorem State.keepBusy_script : (s.keepBusy).script = s.script := by
  unfold State.keepBusy; split <;> rfl
@[simp] theorem State.keepBusy_rdata : (s.keepBusy).rdata = s.rdata := by
  unfold State.keepBusy; split <;> rfl
@[simp] theorem State.keepBusy_randPos : (s.keepBusy).randPos = s.randPos := by
  unfold State.keepBusy; split <;> rfl
@[simp] theorem State.keepBusy_freeDraws : (s.keepBusy).freeDraws = s.freeDraws := by
  unfold State.keepBusy; split <;> rfl

/-! ### setFval -/

@[simp] theorem State.setFval_level (i : FReg) (a : Nat) (R : Radix) : (s.setFval i a R).level = s.level := rfl
@[simp] theorem State.setFval_detrng (i : FReg) (a : Nat) (R : Radix) : (s.setFval i a R).detrng = s.detrng := rfl
@[simp] theorem State.setFval_phase (i : FReg) (a : Nat) (R : Radix) : (s.setFval i a R).phase = s.phase := rfl
@[simp] theorem State.setFval_done (i : FReg) (a : Nat) (R : Radix) : (s.setFval i a R).done = s.done := rfl
@[simp] theorem State.setFval_err (i : FReg) (a : Nat) (R : Radix) : (s.setFval i a R).err = s.err := rfl
@[simp] theorem State.setFval_eqFlag (i : FReg) (a : Nat) (R : Radix) : (s.setFval i a R).eqFlag = s.eqFlag := rfl
@[simp] theorem State.setFval_cmdrej (i : FReg) (a : Nat) (R : Radix) : (s.setFval i a R).cmdrej = s.cmdrej := rfl
@[simp] theorem State.setFval_busyacc (i : FReg) (a : Nat) (R : Radix) : (s.setFval i a R).busyacc = s.busyacc := rfl
@[simp] theorem State.setFval_badval (i : FReg) (a : Nat) (R : Radix) : (s.setFval i a R).badval = s.badval := rfl
@[simp] theorem State.setFval_errcode (i : FReg) (a : Nat) (R : Radix) : (s.setFval i a R).errcode = s.errcode := rfl
@[simp] theorem State.setFval_errcmd (i : FReg) (a : Nat) (R : Radix) : (s.setFval i a R).errcmd = s.errcmd := rfl
@[simp] theorem State.setFval_cmdcnt (i : FReg) (a : Nat) (R : Radix) : (s.setFval i a R).cmdcnt = s.cmdcnt := rfl
@[simp] theorem State.setFval_doneIE (i : FReg) (a : Nat) (R : Radix) : (s.setFval i a R).doneIE = s.doneIE := rfl
@[simp] theorem State.setFval_errIE (i : FReg) (a : Nat) (R : Radix) : (s.setFval i a R).errIE = s.errIE := rfl
@[simp] theorem State.setFval_tags (i : FReg) (a : Nat) (R : Radix) : (s.setFval i a R).tags = s.tags := rfl
@[simp] theorem State.setFval_fregs (i : FReg) (a : Nat) (R : Radix) : (s.setFval i a R).fregs = s.fregs.set i.val (mont a R) := rfl
@[simp] theorem State.setFval_slots (i : FReg) (a : Nat) (R : Radix) : (s.setFval i a R).slots = s.slots := rfl
@[simp] theorem State.setFval_buf (i : FReg) (a : Nat) (R : Radix) : (s.setFval i a R).buf = s.buf := rfl
@[simp] theorem State.setFval_scratch (i : FReg) (a : Nat) (R : Radix) : (s.setFval i a R).scratch = s.scratch := rfl
@[simp] theorem State.setFval_script (i : FReg) (a : Nat) (R : Radix) : (s.setFval i a R).script = s.script := rfl
@[simp] theorem State.setFval_rdata (i : FReg) (a : Nat) (R : Radix) : (s.setFval i a R).rdata = s.rdata := rfl
@[simp] theorem State.setFval_randPos (i : FReg) (a : Nat) (R : Radix) : (s.setFval i a R).randPos = s.randPos := rfl
@[simp] theorem State.setFval_freeDraws (i : FReg) (a : Nat) (R : Radix) : (s.setFval i a R).freeDraws = s.freeDraws := rfl

/-! ### setSlotVals -/

@[simp] theorem State.setSlotVals_level (p : Slot) (f : Coeffs) (t : Tag) (R : Radix) : (s.setSlotVals p f t R).level = s.level := rfl
@[simp] theorem State.setSlotVals_detrng (p : Slot) (f : Coeffs) (t : Tag) (R : Radix) : (s.setSlotVals p f t R).detrng = s.detrng := rfl
@[simp] theorem State.setSlotVals_phase (p : Slot) (f : Coeffs) (t : Tag) (R : Radix) : (s.setSlotVals p f t R).phase = s.phase := rfl
@[simp] theorem State.setSlotVals_done (p : Slot) (f : Coeffs) (t : Tag) (R : Radix) : (s.setSlotVals p f t R).done = s.done := rfl
@[simp] theorem State.setSlotVals_err (p : Slot) (f : Coeffs) (t : Tag) (R : Radix) : (s.setSlotVals p f t R).err = s.err := rfl
@[simp] theorem State.setSlotVals_eqFlag (p : Slot) (f : Coeffs) (t : Tag) (R : Radix) : (s.setSlotVals p f t R).eqFlag = s.eqFlag := rfl
@[simp] theorem State.setSlotVals_cmdrej (p : Slot) (f : Coeffs) (t : Tag) (R : Radix) : (s.setSlotVals p f t R).cmdrej = s.cmdrej := rfl
@[simp] theorem State.setSlotVals_busyacc (p : Slot) (f : Coeffs) (t : Tag) (R : Radix) : (s.setSlotVals p f t R).busyacc = s.busyacc := rfl
@[simp] theorem State.setSlotVals_badval (p : Slot) (f : Coeffs) (t : Tag) (R : Radix) : (s.setSlotVals p f t R).badval = s.badval := rfl
@[simp] theorem State.setSlotVals_errcode (p : Slot) (f : Coeffs) (t : Tag) (R : Radix) : (s.setSlotVals p f t R).errcode = s.errcode := rfl
@[simp] theorem State.setSlotVals_errcmd (p : Slot) (f : Coeffs) (t : Tag) (R : Radix) : (s.setSlotVals p f t R).errcmd = s.errcmd := rfl
@[simp] theorem State.setSlotVals_cmdcnt (p : Slot) (f : Coeffs) (t : Tag) (R : Radix) : (s.setSlotVals p f t R).cmdcnt = s.cmdcnt := rfl
@[simp] theorem State.setSlotVals_doneIE (p : Slot) (f : Coeffs) (t : Tag) (R : Radix) : (s.setSlotVals p f t R).doneIE = s.doneIE := rfl
@[simp] theorem State.setSlotVals_errIE (p : Slot) (f : Coeffs) (t : Tag) (R : Radix) : (s.setSlotVals p f t R).errIE = s.errIE := rfl
@[simp] theorem State.setSlotVals_tags (p : Slot) (f : Coeffs) (t : Tag) (R : Radix) : (s.setSlotVals p f t R).tags = s.tags.set p.val t := rfl
@[simp] theorem State.setSlotVals_fregs (p : Slot) (f : Coeffs) (t : Tag) (R : Radix) : (s.setSlotVals p f t R).fregs = s.fregs := rfl
@[simp] theorem State.setSlotVals_slots (p : Slot) (f : Coeffs) (t : Tag) (R : Radix) : (s.setSlotVals p f t R).slots = s.slots.set p.val (polyMont f R) := rfl
@[simp] theorem State.setSlotVals_buf (p : Slot) (f : Coeffs) (t : Tag) (R : Radix) : (s.setSlotVals p f t R).buf = s.buf := rfl
@[simp] theorem State.setSlotVals_scratch (p : Slot) (f : Coeffs) (t : Tag) (R : Radix) : (s.setSlotVals p f t R).scratch = s.scratch := rfl
@[simp] theorem State.setSlotVals_script (p : Slot) (f : Coeffs) (t : Tag) (R : Radix) : (s.setSlotVals p f t R).script = s.script := rfl
@[simp] theorem State.setSlotVals_rdata (p : Slot) (f : Coeffs) (t : Tag) (R : Radix) : (s.setSlotVals p f t R).rdata = s.rdata := rfl
@[simp] theorem State.setSlotVals_randPos (p : Slot) (f : Coeffs) (t : Tag) (R : Radix) : (s.setSlotVals p f t R).randPos = s.randPos := rfl
@[simp] theorem State.setSlotVals_freeDraws (p : Slot) (f : Coeffs) (t : Tag) (R : Radix) : (s.setSlotVals p f t R).freeDraws = s.freeDraws := rfl

/-! ### dropWrite -/

@[simp] theorem State.dropWrite_level : (s.dropWrite).level = s.level := rfl
@[simp] theorem State.dropWrite_detrng : (s.dropWrite).detrng = s.detrng := rfl
@[simp] theorem State.dropWrite_phase : (s.dropWrite).phase = s.phase := rfl
@[simp] theorem State.dropWrite_done : (s.dropWrite).done = s.done := rfl
@[simp] theorem State.dropWrite_err : (s.dropWrite).err = s.err := rfl
@[simp] theorem State.dropWrite_eqFlag : (s.dropWrite).eqFlag = s.eqFlag := rfl
@[simp] theorem State.dropWrite_cmdrej : (s.dropWrite).cmdrej = s.cmdrej := rfl
@[simp] theorem State.dropWrite_busyacc : (s.dropWrite).busyacc = true := rfl
@[simp] theorem State.dropWrite_badval : (s.dropWrite).badval = s.badval := rfl
@[simp] theorem State.dropWrite_errcode : (s.dropWrite).errcode = s.errcode := rfl
@[simp] theorem State.dropWrite_errcmd : (s.dropWrite).errcmd = s.errcmd := rfl
@[simp] theorem State.dropWrite_cmdcnt : (s.dropWrite).cmdcnt = s.cmdcnt := rfl
@[simp] theorem State.dropWrite_doneIE : (s.dropWrite).doneIE = s.doneIE := rfl
@[simp] theorem State.dropWrite_errIE : (s.dropWrite).errIE = s.errIE := rfl
@[simp] theorem State.dropWrite_tags : (s.dropWrite).tags = s.tags := rfl
@[simp] theorem State.dropWrite_fregs : (s.dropWrite).fregs = s.fregs := rfl
@[simp] theorem State.dropWrite_slots : (s.dropWrite).slots = s.slots := rfl
@[simp] theorem State.dropWrite_buf : (s.dropWrite).buf = s.buf := rfl
@[simp] theorem State.dropWrite_scratch : (s.dropWrite).scratch = s.scratch := rfl
@[simp] theorem State.dropWrite_script : (s.dropWrite).script = s.script := rfl
@[simp] theorem State.dropWrite_rdata : (s.dropWrite).rdata = s.rdata := rfl
@[simp] theorem State.dropWrite_randPos : (s.dropWrite).randPos = s.randPos := rfl
@[simp] theorem State.dropWrite_freeDraws : (s.dropWrite).freeDraws = s.freeDraws := rfl

/-! ### reportBadval -/

@[simp] theorem State.reportBadval_level : (s.reportBadval).level = s.level := rfl
@[simp] theorem State.reportBadval_detrng : (s.reportBadval).detrng = s.detrng := rfl
@[simp] theorem State.reportBadval_phase : (s.reportBadval).phase = s.phase := rfl
@[simp] theorem State.reportBadval_done : (s.reportBadval).done = s.done := rfl
@[simp] theorem State.reportBadval_err : (s.reportBadval).err = s.err := rfl
@[simp] theorem State.reportBadval_eqFlag : (s.reportBadval).eqFlag = s.eqFlag := rfl
@[simp] theorem State.reportBadval_cmdrej : (s.reportBadval).cmdrej = s.cmdrej := rfl
@[simp] theorem State.reportBadval_busyacc : (s.reportBadval).busyacc = s.busyacc := rfl
@[simp] theorem State.reportBadval_badval : (s.reportBadval).badval = true := rfl
@[simp] theorem State.reportBadval_errcode : (s.reportBadval).errcode = s.errcode := rfl
@[simp] theorem State.reportBadval_errcmd : (s.reportBadval).errcmd = s.errcmd := rfl
@[simp] theorem State.reportBadval_cmdcnt : (s.reportBadval).cmdcnt = s.cmdcnt := rfl
@[simp] theorem State.reportBadval_doneIE : (s.reportBadval).doneIE = s.doneIE := rfl
@[simp] theorem State.reportBadval_errIE : (s.reportBadval).errIE = s.errIE := rfl
@[simp] theorem State.reportBadval_tags : (s.reportBadval).tags = s.tags := rfl
@[simp] theorem State.reportBadval_fregs : (s.reportBadval).fregs = s.fregs := rfl
@[simp] theorem State.reportBadval_slots : (s.reportBadval).slots = s.slots := rfl
@[simp] theorem State.reportBadval_buf : (s.reportBadval).buf = s.buf := rfl
@[simp] theorem State.reportBadval_scratch : (s.reportBadval).scratch = s.scratch := rfl
@[simp] theorem State.reportBadval_script : (s.reportBadval).script = s.script := rfl
@[simp] theorem State.reportBadval_rdata : (s.reportBadval).rdata = s.rdata := rfl
@[simp] theorem State.reportBadval_randPos : (s.reportBadval).randPos = s.randPos := rfl
@[simp] theorem State.reportBadval_freeDraws : (s.reportBadval).freeDraws = s.freeDraws := rfl

/-! ### writeCtrl -/

@[simp] theorem State.writeCtrl_level (d : Word) : (s.writeCtrl d).level = d.extractLsb' 0 2 := rfl
@[simp] theorem State.writeCtrl_detrng (d : Word) : (s.writeCtrl d).detrng = d.getLsbD 2 := rfl
@[simp] theorem State.writeCtrl_phase (d : Word) : (s.writeCtrl d).phase = s.phase := rfl
@[simp] theorem State.writeCtrl_done (d : Word) : (s.writeCtrl d).done = s.done := rfl
@[simp] theorem State.writeCtrl_err (d : Word) : (s.writeCtrl d).err = s.err := rfl
@[simp] theorem State.writeCtrl_eqFlag (d : Word) : (s.writeCtrl d).eqFlag = s.eqFlag := rfl
@[simp] theorem State.writeCtrl_cmdrej (d : Word) : (s.writeCtrl d).cmdrej = s.cmdrej := rfl
@[simp] theorem State.writeCtrl_busyacc (d : Word) : (s.writeCtrl d).busyacc = s.busyacc := rfl
@[simp] theorem State.writeCtrl_badval (d : Word) : (s.writeCtrl d).badval = s.badval := rfl
@[simp] theorem State.writeCtrl_errcode (d : Word) : (s.writeCtrl d).errcode = s.errcode := rfl
@[simp] theorem State.writeCtrl_errcmd (d : Word) : (s.writeCtrl d).errcmd = s.errcmd := rfl
@[simp] theorem State.writeCtrl_cmdcnt (d : Word) : (s.writeCtrl d).cmdcnt = s.cmdcnt := rfl
@[simp] theorem State.writeCtrl_doneIE (d : Word) : (s.writeCtrl d).doneIE = s.doneIE := rfl
@[simp] theorem State.writeCtrl_errIE (d : Word) : (s.writeCtrl d).errIE = s.errIE := rfl
@[simp] theorem State.writeCtrl_tags (d : Word) : (s.writeCtrl d).tags = s.tags := rfl
@[simp] theorem State.writeCtrl_fregs (d : Word) : (s.writeCtrl d).fregs = s.fregs := rfl
@[simp] theorem State.writeCtrl_slots (d : Word) : (s.writeCtrl d).slots = s.slots := rfl
@[simp] theorem State.writeCtrl_buf (d : Word) : (s.writeCtrl d).buf = s.buf := rfl
@[simp] theorem State.writeCtrl_scratch (d : Word) : (s.writeCtrl d).scratch = s.scratch := rfl
@[simp] theorem State.writeCtrl_script (d : Word) : (s.writeCtrl d).script = s.script := rfl
@[simp] theorem State.writeCtrl_rdata (d : Word) : (s.writeCtrl d).rdata = s.rdata := rfl
@[simp] theorem State.writeCtrl_randPos (d : Word) : (s.writeCtrl d).randPos = s.randPos := rfl
@[simp] theorem State.writeCtrl_freeDraws (d : Word) : (s.writeCtrl d).freeDraws = s.freeDraws := rfl

/-! ### writeIrqen -/

@[simp] theorem State.writeIrqen_level (d : Word) : (s.writeIrqen d).level = s.level := rfl
@[simp] theorem State.writeIrqen_detrng (d : Word) : (s.writeIrqen d).detrng = s.detrng := rfl
@[simp] theorem State.writeIrqen_phase (d : Word) : (s.writeIrqen d).phase = s.phase := rfl
@[simp] theorem State.writeIrqen_done (d : Word) : (s.writeIrqen d).done = s.done := rfl
@[simp] theorem State.writeIrqen_err (d : Word) : (s.writeIrqen d).err = s.err := rfl
@[simp] theorem State.writeIrqen_eqFlag (d : Word) : (s.writeIrqen d).eqFlag = s.eqFlag := rfl
@[simp] theorem State.writeIrqen_cmdrej (d : Word) : (s.writeIrqen d).cmdrej = s.cmdrej := rfl
@[simp] theorem State.writeIrqen_busyacc (d : Word) : (s.writeIrqen d).busyacc = s.busyacc := rfl
@[simp] theorem State.writeIrqen_badval (d : Word) : (s.writeIrqen d).badval = s.badval := rfl
@[simp] theorem State.writeIrqen_errcode (d : Word) : (s.writeIrqen d).errcode = s.errcode := rfl
@[simp] theorem State.writeIrqen_errcmd (d : Word) : (s.writeIrqen d).errcmd = s.errcmd := rfl
@[simp] theorem State.writeIrqen_cmdcnt (d : Word) : (s.writeIrqen d).cmdcnt = s.cmdcnt := rfl
@[simp] theorem State.writeIrqen_doneIE (d : Word) : (s.writeIrqen d).doneIE = d.getLsbD 0 := rfl
@[simp] theorem State.writeIrqen_errIE (d : Word) : (s.writeIrqen d).errIE = d.getLsbD 1 := rfl
@[simp] theorem State.writeIrqen_tags (d : Word) : (s.writeIrqen d).tags = s.tags := rfl
@[simp] theorem State.writeIrqen_fregs (d : Word) : (s.writeIrqen d).fregs = s.fregs := rfl
@[simp] theorem State.writeIrqen_slots (d : Word) : (s.writeIrqen d).slots = s.slots := rfl
@[simp] theorem State.writeIrqen_buf (d : Word) : (s.writeIrqen d).buf = s.buf := rfl
@[simp] theorem State.writeIrqen_scratch (d : Word) : (s.writeIrqen d).scratch = s.scratch := rfl
@[simp] theorem State.writeIrqen_script (d : Word) : (s.writeIrqen d).script = s.script := rfl
@[simp] theorem State.writeIrqen_rdata (d : Word) : (s.writeIrqen d).rdata = s.rdata := rfl
@[simp] theorem State.writeIrqen_randPos (d : Word) : (s.writeIrqen d).randPos = s.randPos := rfl
@[simp] theorem State.writeIrqen_freeDraws (d : Word) : (s.writeIrqen d).freeDraws = s.freeDraws := rfl

/-! ### writeTag -/

@[simp] theorem State.writeTag_level (d : Word) : (s.writeTag d).level = s.level := rfl
@[simp] theorem State.writeTag_detrng (d : Word) : (s.writeTag d).detrng = s.detrng := rfl
@[simp] theorem State.writeTag_phase (d : Word) : (s.writeTag d).phase = s.phase := rfl
@[simp] theorem State.writeTag_done (d : Word) : (s.writeTag d).done = s.done := rfl
@[simp] theorem State.writeTag_err (d : Word) : (s.writeTag d).err = s.err := rfl
@[simp] theorem State.writeTag_eqFlag (d : Word) : (s.writeTag d).eqFlag = s.eqFlag := rfl
@[simp] theorem State.writeTag_cmdrej (d : Word) : (s.writeTag d).cmdrej = s.cmdrej := rfl
@[simp] theorem State.writeTag_busyacc (d : Word) : (s.writeTag d).busyacc = s.busyacc := rfl
@[simp] theorem State.writeTag_badval (d : Word) : (s.writeTag d).badval = s.badval := rfl
@[simp] theorem State.writeTag_errcode (d : Word) : (s.writeTag d).errcode = s.errcode := rfl
@[simp] theorem State.writeTag_errcmd (d : Word) : (s.writeTag d).errcmd = s.errcmd := rfl
@[simp] theorem State.writeTag_cmdcnt (d : Word) : (s.writeTag d).cmdcnt = s.cmdcnt := rfl
@[simp] theorem State.writeTag_doneIE (d : Word) : (s.writeTag d).doneIE = s.doneIE := rfl
@[simp] theorem State.writeTag_errIE (d : Word) : (s.writeTag d).errIE = s.errIE := rfl
@[simp] theorem State.writeTag_fregs (d : Word) : (s.writeTag d).fregs = s.fregs := rfl
@[simp] theorem State.writeTag_slots (d : Word) : (s.writeTag d).slots = s.slots := rfl
@[simp] theorem State.writeTag_buf (d : Word) : (s.writeTag d).buf = s.buf := rfl
@[simp] theorem State.writeTag_scratch (d : Word) : (s.writeTag d).scratch = s.scratch := rfl
@[simp] theorem State.writeTag_script (d : Word) : (s.writeTag d).script = s.script := rfl
@[simp] theorem State.writeTag_rdata (d : Word) : (s.writeTag d).rdata = s.rdata := rfl
@[simp] theorem State.writeTag_randPos (d : Word) : (s.writeTag d).randPos = s.randPos := rfl
@[simp] theorem State.writeTag_freeDraws (d : Word) : (s.writeTag d).freeDraws = s.freeDraws := rfl

/-! ### writeStatus -/

@[simp] theorem State.writeStatus_level (d : Word) : (s.writeStatus d).level = s.level := by
  unfold State.writeStatus; split <;> rfl
@[simp] theorem State.writeStatus_detrng (d : Word) : (s.writeStatus d).detrng = s.detrng := by
  unfold State.writeStatus; split <;> rfl
@[simp] theorem State.writeStatus_phase (d : Word) : (s.writeStatus d).phase = s.phase := by
  unfold State.writeStatus; split <;> rfl
@[simp] theorem State.writeStatus_done (d : Word) : (s.writeStatus d).done = (s.done && !d.getLsbD 1) := by
  unfold State.writeStatus; split <;> rfl
@[simp] theorem State.writeStatus_eqFlag (d : Word) : (s.writeStatus d).eqFlag = s.eqFlag := by
  unfold State.writeStatus; split <;> rfl
@[simp] theorem State.writeStatus_cmdrej (d : Word) : (s.writeStatus d).cmdrej = (s.cmdrej && !d.getLsbD 4) := by
  unfold State.writeStatus; split <;> rfl
@[simp] theorem State.writeStatus_busyacc (d : Word) : (s.writeStatus d).busyacc = (s.busyacc && !d.getLsbD 5) := by
  unfold State.writeStatus; split <;> rfl
@[simp] theorem State.writeStatus_badval (d : Word) : (s.writeStatus d).badval = (s.badval && !d.getLsbD 6) := by
  unfold State.writeStatus; split <;> rfl
@[simp] theorem State.writeStatus_errcode (d : Word) : (s.writeStatus d).errcode = s.errcode := by
  unfold State.writeStatus; split <;> rfl
@[simp] theorem State.writeStatus_errcmd (d : Word) : (s.writeStatus d).errcmd = s.errcmd := by
  unfold State.writeStatus; split <;> rfl
@[simp] theorem State.writeStatus_cmdcnt (d : Word) : (s.writeStatus d).cmdcnt = s.cmdcnt := by
  unfold State.writeStatus; split <;> rfl
@[simp] theorem State.writeStatus_doneIE (d : Word) : (s.writeStatus d).doneIE = s.doneIE := by
  unfold State.writeStatus; split <;> rfl
@[simp] theorem State.writeStatus_errIE (d : Word) : (s.writeStatus d).errIE = s.errIE := by
  unfold State.writeStatus; split <;> rfl
@[simp] theorem State.writeStatus_tags (d : Word) : (s.writeStatus d).tags = s.tags := by
  unfold State.writeStatus; split <;> rfl
@[simp] theorem State.writeStatus_fregs (d : Word) : (s.writeStatus d).fregs = s.fregs := by
  unfold State.writeStatus; split <;> rfl
@[simp] theorem State.writeStatus_slots (d : Word) : (s.writeStatus d).slots = s.slots := by
  unfold State.writeStatus; split <;> rfl
@[simp] theorem State.writeStatus_buf (d : Word) : (s.writeStatus d).buf = s.buf := by
  unfold State.writeStatus; split <;> rfl
@[simp] theorem State.writeStatus_scratch (d : Word) : (s.writeStatus d).scratch = s.scratch := by
  unfold State.writeStatus; split <;> rfl
@[simp] theorem State.writeStatus_script (d : Word) : (s.writeStatus d).script = s.script := by
  unfold State.writeStatus; split <;> rfl
@[simp] theorem State.writeStatus_rdata (d : Word) : (s.writeStatus d).rdata = s.rdata := by
  unfold State.writeStatus; split <;> rfl
@[simp] theorem State.writeStatus_randPos (d : Word) : (s.writeStatus d).randPos = s.randPos := by
  unfold State.writeStatus; split <;> rfl
@[simp] theorem State.writeStatus_freeDraws (d : Word) : (s.writeStatus d).freeDraws = s.freeDraws := by
  unfold State.writeStatus; split <;> rfl

/-! ### keepDraws -/

@[simp] theorem State.keepDraws_level (a : Nat) (bs : List Byte) : (s.keepDraws a bs).level = s.level := by
  unfold State.keepDraws; split <;> rfl
@[simp] theorem State.keepDraws_detrng (a : Nat) (bs : List Byte) : (s.keepDraws a bs).detrng = s.detrng := by
  unfold State.keepDraws; split <;> rfl
@[simp] theorem State.keepDraws_phase (a : Nat) (bs : List Byte) : (s.keepDraws a bs).phase = s.phase := by
  unfold State.keepDraws; split <;> rfl
@[simp] theorem State.keepDraws_done (a : Nat) (bs : List Byte) : (s.keepDraws a bs).done = s.done := by
  unfold State.keepDraws; split <;> rfl
@[simp] theorem State.keepDraws_err (a : Nat) (bs : List Byte) : (s.keepDraws a bs).err = s.err := by
  unfold State.keepDraws; split <;> rfl
@[simp] theorem State.keepDraws_eqFlag (a : Nat) (bs : List Byte) : (s.keepDraws a bs).eqFlag = s.eqFlag := by
  unfold State.keepDraws; split <;> rfl
@[simp] theorem State.keepDraws_cmdrej (a : Nat) (bs : List Byte) : (s.keepDraws a bs).cmdrej = s.cmdrej := by
  unfold State.keepDraws; split <;> rfl
@[simp] theorem State.keepDraws_busyacc (a : Nat) (bs : List Byte) : (s.keepDraws a bs).busyacc = s.busyacc := by
  unfold State.keepDraws; split <;> rfl
@[simp] theorem State.keepDraws_badval (a : Nat) (bs : List Byte) : (s.keepDraws a bs).badval = s.badval := by
  unfold State.keepDraws; split <;> rfl
@[simp] theorem State.keepDraws_errcode (a : Nat) (bs : List Byte) : (s.keepDraws a bs).errcode = s.errcode := by
  unfold State.keepDraws; split <;> rfl
@[simp] theorem State.keepDraws_errcmd (a : Nat) (bs : List Byte) : (s.keepDraws a bs).errcmd = s.errcmd := by
  unfold State.keepDraws; split <;> rfl
@[simp] theorem State.keepDraws_cmdcnt (a : Nat) (bs : List Byte) : (s.keepDraws a bs).cmdcnt = s.cmdcnt := by
  unfold State.keepDraws; split <;> rfl
@[simp] theorem State.keepDraws_doneIE (a : Nat) (bs : List Byte) : (s.keepDraws a bs).doneIE = s.doneIE := by
  unfold State.keepDraws; split <;> rfl
@[simp] theorem State.keepDraws_errIE (a : Nat) (bs : List Byte) : (s.keepDraws a bs).errIE = s.errIE := by
  unfold State.keepDraws; split <;> rfl
@[simp] theorem State.keepDraws_tags (a : Nat) (bs : List Byte) : (s.keepDraws a bs).tags = s.tags := by
  unfold State.keepDraws; split <;> rfl
@[simp] theorem State.keepDraws_fregs (a : Nat) (bs : List Byte) : (s.keepDraws a bs).fregs = s.fregs := by
  unfold State.keepDraws; split <;> rfl
@[simp] theorem State.keepDraws_slots (a : Nat) (bs : List Byte) : (s.keepDraws a bs).slots = s.slots := by
  unfold State.keepDraws; split <;> rfl
@[simp] theorem State.keepDraws_scratch (a : Nat) (bs : List Byte) : (s.keepDraws a bs).scratch = s.scratch := by
  unfold State.keepDraws; split <;> rfl
@[simp] theorem State.keepDraws_script (a : Nat) (bs : List Byte) : (s.keepDraws a bs).script = s.script := by
  unfold State.keepDraws; split <;> rfl
@[simp] theorem State.keepDraws_rdata (a : Nat) (bs : List Byte) : (s.keepDraws a bs).rdata = s.rdata := by
  unfold State.keepDraws; split <;> rfl
@[simp] theorem State.keepDraws_freeDraws (a : Nat) (bs : List Byte) : (s.keepDraws a bs).freeDraws = s.freeDraws := by
  unfold State.keepDraws; split <;> rfl

/-! ### zeroData -/

@[simp] theorem State.zeroData_level : (s.zeroData).level = s.level := rfl
@[simp] theorem State.zeroData_detrng : (s.zeroData).detrng = s.detrng := rfl
@[simp] theorem State.zeroData_phase : (s.zeroData).phase = s.phase := rfl
@[simp] theorem State.zeroData_done : (s.zeroData).done = s.done := rfl
@[simp] theorem State.zeroData_err : (s.zeroData).err = s.err := rfl
@[simp] theorem State.zeroData_eqFlag : (s.zeroData).eqFlag = false := rfl
@[simp] theorem State.zeroData_cmdrej : (s.zeroData).cmdrej = s.cmdrej := rfl
@[simp] theorem State.zeroData_busyacc : (s.zeroData).busyacc = s.busyacc := rfl
@[simp] theorem State.zeroData_badval : (s.zeroData).badval = s.badval := rfl
@[simp] theorem State.zeroData_errcode : (s.zeroData).errcode = s.errcode := rfl
@[simp] theorem State.zeroData_errcmd : (s.zeroData).errcmd = s.errcmd := rfl
@[simp] theorem State.zeroData_cmdcnt : (s.zeroData).cmdcnt = s.cmdcnt := rfl
@[simp] theorem State.zeroData_doneIE : (s.zeroData).doneIE = s.doneIE := rfl
@[simp] theorem State.zeroData_errIE : (s.zeroData).errIE = s.errIE := rfl
@[simp] theorem State.zeroData_tags : (s.zeroData).tags = State.reset.tags := rfl
@[simp] theorem State.zeroData_fregs : (s.zeroData).fregs = State.reset.fregs := rfl
@[simp] theorem State.zeroData_slots : (s.zeroData).slots = State.reset.slots := rfl
@[simp] theorem State.zeroData_buf : (s.zeroData).buf = [] := rfl
@[simp] theorem State.zeroData_scratch : (s.zeroData).scratch = [] := rfl
@[simp] theorem State.zeroData_script : (s.zeroData).script = s.script := rfl
@[simp] theorem State.zeroData_rdata : (s.zeroData).rdata = s.rdata := rfl
@[simp] theorem State.zeroData_randPos : (s.zeroData).randPos = s.randPos := rfl
@[simp] theorem State.zeroData_freeDraws : (s.zeroData).freeDraws = s.freeDraws := rfl

/-- A STATUS write leaves ERR as it was, or clears it where the word has bit 2 (R33, R372). -/
@[simp] theorem State.writeStatus_err (d : Word) : (s.writeStatus d).err = (s.err && !d.getLsbD 2) := by
  unfold State.writeStatus; split <;> simp_all

/-! ## The running command after an update -/

@[simp] theorem State.setFreg_cmdWord (i : FReg) (w : Raw) : (s.setFreg i w).cmdWord = s.cmdWord := rfl
@[simp] theorem State.setFreg_latchedLevel (i : FReg) (w : Raw) : (s.setFreg i w).latchedLevel = s.latchedLevel := rfl
@[simp] theorem State.setFreg_latchedDetrng (i : FReg) (w : Raw) : (s.setFreg i w).latchedDetrng = s.latchedDetrng := rfl
@[simp] theorem State.setFreg_attempt (i : FReg) (w : Raw) : (s.setFreg i w).attempt = s.attempt := rfl
@[simp] theorem State.setFreg_busy (i : FReg) (w : Raw) : (s.setFreg i w).busy = s.busy := rfl
@[simp] theorem State.setFreg_budget (i : FReg) (w : Raw) : (s.setFreg i w).budget = s.budget := rfl
@[simp] theorem State.setSlot_cmdWord (p : Slot) (f : Poly) (t : Tag) : (s.setSlot p f t).cmdWord = s.cmdWord := rfl
@[simp] theorem State.setSlot_latchedLevel (p : Slot) (f : Poly) (t : Tag) : (s.setSlot p f t).latchedLevel = s.latchedLevel := rfl
@[simp] theorem State.setSlot_latchedDetrng (p : Slot) (f : Poly) (t : Tag) : (s.setSlot p f t).latchedDetrng = s.latchedDetrng := rfl
@[simp] theorem State.setSlot_attempt (p : Slot) (f : Poly) (t : Tag) : (s.setSlot p f t).attempt = s.attempt := rfl
@[simp] theorem State.setSlot_busy (p : Slot) (f : Poly) (t : Tag) : (s.setSlot p f t).busy = s.busy := rfl
@[simp] theorem State.setSlot_budget (p : Slot) (f : Poly) (t : Tag) : (s.setSlot p f t).budget = s.budget := rfl
@[simp] theorem State.setSlotWord_cmdWord (p : Slot) (j : Fin 256) (w : Raw) : (s.setSlotWord p j w).cmdWord = s.cmdWord := rfl
@[simp] theorem State.setSlotWord_latchedLevel (p : Slot) (j : Fin 256) (w : Raw) : (s.setSlotWord p j w).latchedLevel = s.latchedLevel := rfl
@[simp] theorem State.setSlotWord_latchedDetrng (p : Slot) (j : Fin 256) (w : Raw) : (s.setSlotWord p j w).latchedDetrng = s.latchedDetrng := rfl
@[simp] theorem State.setSlotWord_attempt (p : Slot) (j : Fin 256) (w : Raw) : (s.setSlotWord p j w).attempt = s.attempt := rfl
@[simp] theorem State.setSlotWord_busy (p : Slot) (j : Fin 256) (w : Raw) : (s.setSlotWord p j w).busy = s.busy := rfl
@[simp] theorem State.setSlotWord_budget (p : Slot) (j : Fin 256) (w : Raw) : (s.setSlotWord p j w).budget = s.budget := rfl
@[simp] theorem State.writeBuf_cmdWord (a : Nat) (bs : List Byte) : (s.writeBuf a bs).cmdWord = s.cmdWord := rfl
@[simp] theorem State.writeBuf_latchedLevel (a : Nat) (bs : List Byte) : (s.writeBuf a bs).latchedLevel = s.latchedLevel := rfl
@[simp] theorem State.writeBuf_latchedDetrng (a : Nat) (bs : List Byte) : (s.writeBuf a bs).latchedDetrng = s.latchedDetrng := rfl
@[simp] theorem State.writeBuf_attempt (a : Nat) (bs : List Byte) : (s.writeBuf a bs).attempt = s.attempt := rfl
@[simp] theorem State.writeBuf_busy (a : Nat) (bs : List Byte) : (s.writeBuf a bs).busy = s.busy := rfl
@[simp] theorem State.writeBuf_budget (a : Nat) (bs : List Byte) : (s.writeBuf a bs).budget = s.budget := rfl
@[simp] theorem State.setEq_cmdWord (b : Bool) : (s.setEq b).cmdWord = s.cmdWord := rfl
@[simp] theorem State.setEq_latchedLevel (b : Bool) : (s.setEq b).latchedLevel = s.latchedLevel := rfl
@[simp] theorem State.setEq_latchedDetrng (b : Bool) : (s.setEq b).latchedDetrng = s.latchedDetrng := rfl
@[simp] theorem State.setEq_attempt (b : Bool) : (s.setEq b).attempt = s.attempt := rfl
@[simp] theorem State.setEq_busy (b : Bool) : (s.setEq b).busy = s.busy := rfl
@[simp] theorem State.setEq_budget (b : Bool) : (s.setEq b).budget = s.budget := rfl
@[simp] theorem State.clearScratch_cmdWord : (s.clearScratch).cmdWord = s.cmdWord := rfl
@[simp] theorem State.clearScratch_latchedLevel : (s.clearScratch).latchedLevel = s.latchedLevel := rfl
@[simp] theorem State.clearScratch_latchedDetrng : (s.clearScratch).latchedDetrng = s.latchedDetrng := rfl
@[simp] theorem State.clearScratch_attempt : (s.clearScratch).attempt = s.attempt := rfl
@[simp] theorem State.clearScratch_busy : (s.clearScratch).busy = s.busy := rfl
@[simp] theorem State.clearScratch_budget : (s.clearScratch).budget = s.budget := rfl
@[simp] theorem State.setRandPos_cmdWord (n : Nat) : (s.setRandPos n).cmdWord = s.cmdWord := rfl
@[simp] theorem State.setRandPos_latchedLevel (n : Nat) : (s.setRandPos n).latchedLevel = s.latchedLevel := rfl
@[simp] theorem State.setRandPos_latchedDetrng (n : Nat) : (s.setRandPos n).latchedDetrng = s.latchedDetrng := rfl
@[simp] theorem State.setRandPos_attempt (n : Nat) : (s.setRandPos n).attempt = s.attempt := rfl
@[simp] theorem State.setRandPos_busy (n : Nat) : (s.setRandPos n).busy = s.busy := rfl
@[simp] theorem State.setRandPos_budget (n : Nat) : (s.setRandPos n).budget = s.budget := rfl
@[simp] theorem State.leaveFault_cmdWord : (s.leaveFault).cmdWord = s.cmdWord := rfl
@[simp] theorem State.leaveFault_latchedLevel : (s.leaveFault).latchedLevel = s.latchedLevel := rfl
@[simp] theorem State.leaveFault_latchedDetrng : (s.leaveFault).latchedDetrng = s.latchedDetrng := rfl
@[simp] theorem State.leaveFault_attempt : (s.leaveFault).attempt = s.attempt := rfl
@[simp] theorem State.leaveFault_busy : (s.leaveFault).busy = s.busy := rfl
@[simp] theorem State.leaveFault_budget : (s.leaveFault).budget = s.budget := rfl
@[simp] theorem State.setFval_cmdWord (i : FReg) (a : Nat) (R : Radix) : (s.setFval i a R).cmdWord = s.cmdWord := rfl
@[simp] theorem State.setFval_latchedLevel (i : FReg) (a : Nat) (R : Radix) : (s.setFval i a R).latchedLevel = s.latchedLevel := rfl
@[simp] theorem State.setFval_latchedDetrng (i : FReg) (a : Nat) (R : Radix) : (s.setFval i a R).latchedDetrng = s.latchedDetrng := rfl
@[simp] theorem State.setFval_attempt (i : FReg) (a : Nat) (R : Radix) : (s.setFval i a R).attempt = s.attempt := rfl
@[simp] theorem State.setFval_busy (i : FReg) (a : Nat) (R : Radix) : (s.setFval i a R).busy = s.busy := rfl
@[simp] theorem State.setFval_budget (i : FReg) (a : Nat) (R : Radix) : (s.setFval i a R).budget = s.budget := rfl
@[simp] theorem State.setSlotVals_cmdWord (p : Slot) (f : Coeffs) (t : Tag) (R : Radix) : (s.setSlotVals p f t R).cmdWord = s.cmdWord := rfl
@[simp] theorem State.setSlotVals_latchedLevel (p : Slot) (f : Coeffs) (t : Tag) (R : Radix) : (s.setSlotVals p f t R).latchedLevel = s.latchedLevel := rfl
@[simp] theorem State.setSlotVals_latchedDetrng (p : Slot) (f : Coeffs) (t : Tag) (R : Radix) : (s.setSlotVals p f t R).latchedDetrng = s.latchedDetrng := rfl
@[simp] theorem State.setSlotVals_attempt (p : Slot) (f : Coeffs) (t : Tag) (R : Radix) : (s.setSlotVals p f t R).attempt = s.attempt := rfl
@[simp] theorem State.setSlotVals_busy (p : Slot) (f : Coeffs) (t : Tag) (R : Radix) : (s.setSlotVals p f t R).busy = s.busy := rfl
@[simp] theorem State.setSlotVals_budget (p : Slot) (f : Coeffs) (t : Tag) (R : Radix) : (s.setSlotVals p f t R).budget = s.budget := rfl
@[simp] theorem State.dropWrite_cmdWord : (s.dropWrite).cmdWord = s.cmdWord := rfl
@[simp] theorem State.dropWrite_latchedLevel : (s.dropWrite).latchedLevel = s.latchedLevel := rfl
@[simp] theorem State.dropWrite_latchedDetrng : (s.dropWrite).latchedDetrng = s.latchedDetrng := rfl
@[simp] theorem State.dropWrite_attempt : (s.dropWrite).attempt = s.attempt := rfl
@[simp] theorem State.dropWrite_busy : (s.dropWrite).busy = s.busy := rfl
@[simp] theorem State.dropWrite_budget : (s.dropWrite).budget = s.budget := rfl
@[simp] theorem State.reportBadval_cmdWord : (s.reportBadval).cmdWord = s.cmdWord := rfl
@[simp] theorem State.reportBadval_latchedLevel : (s.reportBadval).latchedLevel = s.latchedLevel := rfl
@[simp] theorem State.reportBadval_latchedDetrng : (s.reportBadval).latchedDetrng = s.latchedDetrng := rfl
@[simp] theorem State.reportBadval_attempt : (s.reportBadval).attempt = s.attempt := rfl
@[simp] theorem State.reportBadval_busy : (s.reportBadval).busy = s.busy := rfl
@[simp] theorem State.reportBadval_budget : (s.reportBadval).budget = s.budget := rfl
@[simp] theorem State.writeCtrl_cmdWord (d : Word) : (s.writeCtrl d).cmdWord = s.cmdWord := rfl
@[simp] theorem State.writeCtrl_attempt (d : Word) : (s.writeCtrl d).attempt = s.attempt := rfl
@[simp] theorem State.writeCtrl_busy (d : Word) : (s.writeCtrl d).busy = s.busy := rfl
@[simp] theorem State.writeCtrl_budget (d : Word) : (s.writeCtrl d).budget = s.budget := rfl
@[simp] theorem State.writeIrqen_cmdWord (d : Word) : (s.writeIrqen d).cmdWord = s.cmdWord := rfl
@[simp] theorem State.writeIrqen_latchedLevel (d : Word) : (s.writeIrqen d).latchedLevel = s.latchedLevel := rfl
@[simp] theorem State.writeIrqen_latchedDetrng (d : Word) : (s.writeIrqen d).latchedDetrng = s.latchedDetrng := rfl
@[simp] theorem State.writeIrqen_attempt (d : Word) : (s.writeIrqen d).attempt = s.attempt := rfl
@[simp] theorem State.writeIrqen_busy (d : Word) : (s.writeIrqen d).busy = s.busy := rfl
@[simp] theorem State.writeIrqen_budget (d : Word) : (s.writeIrqen d).budget = s.budget := rfl
@[simp] theorem State.writeTag_cmdWord (d : Word) : (s.writeTag d).cmdWord = s.cmdWord := rfl
@[simp] theorem State.writeTag_latchedLevel (d : Word) : (s.writeTag d).latchedLevel = s.latchedLevel := rfl
@[simp] theorem State.writeTag_latchedDetrng (d : Word) : (s.writeTag d).latchedDetrng = s.latchedDetrng := rfl
@[simp] theorem State.writeTag_attempt (d : Word) : (s.writeTag d).attempt = s.attempt := rfl
@[simp] theorem State.writeTag_busy (d : Word) : (s.writeTag d).busy = s.busy := rfl
@[simp] theorem State.writeTag_budget (d : Word) : (s.writeTag d).budget = s.budget := rfl
@[simp] theorem State.writeStatus_cmdWord (d : Word) : (s.writeStatus d).cmdWord = s.cmdWord := by
  unfold State.writeStatus; split <;> rfl
@[simp] theorem State.writeStatus_latchedLevel (d : Word) : (s.writeStatus d).latchedLevel = s.latchedLevel := by
  unfold State.writeStatus; split <;> rfl
@[simp] theorem State.writeStatus_latchedDetrng (d : Word) : (s.writeStatus d).latchedDetrng = s.latchedDetrng := by
  unfold State.writeStatus; split <;> rfl
@[simp] theorem State.writeStatus_attempt (d : Word) : (s.writeStatus d).attempt = s.attempt := by
  unfold State.writeStatus; split <;> rfl
@[simp] theorem State.writeStatus_busy (d : Word) : (s.writeStatus d).busy = s.busy := by
  unfold State.writeStatus; split <;> rfl
@[simp] theorem State.writeStatus_budget (d : Word) : (s.writeStatus d).budget = s.budget := by
  unfold State.writeStatus; split <;> rfl
@[simp] theorem State.keepDraws_cmdWord (a : Nat) (bs : List Byte) : (s.keepDraws a bs).cmdWord = s.cmdWord := by
  unfold State.keepDraws; split <;> rfl
@[simp] theorem State.keepDraws_latchedLevel (a : Nat) (bs : List Byte) : (s.keepDraws a bs).latchedLevel = s.latchedLevel := by
  unfold State.keepDraws; split <;> rfl
@[simp] theorem State.keepDraws_latchedDetrng (a : Nat) (bs : List Byte) : (s.keepDraws a bs).latchedDetrng = s.latchedDetrng := by
  unfold State.keepDraws; split <;> rfl
@[simp] theorem State.keepDraws_attempt (a : Nat) (bs : List Byte) : (s.keepDraws a bs).attempt = s.attempt := by
  unfold State.keepDraws; split <;> rfl
@[simp] theorem State.keepDraws_busy (a : Nat) (bs : List Byte) : (s.keepDraws a bs).busy = s.busy := by
  unfold State.keepDraws; split <;> rfl
@[simp] theorem State.keepDraws_budget (a : Nat) (bs : List Byte) : (s.keepDraws a bs).budget = s.budget := by
  unfold State.keepDraws; split <;> rfl
@[simp] theorem State.zeroData_cmdWord : (s.zeroData).cmdWord = s.cmdWord := rfl
@[simp] theorem State.zeroData_latchedLevel : (s.zeroData).latchedLevel = s.latchedLevel := rfl
@[simp] theorem State.zeroData_latchedDetrng : (s.zeroData).latchedDetrng = s.latchedDetrng := rfl
@[simp] theorem State.zeroData_attempt : (s.zeroData).attempt = s.attempt := rfl
@[simp] theorem State.zeroData_busy : (s.zeroData).busy = s.busy := rfl
@[simp] theorem State.zeroData_budget : (s.zeroData).budget = s.budget := rfl

@[simp] theorem State.complete_busy : s.complete.busy = false := rfl
@[simp] theorem State.takeFault_busy (c : FaultCode) : (s.takeFault c).busy = false := rfl
@[simp] theorem State.accept_busy (w : Word) : (s.accept w).busy = true := rfl
@[simp] theorem State.accept_cmdWord (w : Word) : (s.accept w).cmdWord = w := rfl
@[simp] theorem State.accept_latchedLevel (w : Word) : (s.accept w).latchedLevel = s.level := rfl
@[simp] theorem State.accept_latchedDetrng (w : Word) : (s.accept w).latchedDetrng = s.detrng := rfl
@[simp] theorem State.accept_attempt (w : Word) : (s.accept w).attempt = 0 := rfl

/-- A running command that does not complete stays the same command, one unit step further. -/
theorem State.keepBusy_of_running {p : Pending} (h : s.phase = .running p) :
    s.keepBusy = { s with phase := .running { p with attempt := p.attempt + 1 } } := by
  simp [State.keepBusy, h]

@[simp] theorem State.keepBusy_busy : s.keepBusy.busy = s.busy := by
  cases h : s.phase <;> simp [State.keepBusy, State.busy, h]

@[simp] theorem State.keepBusy_cmdWord : s.keepBusy.cmdWord = s.cmdWord := by
  cases h : s.phase <;> simp [State.keepBusy, State.cmdWord, h]

@[simp] theorem State.keepBusy_latchedLevel : s.keepBusy.latchedLevel = s.latchedLevel := by
  cases h : s.phase <;> simp [State.keepBusy, State.latchedLevel, h]

@[simp] theorem State.keepBusy_latchedDetrng : s.keepBusy.latchedDetrng = s.latchedDetrng := by
  cases h : s.phase <;> simp [State.keepBusy, State.latchedDetrng, h]

/-! ## The stores after an update -/

@[simp] theorem State.setFreg_slot (i : FReg) (w : Raw) (p' : Slot) : (s.setFreg i w).slot p' = s.slot p' := rfl
@[simp] theorem State.setFreg_tag (i : FReg) (w : Raw) (p' : Slot) : (s.setFreg i w).tag p' = s.tag p' := rfl
@[simp] theorem State.setFreg_slotWord (i : FReg) (w : Raw) (p' : Slot) (j' : Fin 256) : (s.setFreg i w).slotWord p' j' = s.slotWord p' j' := rfl
@[simp] theorem State.setSlot_freg (p : Slot) (f : Poly) (t : Tag) (i' : FReg) : (s.setSlot p f t).freg i' = s.freg i' := rfl
@[simp] theorem State.setSlotWord_freg (p : Slot) (j : Fin 256) (w : Raw) (i' : FReg) : (s.setSlotWord p j w).freg i' = s.freg i' := rfl
@[simp] theorem State.setSlotWord_tag (p : Slot) (j : Fin 256) (w : Raw) (p' : Slot) : (s.setSlotWord p j w).tag p' = s.tag p' := rfl
@[simp] theorem State.writeBuf_freg (a : Nat) (bs : List Byte) (i' : FReg) : (s.writeBuf a bs).freg i' = s.freg i' := rfl
@[simp] theorem State.writeBuf_slot (a : Nat) (bs : List Byte) (p' : Slot) : (s.writeBuf a bs).slot p' = s.slot p' := rfl
@[simp] theorem State.writeBuf_tag (a : Nat) (bs : List Byte) (p' : Slot) : (s.writeBuf a bs).tag p' = s.tag p' := rfl
@[simp] theorem State.writeBuf_slotWord (a : Nat) (bs : List Byte) (p' : Slot) (j' : Fin 256) : (s.writeBuf a bs).slotWord p' j' = s.slotWord p' j' := rfl
@[simp] theorem State.setEq_freg (b : Bool) (i' : FReg) : (s.setEq b).freg i' = s.freg i' := rfl
@[simp] theorem State.setEq_slot (b : Bool) (p' : Slot) : (s.setEq b).slot p' = s.slot p' := rfl
@[simp] theorem State.setEq_tag (b : Bool) (p' : Slot) : (s.setEq b).tag p' = s.tag p' := rfl
@[simp] theorem State.setEq_slotWord (b : Bool) (p' : Slot) (j' : Fin 256) : (s.setEq b).slotWord p' j' = s.slotWord p' j' := rfl
@[simp] theorem State.clearScratch_freg (i' : FReg) : (s.clearScratch).freg i' = s.freg i' := rfl
@[simp] theorem State.clearScratch_slot (p' : Slot) : (s.clearScratch).slot p' = s.slot p' := rfl
@[simp] theorem State.clearScratch_tag (p' : Slot) : (s.clearScratch).tag p' = s.tag p' := rfl
@[simp] theorem State.clearScratch_slotWord (p' : Slot) (j' : Fin 256) : (s.clearScratch).slotWord p' j' = s.slotWord p' j' := rfl
@[simp] theorem State.setRandPos_freg (n : Nat) (i' : FReg) : (s.setRandPos n).freg i' = s.freg i' := rfl
@[simp] theorem State.setRandPos_slot (n : Nat) (p' : Slot) : (s.setRandPos n).slot p' = s.slot p' := rfl
@[simp] theorem State.setRandPos_tag (n : Nat) (p' : Slot) : (s.setRandPos n).tag p' = s.tag p' := rfl
@[simp] theorem State.setRandPos_slotWord (n : Nat) (p' : Slot) (j' : Fin 256) : (s.setRandPos n).slotWord p' j' = s.slotWord p' j' := rfl
@[simp] theorem State.complete_freg (i' : FReg) : (s.complete).freg i' = s.freg i' := rfl
@[simp] theorem State.complete_slot (p' : Slot) : (s.complete).slot p' = s.slot p' := rfl
@[simp] theorem State.complete_tag (p' : Slot) : (s.complete).tag p' = s.tag p' := rfl
@[simp] theorem State.complete_slotWord (p' : Slot) (j' : Fin 256) : (s.complete).slotWord p' j' = s.slotWord p' j' := rfl
@[simp] theorem State.takeFault_freg (c : FaultCode) (i' : FReg) : (s.takeFault c).freg i' = s.freg i' := rfl
@[simp] theorem State.takeFault_slot (c : FaultCode) (p' : Slot) : (s.takeFault c).slot p' = s.slot p' := rfl
@[simp] theorem State.takeFault_tag (c : FaultCode) (p' : Slot) : (s.takeFault c).tag p' = s.tag p' := rfl
@[simp] theorem State.takeFault_slotWord (c : FaultCode) (p' : Slot) (j' : Fin 256) : (s.takeFault c).slotWord p' j' = s.slotWord p' j' := rfl
@[simp] theorem State.leaveFault_freg (i' : FReg) : (s.leaveFault).freg i' = s.freg i' := rfl
@[simp] theorem State.leaveFault_slot (p' : Slot) : (s.leaveFault).slot p' = s.slot p' := rfl
@[simp] theorem State.leaveFault_tag (p' : Slot) : (s.leaveFault).tag p' = s.tag p' := rfl
@[simp] theorem State.leaveFault_slotWord (p' : Slot) (j' : Fin 256) : (s.leaveFault).slotWord p' j' = s.slotWord p' j' := rfl
@[simp] theorem State.accept_freg (w : Word) (i' : FReg) : (s.accept w).freg i' = s.freg i' := rfl
@[simp] theorem State.accept_slot (w : Word) (p' : Slot) : (s.accept w).slot p' = s.slot p' := rfl
@[simp] theorem State.accept_tag (w : Word) (p' : Slot) : (s.accept w).tag p' = s.tag p' := rfl
@[simp] theorem State.accept_slotWord (w : Word) (p' : Slot) (j' : Fin 256) : (s.accept w).slotWord p' j' = s.slotWord p' j' := rfl
@[simp] theorem State.endInit_freg (i' : FReg) : (s.endInit).freg i' = s.freg i' := rfl
@[simp] theorem State.endInit_slot (p' : Slot) : (s.endInit).slot p' = s.slot p' := rfl
@[simp] theorem State.endInit_tag (p' : Slot) : (s.endInit).tag p' = s.tag p' := rfl
@[simp] theorem State.endInit_slotWord (p' : Slot) (j' : Fin 256) : (s.endInit).slotWord p' j' = s.slotWord p' j' := rfl
@[simp] theorem State.keepBusy_freg (i' : FReg) : (s.keepBusy).freg i' = s.freg i' := by
  unfold State.keepBusy; split <;> rfl
@[simp] theorem State.keepBusy_slot (p' : Slot) : (s.keepBusy).slot p' = s.slot p' := by
  unfold State.keepBusy; split <;> rfl
@[simp] theorem State.keepBusy_tag (p' : Slot) : (s.keepBusy).tag p' = s.tag p' := by
  unfold State.keepBusy; split <;> rfl
@[simp] theorem State.keepBusy_slotWord (p' : Slot) (j' : Fin 256) : (s.keepBusy).slotWord p' j' = s.slotWord p' j' := by
  unfold State.keepBusy; split <;> rfl
@[simp] theorem State.setFval_slot (i : FReg) (a : Nat) (R : Radix) (p' : Slot) : (s.setFval i a R).slot p' = s.slot p' := rfl
@[simp] theorem State.setFval_tag (i : FReg) (a : Nat) (R : Radix) (p' : Slot) : (s.setFval i a R).tag p' = s.tag p' := rfl
@[simp] theorem State.setFval_slotWord (i : FReg) (a : Nat) (R : Radix) (p' : Slot) (j' : Fin 256) : (s.setFval i a R).slotWord p' j' = s.slotWord p' j' := rfl
@[simp] theorem State.setSlotVals_freg (p : Slot) (f : Coeffs) (t : Tag) (R : Radix) (i' : FReg) : (s.setSlotVals p f t R).freg i' = s.freg i' := rfl
@[simp] theorem State.dropWrite_freg (i' : FReg) : (s.dropWrite).freg i' = s.freg i' := rfl
@[simp] theorem State.dropWrite_slot (p' : Slot) : (s.dropWrite).slot p' = s.slot p' := rfl
@[simp] theorem State.dropWrite_tag (p' : Slot) : (s.dropWrite).tag p' = s.tag p' := rfl
@[simp] theorem State.dropWrite_slotWord (p' : Slot) (j' : Fin 256) : (s.dropWrite).slotWord p' j' = s.slotWord p' j' := rfl
@[simp] theorem State.reportBadval_freg (i' : FReg) : (s.reportBadval).freg i' = s.freg i' := rfl
@[simp] theorem State.reportBadval_slot (p' : Slot) : (s.reportBadval).slot p' = s.slot p' := rfl
@[simp] theorem State.reportBadval_tag (p' : Slot) : (s.reportBadval).tag p' = s.tag p' := rfl
@[simp] theorem State.reportBadval_slotWord (p' : Slot) (j' : Fin 256) : (s.reportBadval).slotWord p' j' = s.slotWord p' j' := rfl
@[simp] theorem State.writeCtrl_freg (d : Word) (i' : FReg) : (s.writeCtrl d).freg i' = s.freg i' := rfl
@[simp] theorem State.writeCtrl_slot (d : Word) (p' : Slot) : (s.writeCtrl d).slot p' = s.slot p' := rfl
@[simp] theorem State.writeCtrl_tag (d : Word) (p' : Slot) : (s.writeCtrl d).tag p' = s.tag p' := rfl
@[simp] theorem State.writeCtrl_slotWord (d : Word) (p' : Slot) (j' : Fin 256) : (s.writeCtrl d).slotWord p' j' = s.slotWord p' j' := rfl
@[simp] theorem State.writeIrqen_freg (d : Word) (i' : FReg) : (s.writeIrqen d).freg i' = s.freg i' := rfl
@[simp] theorem State.writeIrqen_slot (d : Word) (p' : Slot) : (s.writeIrqen d).slot p' = s.slot p' := rfl
@[simp] theorem State.writeIrqen_tag (d : Word) (p' : Slot) : (s.writeIrqen d).tag p' = s.tag p' := rfl
@[simp] theorem State.writeIrqen_slotWord (d : Word) (p' : Slot) (j' : Fin 256) : (s.writeIrqen d).slotWord p' j' = s.slotWord p' j' := rfl
@[simp] theorem State.writeTag_freg (d : Word) (i' : FReg) : (s.writeTag d).freg i' = s.freg i' := rfl
@[simp] theorem State.writeTag_slot (d : Word) (p' : Slot) : (s.writeTag d).slot p' = s.slot p' := rfl
@[simp] theorem State.writeTag_slotWord (d : Word) (p' : Slot) (j' : Fin 256) : (s.writeTag d).slotWord p' j' = s.slotWord p' j' := rfl
@[simp] theorem State.writeStatus_freg (d : Word) (i' : FReg) : (s.writeStatus d).freg i' = s.freg i' := by
  unfold State.writeStatus; split <;> rfl
@[simp] theorem State.writeStatus_slot (d : Word) (p' : Slot) : (s.writeStatus d).slot p' = s.slot p' := by
  unfold State.writeStatus; split <;> rfl
@[simp] theorem State.writeStatus_tag (d : Word) (p' : Slot) : (s.writeStatus d).tag p' = s.tag p' := by
  unfold State.writeStatus; split <;> rfl
@[simp] theorem State.writeStatus_slotWord (d : Word) (p' : Slot) (j' : Fin 256) : (s.writeStatus d).slotWord p' j' = s.slotWord p' j' := by
  unfold State.writeStatus; split <;> rfl
@[simp] theorem State.keepDraws_freg (a : Nat) (bs : List Byte) (i' : FReg) : (s.keepDraws a bs).freg i' = s.freg i' := by
  unfold State.keepDraws; split <;> rfl
@[simp] theorem State.keepDraws_slot (a : Nat) (bs : List Byte) (p' : Slot) : (s.keepDraws a bs).slot p' = s.slot p' := by
  unfold State.keepDraws; split <;> rfl
@[simp] theorem State.keepDraws_tag (a : Nat) (bs : List Byte) (p' : Slot) : (s.keepDraws a bs).tag p' = s.tag p' := by
  unfold State.keepDraws; split <;> rfl
@[simp] theorem State.keepDraws_slotWord (a : Nat) (bs : List Byte) (p' : Slot) (j' : Fin 256) : (s.keepDraws a bs).slotWord p' j' = s.slotWord p' j' := by
  unfold State.keepDraws; split <;> rfl

theorem State.setFreg_freg (i j : FReg) (w : Raw) : (s.setFreg i w).freg j = if j = i then w else s.freg j := by
  simp only [State.freg, State.setFreg_fregs, Vector.getElem_set]
  split <;> split <;> simp_all [Fin.ext_iff]

@[simp] theorem State.setFreg_freg_same (i : FReg) (w : Raw) : (s.setFreg i w).freg i = w := by simp [State.setFreg_freg]

theorem State.setFval_freg (i j : FReg) (a : Nat) (R : Radix := Config.radix) :
    (s.setFval i a R).freg j = if j = i then mont a R else s.freg j :=
  State.setFreg_freg s i j (mont a R)

theorem State.setSlot_slot (p p' : Slot) (f : Poly) (t : Tag) :
    (s.setSlot p f t).slot p' = if p' = p then f else s.slot p' := by
  simp only [State.slot, State.setSlot_slots, Vector.getElem_set]
  split <;> split <;> simp_all [Fin.ext_iff]

theorem State.setSlot_tag (p p' : Slot) (f : Poly) (t : Tag) :
    (s.setSlot p f t).tag p' = if p' = p then t else s.tag p' := by
  simp only [State.tag, State.setSlot_tags, Vector.getElem_set]
  split <;> split <;> simp_all [Fin.ext_iff]

theorem State.setSlotVals_slot (p p' : Slot) (f : Coeffs) (t : Tag) (R : Radix := Config.radix) :
    (s.setSlotVals p f t R).slot p' = if p' = p then polyMont f R else s.slot p' :=
  State.setSlot_slot s p p' (polyMont f R) t

theorem State.setSlotVals_tag (p p' : Slot) (f : Coeffs) (t : Tag) (R : Radix := Config.radix) :
    (s.setSlotVals p f t R).tag p' = if p' = p then t else s.tag p' :=
  State.setSlot_tag s p p' (polyMont f R) t

theorem State.setSlotWord_slotWord (p p' : Slot) (j j' : Fin 256) (w : Raw) :
    (s.setSlotWord p j w).slotWord p' j' = if p' = p ∧ j' = j then w else s.slotWord p' j' := by
  simp only [State.slotWord, State.slot, State.setSlotWord_slots, Vector.getElem_set, Fin.ext_iff]
  by_cases hp : p.val = p'.val
  · by_cases hj : j.val = j'.val <;> simp_all [eq_comm]
  · simp only [hp, ite_false]
    exact (if_neg fun h => hp h.1.symm).symm

end Sys2Proof.Machine
end

