-- ==== Sys2Proof/Laws/Frame.lean ====
section
/-!
SUPPORT. The shared operations of the commands, each said once: what a completed command that writes a register, a slot, a
slot word or bytes of BUF leaves, and the ways `slotResult`, `runMacro`, `frandFrom`, `parseWith` and `cbdWith` end.
-/

namespace Sys2Proof.Machine

/-! ## Frames -/

/-- A frame stays a frame when more may change. -/
theorem Frame.mono {r r' : List FReg} {p p' : List Slot} {b b' : Nat → Prop} {s t : State} (h : Frame r p b s t)
    (hr : ∀ i ∈ r, i ∈ r') (hp : ∀ i ∈ p, i ∈ p') (hb : ∀ a, b a → b' a) : Frame r' p' b' s t :=
  { h with
    fregs := fun i hi => h.fregs i fun hm => hi (hr i hm)
    slots := fun i hi => h.slots i fun hm => hi (hp i hm)
    buf := fun a ha => h.buf a fun hm => ha (hb a hm) }

/-- A completed command that leaves every store but those named alone: what is left to show. -/
theorem frame_complete {r : List FReg} {p : List Slot} {b : Nat → Prop} {s u : State}
    (hu : u = { s with
      eqFlag := u.eqFlag, tags := u.tags, fregs := u.fregs, slots := u.slots, buf := u.buf, scratch := u.scratch,
      randPos := u.randPos })
    (hr : ∀ i, i ∉ r → u.freg i = s.freg i) (hp : ∀ i, i ∉ p → u.slot i = s.slot i ∧ u.tag i = s.tag i)
    (hb : ∀ a, ¬b a → u.buf.read a = s.buf.read a) : Frame r p b s u.complete := by
  constructor <;> first
    | exact hr
    | exact hp
    | exact hb
    | (rw [hu]; rfl)

/-- A command that only completes. -/
theorem frame_of_complete (s : State) : Frame [] [] noBytes s s.complete :=
  frame_complete rfl (fun _ _ => rfl) (fun _ _ => ⟨rfl, rfl⟩) fun _ _ => rfl

theorem frame_setFreg (s : State) (rd : FReg) (w : Raw) : Frame [rd] [] noBytes s (s.setFreg rd w).complete :=
  frame_complete rfl
    (fun i hi => by rw [State.setFreg_freg, if_neg (by simpa using hi)]) (fun _ _ => ⟨rfl, rfl⟩) fun _ _ => rfl

/-- A completed write of a field register. -/
theorem writesFreg_setFreg (s : State) (rd : FReg) (w : Raw) {P : Raw → Prop} (h : P w) :
    WritesFreg rd s P (s.setFreg rd w).complete :=
  ⟨frame_setFreg s rd w, ⟨rfl, rfl, rfl⟩, by simpa using h⟩

/-- A completed write of two field registers; the second written last. -/
theorem frame_setFval_setFval (s : State) (ra rb : FReg) (x y : Nat) :
    Frame [ra, rb] [] noBytes s ((s.setFval ra x).setFval rb y).complete :=
  frame_complete rfl
    (fun i hi => by
      simp only [List.mem_cons, List.not_mem_nil, or_false, not_or] at hi
      rw [State.setFval_freg, if_neg hi.2, State.setFval_freg, if_neg hi.1])
    (fun _ _ => ⟨rfl, rfl⟩) fun _ _ => rfl

theorem frame_setSlot (s : State) (pd : Slot) (f : Poly) (t : Tag) :
    Frame [] [pd] noBytes s (s.setSlot pd f t).complete :=
  frame_complete rfl (fun _ _ => rfl)
    (fun i hi => by
      have hne : i ≠ pd := by simpa using hi
      rw [State.setSlot_slot, State.setSlot_tag, if_neg hne, if_neg hne]; exact ⟨rfl, rfl⟩)
    fun _ _ => rfl

theorem setSlot_slotWord (s : State) (pd : Slot) (f : Poly) (t : Tag) (j : Fin 256) :
    (s.setSlot pd f t).slotWord pd j = f[j.val] := by
  simp [State.slotWord, State.setSlot_slot]

theorem setSlotVals_slotWord (s : State) (pd : Slot) (f : Coeffs) (t : Tag) (j : Fin 256) :
    (s.setSlotVals pd f t).slotWord pd j = mont (f.at j) := by
  rw [State.setSlotVals, setSlot_slotWord, polyMont_getElem f j.isLt]

/-- A completed write of a slot with values below q. -/
theorem writesSlot_setSlotVals (s : State) (pd : Slot) (f : Coeffs) (t : Tag) {P : Fin 256 → Nat → Prop}
    (hf : ∀ j, f.at j < 3329) (h : ∀ j : Fin 256, P j (f.at j)) :
    WritesSlot pd t s P (s.setSlotVals pd f t).complete := by
  refine ⟨frame_setSlot s pd (polyMont f) t, ⟨rfl, rfl, rfl⟩, ?_, fun j => ?_⟩
  · rw [State.complete_tag, State.setSlotVals_tag, if_pos rfl]
  · rw [State.complete_slotWord, setSlotVals_slotWord, val_mont (hf j)]
    exact ⟨mont_canonical _, h j⟩

theorem frame_setSlotWord (s : State) (p : Slot) (j : Fin 256) (w : Raw) :
    Frame [] [p] noBytes s (s.setSlotWord p j w).complete :=
  frame_complete rfl (fun _ _ => rfl)
    (fun i hi => by
      have hne : ¬p.val = i.val := by
        have : i ≠ p := by simpa using hi
        exact fun h => this (Fin.ext h.symm)
      refine ⟨?_, rfl⟩
      simp [State.slot, State.setSlotWord_slots, hne])
    fun _ _ => rfl

/-- A completed BufWrite. -/
theorem frame_writeBuf (s : State) (a : Nat) (bs : List Byte) :
    Frame [] [] (span a bs.length) s (s.writeBuf a bs).complete :=
  frame_complete rfl (fun _ _ => rfl) (fun _ _ => ⟨rfl, rfl⟩)
    fun _ hc => Memory.read_writeBytes_outside _ _ _ _ hc

theorem readBuf_writeBuf_same (s : State) (a n : Nat) (bs : List Byte) (h : bs.length = n) :
    (s.writeBuf a bs).readBuf a n = bs := by
  subst h; exact Memory.readBytes_writeBytes_same _ _ _

theorem readBuf_writeBuf_apart (s : State) (a c n : Nat) (bs : List Byte) (h : c + n ≤ a ∨ a + bs.length ≤ c) :
    (s.writeBuf a bs).readBuf c n = s.readBuf c n := Memory.readBytes_writeBytes_apart _ _ _ _ _ h

@[simp] theorem readBuf_length (s : State) (a n : Nat) : (s.readBuf a n).length = n := Memory.readBytes_length _ _ _

/-! ## How the shared operations end -/

/-- A slot command behind its domain requirement: done, or DOMAIN_MISMATCH. -/
theorem slotResult_cases (ok : Bool) (pd : Slot) (f : Coeffs) (t : Tag) (s : State) :
    (ok = true ∧ slotResult ok pd f t s = (s.setSlotVals pd f t).complete) ∨
    (ok = false ∧ slotResult ok pd f t s = s.takeFault .domainMismatch) := by
  cases ok <;> simp [slotResult]

/-- A macro command: BAD_LEVEL, still busy, or done with the scratch zeroed. -/
theorem runMacro_cases (s : State) (body : LevelParams → Option State) :
    (levelParams s.latchedLevel = none ∧ runMacro s body = s.takeFault .badLevel) ∨
    ∃ lp, levelParams s.latchedLevel = some lp ∧
      ((body lp = none ∧ runMacro s body = s.keepBusy) ∨
        ∃ t, body lp = some t ∧ runMacro s body = t.clearScratch.complete) := by
  unfold runMacro
  cases levelParams s.latchedLevel with
  | none => exact .inl ⟨rfl, rfl⟩
  | some lp =>
    refine .inr ⟨lp, rfl, ?_⟩
    cases hb : body lp with
    | none => exact .inl ⟨rfl, by simp [hb]⟩
    | some t => exact .inr ⟨t, rfl, by simp [hb]⟩

theorem levelParams_eq_none (l : BitVec 2) : levelParams l = none ↔ l = 3 := by
  revert l; decide

/-- FRAND: done with a value below q, or still busy. -/
theorem frandFrom_cases (rand : Nat → Option Byte) (rd : FReg) (s : State) :
    (∃ c p, c < 3329 ∧ randLoop rand s.budget s.randPos = some (c, p) ∧
      frandFrom rand rd s = ((s.setFval rd c).setRandPos p).complete) ∨
    (randLoop rand s.budget s.randPos = none ∧ frandFrom rand rd s = s.keepBusy) := by
  unfold frandFrom
  cases h : randLoop rand s.budget s.randPos with
  | none => exact .inr ⟨rfl, rfl⟩
  | some cp => exact .inl ⟨cp.1, cp.2, (randLoop_some h).1, rfl, rfl⟩

/-- PARSE: done with values below q, or still busy. -/
theorem parseWith_cases (c : Collab) (pd : Slot) (x y : Fin 4) (blk : Blk) (s : State) :
    (∃ f, sampleNTT (c.xof128 (s.readBlock blk) (Byte.ofNat x.val) (Byte.ofNat y.val)) s.budget = some f ∧
      (∀ j, f.at j < 3329) ∧ parseWith c pd x y blk s = (s.setSlotVals pd f .ntt).complete) ∨
    (sampleNTT (c.xof128 (s.readBlock blk) (Byte.ofNat x.val) (Byte.ofNat y.val)) s.budget = none ∧
      parseWith c pd x y blk s = s.keepBusy) := by
  unfold parseWith
  cases h : sampleNTT (c.xof128 (s.readBlock blk) (Byte.ofNat x.val) (Byte.ofNat y.val)) s.budget with
  | none => exact .inr ⟨rfl, rfl⟩
  | some f => exact .inl ⟨f, rfl, sampleNTT_lt h, rfl⟩

/-- CBD: done, or BAD_FIELD. -/
theorem cbdWith_cases (c : Collab) (pd : Slot) (eta : Fin 4) (n : Fin 256) (blk : Blk) (s : State) :
    (etaLegal eta = true ∧ cbdWith c pd eta n blk s =
      (s.setSlotVals pd (samplePolyCBD eta.val (prf c eta.val (s.readBlock blk) (Byte.ofNat n.val))) .normal).complete) ∨
    (etaLegal eta = false ∧ cbdWith c pd eta n blk s = s.takeFault .badField) := by
  unfold cbdWith
  cases etaLegal eta <;> simp

end Sys2Proof.Machine
end

