-- ==== Sys2Proof/Laws/Parameters.lean ====
section
/-!
SUPPORT. The machine is its parametric form at `Config.params`: `exec` is `execWith`, the unit's step and `step` are
`unitStepWith` and `stepWith`, `core` is `coreWith`. After them, what a change of the radix does to the words of the stores.
-/

namespace Sys2Proof.Machine

/-! ## The machine at its own configuration -/

theorem exec_eq_execWith (i : Instr) (s : State) : exec i s = .next (execWith Config.params i s) := by
  cases i <;> rfl

theorem runWord_eq_runWordWith (w : Word) (s : State) : runWord w s = .next (runWordWith Config.params w s) := by
  unfold runWord runWordWith
  cases decode w with
  | command i => exact exec_eq_execWith i s
  | rejected e => rfl

theorem unitStep_eq_unitStepWith (s : State) : unitStep s = .next (unitStepWith Config.params s) := by
  unfold unitStep unitStepWith
  cases s.phase with
  | idle => rfl
  | initialising => rfl
  | running p => exact runWord_eq_runWordWith p.cmd s

theorem step_eq_stepWith (s : State) : step s = .next (stepWith Config.params s) := by
  unfold step stepWith
  cases s.script with
  | nil => exact unitStep_eq_unitStepWith s
  | cons e rest =>
    cases e with
    | wait => exact unitStep_eq_unitStepWith _
    | read addr => rfl
    | write addr be d => rfl
    | reset => rfl

theorem coreWith_params : coreWith Config.params = Sys2Proof.core := by
  have h : (fun s => .next (stepWith Config.params s)) = step := funext fun s => (step_eq_stepWith s).symm
  unfold coreWith Sys2Proof.core
  rw [h]

/-! ## Words under two radices -/

@[simp] theorem State.rebase_freg (s : State) (R R' : Radix) (i : FReg) :
    (s.rebase R R').freg i = mont (s.fval i R) R' := by
  simp [State.rebase, State.freg, State.fval]

@[simp] theorem State.rebase_slotWord (s : State) (R R' : Radix) (p : Slot) (j : Fin 256) :
    (s.rebase R R').slotWord p j = mont (val (s.slotWord p j) R) R' := by
  simp [State.rebase, State.slotWord, State.slot]

@[simp] theorem State.rebase_tag (s : State) (R R' : Radix) (p : Slot) : (s.rebase R R').tag p = s.tag p := rfl

/-- The values of the field registers are the same. -/
@[simp] theorem State.rebase_fval (s : State) (R R' : Radix) (i : FReg) : (s.rebase R R').fval i R' = s.fval i R := by
  rw [State.fval, State.rebase_freg]; exact val_mont (val_lt _ R) R'

/-- The values of the slots are the same. -/
@[simp] theorem State.rebase_slotVals (s : State) (R R' : Radix) (p : Slot) :
    (s.rebase R R').slotVals p R' = s.slotVals p R := by
  refine Coeffs.ext_at fun j hj => ?_
  rw [State.slotVals, State.slotVals, polyVals_at _ hj R', polyVals_at _ hj R]
  have h := State.rebase_slotWord s R R' p ⟨j, hj⟩
  rw [State.slotWord, State.slotWord] at h
  rw [show (State.slot (s.rebase R R') p)[j] = _ from h, val_mont (val_lt _ R) R']

variable (s : State) (R R' : Radix)

theorem mont_val_mont (a : Nat) : mont (val (mont a R) R) R' = mont a R' := by
  rw [val_mont_mod a R, mont_mod a R']

/-- The raw word 0 is the value 0 for every radix (R54). -/
theorem mont_val_zero : mont (val 0 R) R' = 0 := by simp [mont, val, valFor, montFor]

theorem polyMont_map (f : Coeffs) : (polyMont f R).map (fun w => mont (val w R) R') = polyMont f R' := by
  apply Vector.ext
  intro j hj
  rw [Vector.getElem_map, polyMont_getElem f hj R, polyMont_getElem f hj R', mont_val_mont]

theorem State.rebase_setFreg (i : FReg) (w : Raw) :
    (s.setFreg i w).rebase R R' = (s.rebase R R').setFreg i (mont (val w R) R') := by
  simp only [State.rebase, State.setFreg, Vector.map_set]

theorem State.rebase_setFval (i : FReg) (a : Nat) : (s.setFval i a R).rebase R R' = (s.rebase R R').setFval i a R' := by
  simp only [State.setFval, State.rebase_setFreg, mont_val_mont]

theorem State.rebase_setSlotVals (p : Slot) (f : Coeffs) (t : Tag) :
    (s.setSlotVals p f t R).rebase R R' = (s.rebase R R').setSlotVals p f t R' := by
  simp only [State.rebase, State.setSlotVals, State.setSlot, Vector.map_set, polyMont_map]

theorem State.rebase_setSlotWord (p : Slot) (j : Fin 256) (w : Raw) :
    (s.setSlotWord p j w).rebase R R' = (s.rebase R R').setSlotWord p j (mont (val w R) R') := by
  simp only [State.rebase, State.setSlotWord, State.slot, Vector.map_set, Vector.getElem_map]

@[simp] theorem State.rebase_complete : s.complete.rebase R R' = (s.rebase R R').complete := rfl

@[simp] theorem State.rebase_takeFault (c : FaultCode) : (s.takeFault c).rebase R R' = (s.rebase R R').takeFault c := rfl

@[simp] theorem State.rebase_writeBuf (a : Nat) (bs : List Byte) :
    (s.writeBuf a bs).rebase R R' = (s.rebase R R').writeBuf a bs := rfl

@[simp] theorem State.rebase_setRandPos (n : Nat) : (s.setRandPos n).rebase R R' = (s.rebase R R').setRandPos n := rfl

theorem State.rebase_keepBusy : s.keepBusy.rebase R R' = (s.rebase R R').keepBusy := by
  cases h : s.phase <;> simp [State.keepBusy, State.rebase, h]

theorem rebase_fieldResult (rd : FReg) (a : Nat) :
    (fieldResult rd a s R).rebase R R' = fieldResult rd a (s.rebase R R') R' := by
  simp only [fieldResult, State.rebase_complete, State.rebase_setFval]

theorem rebase_slotResult (ok : Bool) (pd : Slot) (f : Coeffs) (t : Tag) :
    (slotResult ok pd f t s R).rebase R R' = slotResult ok pd f t (s.rebase R R') R' := by
  cases ok
  · rfl
  · simp only [slotResult, if_true, State.rebase_complete, State.rebase_setSlotVals]

/-- A macro command does the same under another radix if its body does. -/
theorem rebase_runMacro (body body' : LevelParams → Option State)
    (h : ∀ lp, body' lp = (body lp).map (·.rebase R R')) :
    (runMacro s body).rebase R R' = runMacro (s.rebase R R') body' := by
  unfold runMacro
  rw [show (s.rebase R R').latchedLevel = s.latchedLevel from rfl]
  cases levelParams s.latchedLevel with
  | none => rfl
  | some lp =>
    dsimp only
    rw [h]
    cases body lp with
    | none => exact State.rebase_keepBusy s R R'
    | some t => rfl

end Sys2Proof.Machine
end

