-- ==== Sys2Proof/Laws/PerInstr.lean ====
section
/-!
SUPPORT. Statements made per instruction. Family `EncodedFields`: the word the encoder gives a command has the command's
opcode (30_encoding.md R116) and no bit under its format's zero mask (R112).
-/

namespace Sys2Proof.Laws

-- One theorem at a time: elaborated side by side, these take the memory of a thread each.
set_option Elab.async false

/-- The opcode of each command (R116). -/
def opcodeOf : Instr → Nat
  | .nop => 0x00
  | .zeroize => 0x01
  | .fadd _ _ _ => 0x08
  | .fsub _ _ _ => 0x09
  | .fneg _ _ => 0x0A
  | .fmul _ _ _ => 0x0B
  | .finv _ _ => 0x0C
  | .fdiv _ _ _ => 0x0D
  | .fpow _ _ _ => 0x0E
  | .feq _ _ => 0x0F
  | .fli _ _ => 0x10
  | .fmov _ _ => 0x11
  | .frand _ => 0x12
  | .ftom _ _ => 0x13
  | .ffromm _ _ => 0x14
  | .fcomp _ _ _ => 0x15
  | .fdecomp _ _ _ => 0x16
  | .fbct _ _ _ => 0x17
  | .fbgs _ _ _ => 0x18
  | .fld _ _ _ => 0x19
  | .fst _ _ _ => 0x1A
  | .padd _ _ _ => 0x20
  | .psub _ _ _ => 0x21
  | .pntt _ _ => 0x22
  | .pintt _ _ => 0x23
  | .pbmul _ _ _ => 0x24
  | .pbmac _ _ _ => 0x25
  | .pcopy _ _ => 0x26
  | .pzero _ _ => 0x27
  | .pscale _ _ _ => 0x28
  | .pcomp _ _ _ => 0x29
  | .pdecomp _ _ _ => 0x2A
  | .parse _ _ _ _ => 0x30
  | .cbd _ _ _ _ => 0x31
  | .penc _ _ _ => 0x32
  | .pdec _ _ _ _ => 0x33
  | .pkeKeygen => 0x38
  | .pkeEnc => 0x39
  | .pkeDec => 0x3A
  | .kemKeygen => 0x3B
  | .kemEncaps => 0x3C
  | .kemDecaps => 0x3D

/-- The format of each command (R116). -/
def formatOf : Instr → Format
  | .nop => .n
  | .zeroize => .n
  | .fadd _ _ _ => .r3
  | .fsub _ _ _ => .r3
  | .fneg _ _ => .r2
  | .fmul _ _ _ => .r3
  | .finv _ _ => .r2
  | .fdiv _ _ _ => .r3
  | .fpow _ _ _ => .i12
  | .feq _ _ => .rc
  | .fli _ _ => .li
  | .fmov _ _ => .r2
  | .frand _ => .r1
  | .ftom _ _ => .r2
  | .ffromm _ _ => .r2
  | .fcomp _ _ _ => .qz
  | .fdecomp _ _ _ => .qz
  | .fbct _ _ _ => .bf
  | .fbgs _ _ _ => .bf
  | .fld _ _ _ => .m
  | .fst _ _ _ => .ms
  | .padd _ _ _ => .p3
  | .psub _ _ _ => .p3
  | .pntt _ _ => .p2
  | .pintt _ _ => .p2
  | .pbmul _ _ _ => .p3
  | .pbmac _ _ _ => .p3
  | .pcopy _ _ => .p2
  | .pzero _ _ => .pt
  | .pscale _ _ _ => .pf
  | .pcomp _ _ _ => .pq
  | .pdecomp _ _ _ => .pq
  | .parse _ _ _ _ => .sp
  | .cbd _ _ _ _ => .sc
  | .penc _ _ _ => .se
  | .pdec _ _ _ _ => .sd
  | .pkeKeygen => .n
  | .pkeEnc => .n
  | .pkeDec => .n
  | .kemKeygen => .n
  | .kemEncaps => .n
  | .kemDecaps => .n

theorem Tag.bit_lt (t : Tag) : t.bit < 2 := by cases t <;> decide

/-- The word has the command's opcode and no reserved bit. -/
def EncodedFields.Statement (i : Instr) : Prop :=
  opField (encode i) = opcodeOf i ∧ encode i &&& (formatOf i).zeroMask = 0

theorem EncodedFields.nop : EncodedFields.Statement .nop := by
  exact ⟨by decide, by decide⟩

theorem EncodedFields.zeroize : EncodedFields.Statement .zeroize := by
  exact ⟨by decide, by decide⟩

theorem EncodedFields.fadd (rd ra rb : FReg) : EncodedFields.Statement (.fadd rd ra rb) := by
  have hrd := rd.isLt
  have hra := ra.isLt
  have hrb := rb.isLt
  constructor
  · simp only [opField, field, encode, packWord, BitVec.toNat_ofNat, opcodeOf]; omega
  · rw [maskClear_iff]
    simp only [formatOf, Format.reserved, List.forall_mem_cons, List.not_mem_nil, false_implies, implies_true, and_true,
      field, encode, packWord, BitVec.toNat_ofNat]
    omega

theorem EncodedFields.fsub (rd ra rb : FReg) : EncodedFields.Statement (.fsub rd ra rb) := by
  have hrd := rd.isLt
  have hra := ra.isLt
  have hrb := rb.isLt
  constructor
  · simp only [opField, field, encode, packWord, BitVec.toNat_ofNat, opcodeOf]; omega
  · rw [maskClear_iff]
    simp only [formatOf, Format.reserved, List.forall_mem_cons, List.not_mem_nil, false_implies, implies_true, and_true,
      field, encode, packWord, BitVec.toNat_ofNat]
    omega

theorem EncodedFields.fneg (rd ra : FReg) : EncodedFields.Statement (.fneg rd ra) := by
  have hrd := rd.isLt
  have hra := ra.isLt
  constructor
  · simp only [opField, field, encode, packWord, BitVec.toNat_ofNat, opcodeOf]; omega
  · rw [maskClear_iff]
    simp only [formatOf, Format.reserved, List.forall_mem_cons, List.not_mem_nil, false_implies, implies_true, and_true,
      field, encode, packWord, BitVec.toNat_ofNat]
    omega

theorem EncodedFields.fmul (rd ra rb : FReg) : EncodedFields.Statement (.fmul rd ra rb) := by
  have hrd := rd.isLt
  have hra := ra.isLt
  have hrb := rb.isLt
  constructor
  · simp only [opField, field, encode, packWord, BitVec.toNat_ofNat, opcodeOf]; omega
  · rw [maskClear_iff]
    simp only [formatOf, Format.reserved, List.forall_mem_cons, List.not_mem_nil, false_implies, implies_true, and_true,
      field, encode, packWord, BitVec.toNat_ofNat]
    omega

theorem EncodedFields.finv (rd ra : FReg) : EncodedFields.Statement (.finv rd ra) := by
  have hrd := rd.isLt
  have hra := ra.isLt
  constructor
  · simp only [opField, field, encode, packWord, BitVec.toNat_ofNat, opcodeOf]; omega
  · rw [maskClear_iff]
    simp only [formatOf, Format.reserved, List.forall_mem_cons, List.not_mem_nil, false_implies, implies_true, and_true,
      field, encode, packWord, BitVec.toNat_ofNat]
    omega

theorem EncodedFields.fdiv (rd ra rb : FReg) : EncodedFields.Statement (.fdiv rd ra rb) := by
  have hrd := rd.isLt
  have hra := ra.isLt
  have hrb := rb.isLt
  constructor
  · simp only [opField, field, encode, packWord, BitVec.toNat_ofNat, opcodeOf]; omega
  · rw [maskClear_iff]
    simp only [formatOf, Format.reserved, List.forall_mem_cons, List.not_mem_nil, false_implies, implies_true, and_true,
      field, encode, packWord, BitVec.toNat_ofNat]
    omega

theorem EncodedFields.fpow (rd ra : FReg) (e : Fin 4096) : EncodedFields.Statement (.fpow rd ra e) := by
  have hrd := rd.isLt
  have hra := ra.isLt
  have he := e.isLt
  constructor
  · simp only [opField, field, encode, packWord, BitVec.toNat_ofNat, opcodeOf]; omega
  · rw [maskClear_iff]
    simp only [formatOf, Format.reserved, List.forall_mem_cons, List.not_mem_nil, false_implies, implies_true, and_true,
      field, encode, packWord, BitVec.toNat_ofNat]
    omega

theorem EncodedFields.feq (ra rb : FReg) : EncodedFields.Statement (.feq ra rb) := by
  have hra := ra.isLt
  have hrb := rb.isLt
  constructor
  · simp only [opField, field, encode, packWord, BitVec.toNat_ofNat, opcodeOf]; omega
  · rw [maskClear_iff]
    simp only [formatOf, Format.reserved, List.forall_mem_cons, List.not_mem_nil, false_implies, implies_true, and_true,
      field, encode, packWord, BitVec.toNat_ofNat]
    omega

theorem EncodedFields.fli (rd : FReg) (v : Fin 4096) : EncodedFields.Statement (.fli rd v) := by
  have hrd := rd.isLt
  have hv := v.isLt
  constructor
  · simp only [opField, field, encode, packWord, BitVec.toNat_ofNat, opcodeOf]; omega
  · rw [maskClear_iff]
    simp only [formatOf, Format.reserved, List.forall_mem_cons, List.not_mem_nil, false_implies, implies_true, and_true,
      field, encode, packWord, BitVec.toNat_ofNat]
    omega

theorem EncodedFields.fmov (rd ra : FReg) : EncodedFields.Statement (.fmov rd ra) := by
  have hrd := rd.isLt
  have hra := ra.isLt
  constructor
  · simp only [opField, field, encode, packWord, BitVec.toNat_ofNat, opcodeOf]; omega
  · rw [maskClear_iff]
    simp only [formatOf, Format.reserved, List.forall_mem_cons, List.not_mem_nil, false_implies, implies_true, and_true,
      field, encode, packWord, BitVec.toNat_ofNat]
    omega

theorem EncodedFields.frand (rd : FReg) : EncodedFields.Statement (.frand rd) := by
  have hrd := rd.isLt
  constructor
  · simp only [opField, field, encode, packWord, BitVec.toNat_ofNat, opcodeOf]; omega
  · rw [maskClear_iff]
    simp only [formatOf, Format.reserved, List.forall_mem_cons, List.not_mem_nil, false_implies, implies_true, and_true,
      field, encode, packWord, BitVec.toNat_ofNat]
    omega

theorem EncodedFields.ftom (rd ra : FReg) : EncodedFields.Statement (.ftom rd ra) := by
  have hrd := rd.isLt
  have hra := ra.isLt
  constructor
  · simp only [opField, field, encode, packWord, BitVec.toNat_ofNat, opcodeOf]; omega
  · rw [maskClear_iff]
    simp only [formatOf, Format.reserved, List.forall_mem_cons, List.not_mem_nil, false_implies, implies_true, and_true,
      field, encode, packWord, BitVec.toNat_ofNat]
    omega

theorem EncodedFields.ffromm (rd ra : FReg) : EncodedFields.Statement (.ffromm rd ra) := by
  have hrd := rd.isLt
  have hra := ra.isLt
  constructor
  · simp only [opField, field, encode, packWord, BitVec.toNat_ofNat, opcodeOf]; omega
  · rw [maskClear_iff]
    simp only [formatOf, Format.reserved, List.forall_mem_cons, List.not_mem_nil, false_implies, implies_true, and_true,
      field, encode, packWord, BitVec.toNat_ofNat]
    omega

theorem EncodedFields.fcomp (rd ra : FReg) (d : Width) : EncodedFields.Statement (.fcomp rd ra d) := by
  have hrd := rd.isLt
  have hra := ra.isLt
  have hd := d.isLt
  constructor
  · simp only [opField, field, encode, packWord, BitVec.toNat_ofNat, opcodeOf]; omega
  · rw [maskClear_iff]
    simp only [formatOf, Format.reserved, List.forall_mem_cons, List.not_mem_nil, false_implies, implies_true, and_true,
      field, encode, packWord, BitVec.toNat_ofNat]
    omega

theorem EncodedFields.fdecomp (rd ra : FReg) (d : Width) : EncodedFields.Statement (.fdecomp rd ra d) := by
  have hrd := rd.isLt
  have hra := ra.isLt
  have hd := d.isLt
  constructor
  · simp only [opField, field, encode, packWord, BitVec.toNat_ofNat, opcodeOf]; omega
  · rw [maskClear_iff]
    simp only [formatOf, Format.reserved, List.forall_mem_cons, List.not_mem_nil, false_implies, implies_true, and_true,
      field, encode, packWord, BitVec.toNat_ofNat]
    omega

theorem EncodedFields.fbct (ra rb rz : FReg) : EncodedFields.Statement (.fbct ra rb rz) := by
  have hra := ra.isLt
  have hrb := rb.isLt
  have hrz := rz.isLt
  constructor
  · simp only [opField, field, encode, packWord, BitVec.toNat_ofNat, opcodeOf]; omega
  · rw [maskClear_iff]
    simp only [formatOf, Format.reserved, List.forall_mem_cons, List.not_mem_nil, false_implies, implies_true, and_true,
      field, encode, packWord, BitVec.toNat_ofNat]
    omega

theorem EncodedFields.fbgs (ra rb rz : FReg) : EncodedFields.Statement (.fbgs ra rb rz) := by
  have hra := ra.isLt
  have hrb := rb.isLt
  have hrz := rz.isLt
  constructor
  · simp only [opField, field, encode, packWord, BitVec.toNat_ofNat, opcodeOf]; omega
  · rw [maskClear_iff]
    simp only [formatOf, Format.reserved, List.forall_mem_cons, List.not_mem_nil, false_implies, implies_true, and_true,
      field, encode, packWord, BitVec.toNat_ofNat]
    omega

theorem EncodedFields.fld (rd : FReg) (ps : Slot) (idx : Fin 256) : EncodedFields.Statement (.fld rd ps idx) := by
  have hrd := rd.isLt
  have hps := ps.isLt
  have hidx := idx.isLt
  constructor
  · simp only [opField, field, encode, packWord, BitVec.toNat_ofNat, opcodeOf]; omega
  · rw [maskClear_iff]
    simp only [formatOf, Format.reserved, List.forall_mem_cons, List.not_mem_nil, false_implies, implies_true, and_true,
      field, encode, packWord, BitVec.toNat_ofNat]
    omega

theorem EncodedFields.fst (pd : Slot) (fa : FReg) (idx : Fin 256) : EncodedFields.Statement (.fst pd fa idx) := by
  have hpd := pd.isLt
  have hfa := fa.isLt
  have hidx := idx.isLt
  constructor
  · simp only [opField, field, encode, packWord, BitVec.toNat_ofNat, opcodeOf]; omega
  · rw [maskClear_iff]
    simp only [formatOf, Format.reserved, List.forall_mem_cons, List.not_mem_nil, false_implies, implies_true, and_true,
      field, encode, packWord, BitVec.toNat_ofNat]
    omega

theorem EncodedFields.padd (pd pa pb : Slot) : EncodedFields.Statement (.padd pd pa pb) := by
  have hpd := pd.isLt
  have hpa := pa.isLt
  have hpb := pb.isLt
  constructor
  · simp only [opField, field, encode, packWord, BitVec.toNat_ofNat, opcodeOf]; omega
  · rw [maskClear_iff]
    simp only [formatOf, Format.reserved, List.forall_mem_cons, List.not_mem_nil, false_implies, implies_true, and_true,
      field, encode, packWord, BitVec.toNat_ofNat]
    omega

theorem EncodedFields.psub (pd pa pb : Slot) : EncodedFields.Statement (.psub pd pa pb) := by
  have hpd := pd.isLt
  have hpa := pa.isLt
  have hpb := pb.isLt
  constructor
  · simp only [opField, field, encode, packWord, BitVec.toNat_ofNat, opcodeOf]; omega
  · rw [maskClear_iff]
    simp only [formatOf, Format.reserved, List.forall_mem_cons, List.not_mem_nil, false_implies, implies_true, and_true,
      field, encode, packWord, BitVec.toNat_ofNat]
    omega

theorem EncodedFields.pntt (pd pa : Slot) : EncodedFields.Statement (.pntt pd pa) := by
  have hpd := pd.isLt
  have hpa := pa.isLt
  constructor
  · simp only [opField, field, encode, packWord, BitVec.toNat_ofNat, opcodeOf]; omega
  · rw [maskClear_iff]
    simp only [formatOf, Format.reserved, List.forall_mem_cons, List.not_mem_nil, false_implies, implies_true, and_true,
      field, encode, packWord, BitVec.toNat_ofNat]
    omega

theorem EncodedFields.pintt (pd pa : Slot) : EncodedFields.Statement (.pintt pd pa) := by
  have hpd := pd.isLt
  have hpa := pa.isLt
  constructor
  · simp only [opField, field, encode, packWord, BitVec.toNat_ofNat, opcodeOf]; omega
  · rw [maskClear_iff]
    simp only [formatOf, Format.reserved, List.forall_mem_cons, List.not_mem_nil, false_implies, implies_true, and_true,
      field, encode, packWord, BitVec.toNat_ofNat]
    omega

theorem EncodedFields.pbmul (pd pa pb : Slot) : EncodedFields.Statement (.pbmul pd pa pb) := by
  have hpd := pd.isLt
  have hpa := pa.isLt
  have hpb := pb.isLt
  constructor
  · simp only [opField, field, encode, packWord, BitVec.toNat_ofNat, opcodeOf]; omega
  · rw [maskClear_iff]
    simp only [formatOf, Format.reserved, List.forall_mem_cons, List.not_mem_nil, false_implies, implies_true, and_true,
      field, encode, packWord, BitVec.toNat_ofNat]
    omega

theorem EncodedFields.pbmac (pd pa pb : Slot) : EncodedFields.Statement (.pbmac pd pa pb) := by
  have hpd := pd.isLt
  have hpa := pa.isLt
  have hpb := pb.isLt
  constructor
  · simp only [opField, field, encode, packWord, BitVec.toNat_ofNat, opcodeOf]; omega
  · rw [maskClear_iff]
    simp only [formatOf, Format.reserved, List.forall_mem_cons, List.not_mem_nil, false_implies, implies_true, and_true,
      field, encode, packWord, BitVec.toNat_ofNat]
    omega

theorem EncodedFields.pcopy (pd pa : Slot) : EncodedFields.Statement (.pcopy pd pa) := by
  have hpd := pd.isLt
  have hpa := pa.isLt
  constructor
  · simp only [opField, field, encode, packWord, BitVec.toNat_ofNat, opcodeOf]; omega
  · rw [maskClear_iff]
    simp only [formatOf, Format.reserved, List.forall_mem_cons, List.not_mem_nil, false_implies, implies_true, and_true,
      field, encode, packWord, BitVec.toNat_ofNat]
    omega

theorem EncodedFields.pzero (pd : Slot) (t : Tag) : EncodedFields.Statement (.pzero pd t) := by
  have hpd := pd.isLt
  have ht := Tag.bit_lt t
  constructor
  · simp only [opField, field, encode, packWord, BitVec.toNat_ofNat, opcodeOf]; omega
  · rw [maskClear_iff]
    simp only [formatOf, Format.reserved, List.forall_mem_cons, List.not_mem_nil, false_implies, implies_true, and_true,
      field, encode, packWord, BitVec.toNat_ofNat]
    omega

theorem EncodedFields.pscale (pd pa : Slot) (fb : FReg) : EncodedFields.Statement (.pscale pd pa fb) := by
  have hpd := pd.isLt
  have hpa := pa.isLt
  have hfb := fb.isLt
  constructor
  · simp only [opField, field, encode, packWord, BitVec.toNat_ofNat, opcodeOf]; omega
  · rw [maskClear_iff]
    simp only [formatOf, Format.reserved, List.forall_mem_cons, List.not_mem_nil, false_implies, implies_true, and_true,
      field, encode, packWord, BitVec.toNat_ofNat]
    omega

theorem EncodedFields.pcomp (pd pa : Slot) (d : Width) : EncodedFields.Statement (.pcomp pd pa d) := by
  have hpd := pd.isLt
  have hpa := pa.isLt
  have hd := d.isLt
  constructor
  · simp only [opField, field, encode, packWord, BitVec.toNat_ofNat, opcodeOf]; omega
  · rw [maskClear_iff]
    simp only [formatOf, Format.reserved, List.forall_mem_cons, List.not_mem_nil, false_implies, implies_true, and_true,
      field, encode, packWord, BitVec.toNat_ofNat]
    omega

theorem EncodedFields.pdecomp (pd pa : Slot) (d : Width) : EncodedFields.Statement (.pdecomp pd pa d) := by
  have hpd := pd.isLt
  have hpa := pa.isLt
  have hd := d.isLt
  constructor
  · simp only [opField, field, encode, packWord, BitVec.toNat_ofNat, opcodeOf]; omega
  · rw [maskClear_iff]
    simp only [formatOf, Format.reserved, List.forall_mem_cons, List.not_mem_nil, false_implies, implies_true, and_true,
      field, encode, packWord, BitVec.toNat_ofNat]
    omega

theorem EncodedFields.parse (pd : Slot) (x y : Fin 4) (blk : Blk) : EncodedFields.Statement (.parse pd x y blk) := by
  have hpd := pd.isLt
  have hx := x.isLt
  have hy := y.isLt
  have hblk := blk.isLt
  constructor
  · simp only [opField, field, encode, packWord, BitVec.toNat_ofNat, opcodeOf]; omega
  · rw [maskClear_iff]
    simp only [formatOf, Format.reserved, List.forall_mem_cons, List.not_mem_nil, false_implies, implies_true, and_true,
      field, encode, packWord, BitVec.toNat_ofNat]
    omega

theorem EncodedFields.cbd (pd : Slot) (eta : Fin 4) (n : Fin 256) (blk : Blk) : EncodedFields.Statement (.cbd pd eta n blk) := by
  have hpd := pd.isLt
  have heta := eta.isLt
  have hn := n.isLt
  have hblk := blk.isLt
  constructor
  · simp only [opField, field, encode, packWord, BitVec.toNat_ofNat, opcodeOf]; omega
  · rw [maskClear_iff]
    simp only [formatOf, Format.reserved, List.forall_mem_cons, List.not_mem_nil, false_implies, implies_true, and_true,
      field, encode, packWord, BitVec.toNat_ofNat]
    omega

theorem EncodedFields.penc (pa : Slot) (d : Width) (blk : Blk) : EncodedFields.Statement (.penc pa d blk) := by
  have hpa := pa.isLt
  have hd := d.isLt
  have hblk := blk.isLt
  constructor
  · simp only [opField, field, encode, packWord, BitVec.toNat_ofNat, opcodeOf]; omega
  · rw [maskClear_iff]
    simp only [formatOf, Format.reserved, List.forall_mem_cons, List.not_mem_nil, false_implies, implies_true, and_true,
      field, encode, packWord, BitVec.toNat_ofNat]
    omega

theorem EncodedFields.pdec (pd : Slot) (d : Width) (blk : Blk) (t : Tag) : EncodedFields.Statement (.pdec pd d blk t) := by
  have hpd := pd.isLt
  have hd := d.isLt
  have hblk := blk.isLt
  have ht := Tag.bit_lt t
  constructor
  · simp only [opField, field, encode, packWord, BitVec.toNat_ofNat, opcodeOf]; omega
  · rw [maskClear_iff]
    simp only [formatOf, Format.reserved, List.forall_mem_cons, List.not_mem_nil, false_implies, implies_true, and_true,
      field, encode, packWord, BitVec.toNat_ofNat]
    omega

theorem EncodedFields.pkeKeygen : EncodedFields.Statement .pkeKeygen := by
  exact ⟨by decide, by decide⟩

theorem EncodedFields.pkeEnc : EncodedFields.Statement .pkeEnc := by
  exact ⟨by decide, by decide⟩

theorem EncodedFields.pkeDec : EncodedFields.Statement .pkeDec := by
  exact ⟨by decide, by decide⟩

theorem EncodedFields.kemKeygen : EncodedFields.Statement .kemKeygen := by
  exact ⟨by decide, by decide⟩

theorem EncodedFields.kemEncaps : EncodedFields.Statement .kemEncaps := by
  exact ⟨by decide, by decide⟩

theorem EncodedFields.kemDecaps : EncodedFields.Statement .kemDecaps := by
  exact ⟨by decide, by decide⟩

end Sys2Proof.Laws
end

