-- ==== Sys2Proof/Laws/Pipeline.lean ====
section
/-!
SUPPORT. The pipeline's byte strings: their lengths (00_scope.md R11, R12), the compare and the select on equal lengths
(44_kem.md R323), and the buffer a macro command leaves.
-/

namespace Sys2Proof.Machine

theorem polyVec_length (k : Nat) (f : Nat → Coeffs) : (polyVec k f).length = k := by simp [polyVec]

theorem polyVec_at (k : Nat) (f : Nat → Coeffs) (i : Nat) (h : i < k) : polyAt (polyVec k f) i = f i := by
  simp [polyAt, polyVec, List.getD_eq_getElem?_getD, h]

theorem flatMap_length_const {α : Type} (l : List α) (g : α → List Byte) (n : Nat) (h : ∀ x ∈ l, (g x).length = n) :
    (l.flatMap g).length = l.length * n := by
  induction l with
  | nil => simp
  | cons x l ih =>
    rw [List.flatMap_cons, List.length_append, h x (by simp), ih fun y hy => h y (by simp [hy]), List.length_cons,
      Nat.add_mul, Nat.one_mul, Nat.add_comm]

/-- ByteEncode_12 of k polynomials has 384k bytes. -/
theorem encodeVec_length (v : List Coeffs) : (encodeVec v).length = 384 * v.length := by
  rw [encodeVec, flatMap_length_const v _ 384 fun x _ => byteEncode_length 12 x, Nat.mul_comm]

theorem slice_length (bs : List Byte) (start len : Nat) : (slice bs start len).length = min len (bs.length - start) := by
  simp [slice]

/-- pk has 384k + 32 bytes and sk 384k (R11). -/
theorem pkeKeyGen_length {c : Collab} {n : Nat} {lp : LevelParams} {d pk sk : List Byte}
    (h : pkeKeyGen c n lp d = some (pk, sk)) : pk.length = 384 * lp.k + 32 ∧ sk.length = 384 * lp.k := by
  simp only [pkeKeyGen, Option.map_eq_some_iff] at h
  obtain ⟨m, -, hm⟩ := h
  simp only [Prod.mk.injEq] at hm
  obtain ⟨rfl, rfl⟩ := hm
  simp [encodeVec_length, polyVec_length]

/-- A ciphertext has 32·(k·d_u + d_v) bytes (R11). -/
theorem pkeEncrypt_length {c : Collab} {n : Nat} {lp : LevelParams} {pk m coins ct : List Byte}
    (h : pkeEncrypt c n lp pk m coins = some ct) : ct.length = 32 * (lp.k * lp.du + lp.dv) := by
  simp only [pkeEncrypt, Option.map_eq_some_iff] at h
  obtain ⟨mat, -, rfl⟩ := h
  rw [List.length_append, flatMap_length_const _ _ (32 * lp.du) fun x _ => byteEncode_length _ _, polyVec_length,
    byteEncode_length]
  ring

@[simp] theorem pkeDecrypt_length (lp : LevelParams) (sk ct : List Byte) : (pkeDecrypt lp sk ct).length = 32 :=
  byteEncode_length 1 _

/-- sk' has 768k + 96 bytes (R12). -/
theorem kemKeyGen_length {c : Collab} {n : Nat} {lp : LevelParams} {d z pk sk : List Byte}
    (h : kemKeyGen c n lp d z = some (pk, sk)) :
    pk.length = 384 * lp.k + 32 ∧ sk.length = 768 * lp.k + 64 + z.length := by
  simp only [kemKeyGen, Option.map_eq_some_iff] at h
  obtain ⟨⟨pk', sk'⟩, hk, hm⟩ := h
  simp only [Prod.mk.injEq] at hm
  obtain ⟨rfl, rfl⟩ := hm
  have hl := pkeKeyGen_length hk
  refine ⟨hl.1, ?_⟩
  simp only [List.length_append, hl.1, hl.2, Vector.length_toList]
  omega

theorem kemEncaps_length {c : Collab} {n : Nat} {lp : LevelParams} {pk m ct ss : List Byte}
    (h : kemEncaps c n lp pk m = some (ct, ss)) : ct.length = 32 * (lp.k * lp.du + lp.dv) ∧ ss.length = 32 := by
  simp only [kemEncaps, Option.map_eq_some_iff] at h
  obtain ⟨ct', hc, hm⟩ := h
  simp only [Prod.mk.injEq] at hm
  obtain ⟨rfl, rfl⟩ := hm
  exact ⟨pkeEncrypt_length hc, Vector.length_toList⟩

theorem ctSelect_length (e : Bool) (x y : List Byte) : (ctSelect e x y).length = min x.length y.length := by
  simp [ctSelect]

theorem kemDecaps_length {c : Collab} {n : Nat} {lp : LevelParams} {sk ct ss : List Byte}
    (h : kemDecaps c n lp sk ct = some ss) : ss.length = 32 := by
  simp only [kemDecaps, Option.map_eq_some_iff] at h
  obtain ⟨ct', -, rfl⟩ := h
  rw [ctSelect_length]; simp

/-- The rows of the level table keep every region inside its place (R11, R47). -/
theorem levelParams_bounds {l : BitVec 2} {lp : LevelParams} (h : levelParams l = some lp) :
    lp.k ≤ 4 ∧ lp.k * lp.du + lp.dv ≤ 49 ∧ 2 ≤ lp.k := by
  revert l lp; decide +revert

/-! ## The matrix and the inner products -/

/-- With every member there, `allSome` answers them. -/
theorem allSome_map_of_some {α β : Type} (l : List α) (f : α → Option β) (g : α → β) (h : ∀ x ∈ l, f x = some (g x)) :
    allSome (l.map f) = some (l.map g) := by
  induction l with
  | nil => rfl
  | cons x l ih =>
    simp [allSome, h x (by simp), ih fun y hy => h y (by simp [hy])]

/-- With a member missing, `allSome` answers nothing. -/
theorem allSome_map_of_none {α β : Type} (l : List α) (f : α → Option β) (x : α) (hx : x ∈ l) (h : f x = none) :
    allSome (l.map f) = none := by
  induction l with
  | nil => cases hx
  | cons y l ih =>
    rcases List.mem_cons.1 hx with rfl | hx
    · simp [allSome, h]
    · simp [allSome, ih hx]

/-- The matrix is there when its entries are, with those entries. -/
theorem expandMatrix_of_entries {c : Collab} {n k : Nat} {rho : List Byte} {A : Nat → Nat → Coeffs}
    (h : ∀ i < k, ∀ j < k, matrixEntry c n rho i j = some (A i j)) :
    expandMatrix c n k rho = some ((List.range k).map fun i => (List.range k).map fun j => A i j) :=
  allSome_map_of_some _ _ _ fun i hi => allSome_map_of_some _ _ _ fun j hj =>
    h i (List.mem_range.1 hi) j (List.mem_range.1 hj)

/-- The matrix is missing while an entry is. -/
theorem expandMatrix_of_missing {c : Collab} {n k : Nat} {rho : List Byte}
    (h : ∃ i < k, ∃ j < k, matrixEntry c n rho i j = none) : expandMatrix c n k rho = none := by
  obtain ⟨i, hi, j, hj, h⟩ := h
  exact allSome_map_of_none _ _ i (List.mem_range.2 hi) (allSome_map_of_none _ _ j (List.mem_range.2 hj) h)

theorem matrixAt_of_entries {k i j : Nat} (A : Nat → Nat → Coeffs) (hi : i < k) (hj : j < k) :
    matrixAt ((List.range k).map fun i => (List.range k).map fun j => A i j) i j = A i j := by
  simp [matrixAt, polyAt, List.getD_eq_getElem?_getD, hi, hj]

/-- Inner products are sums modulo q. -/
theorem innerProduct_eq_dotProduct (a b : Nat → Coeffs) (k : Nat) : innerProduct a b k = dotProduct k a b := by
  induction k with
  | zero =>
    refine Coeffs.ext_at fun x hx => ?_
    rw [innerProduct, dotProduct, Coeffs.build_at_lt _ hx, Coeffs.zero, Coeffs.build_at_lt _ hx]; rfl
  | succ k ih =>
    refine Coeffs.ext_at fun x hx => ?_
    rw [innerProduct, ih, dotProduct, dotProduct, Coeffs.add_at _ _ hx, Coeffs.build_at_lt _ hx, Coeffs.build_at_lt _ hx,
      Finset.sum_range_succ, Nat.mod_add_mod]

/-- A sum of products reads its factors below `k` alone. -/
theorem dotProduct_congr {k : Nat} {a a' b b' : Nat → Coeffs} (ha : ∀ j < k, a j = a' j) (hb : ∀ j < k, b j = b' j) :
    dotProduct k a b = dotProduct k a' b' := by
  unfold dotProduct
  congr 1; funext x
  rw [Finset.sum_congr rfl fun j hj => by rw [ha j (Finset.mem_range.1 hj), hb j (Finset.mem_range.1 hj)]]

/-- Block i of a string of blocks of one length. -/
theorem slice_flatMap (k n i : Nat) (f : Nat → Coeffs) (g : Coeffs → List Byte) (hg : ∀ x, (g x).length = n) (hi : i < k)
    (rest : List Byte) : slice ((polyVec k f).flatMap g ++ rest) (n * i) n = g (f i) := by
  induction k generalizing f i with
  | zero => omega
  | succ k ih =>
    have hcons : polyVec (k + 1) f = f 0 :: polyVec k fun i => f (i + 1) := by
      simp [polyVec, List.range_succ_eq_map]
    rw [hcons, List.flatMap_cons, List.append_assoc]
    cases i with
    | zero => rw [slice, Nat.mul_zero, List.drop_zero, List.take_left' (hg _)]
    | succ i =>
      have := ih i (fun i => f (i + 1)) (by omega)
      rw [slice] at this ⊢
      rw [show n * (i + 1) = (g (f 0)).length + n * i by rw [hg, Nat.mul_succ, Nat.add_comm], List.drop_length_add_append]
      exact this

/-! ## The algorithms, once the matrix is there -/

/-- K-PKE.KeyGen (R292): with the matrix's entries, the noise of σ with η1 at counters 0 to 2k-1 in the transformed domain. -/
theorem pkeKeyGen_of_entries {c : Collab} {n : Nat} {lp : LevelParams} {d : List Byte} {A : Nat → Nat → Coeffs}
    (h : ∀ i < lp.k, ∀ j < lp.k, matrixEntry c n ((c.h512 d).toList.take 32) i j = some (A i j)) :
    let s := fun j => ntt (noisePoly c lp.eta1 ((c.h512 d).toList.drop 32) j)
    pkeKeyGen c n lp d = some
      (encodeVec (polyVec lp.k fun i => (dotProduct lp.k (A i) s).add (s (lp.k + i))) ++ (c.h512 d).toList.take 32,
        encodeVec (polyVec lp.k s)) := by
  dsimp only
  rw [pkeKeyGen]
  dsimp only
  rw [expandMatrix_of_entries h, Option.map_some]
  refine congrArg some (Prod.ext (congrArg (encodeVec · ++ _) (List.map_congr_left fun i hi => ?_)) rfl)
  have hi := List.mem_range.1 hi
  rw [innerProduct_eq_dotProduct, polyVec_at _ _ _ hi]
  exact congrArg (Coeffs.add · _)
    (dotProduct_congr (fun j hj => matrixAt_of_entries A hi hj) fun j hj => polyVec_at _ _ _ hj)

/-- K-PKE.KeyGen while a matrix entry is missing. -/
theorem pkeKeyGen_of_missing {c : Collab} {n : Nat} {lp : LevelParams} {d : List Byte}
    (h : ∃ i < lp.k, ∃ j < lp.k, matrixEntry c n ((c.h512 d).toList.take 32) i j = none) :
    pkeKeyGen c n lp d = none := by
  rw [pkeKeyGen]
  dsimp only
  rw [expandMatrix_of_missing h]; rfl

/-- K-PKE.Encrypt (R293): with the matrix's entries, transposed in the product with r. -/
theorem pkeEncrypt_of_entries {c : Collab} {n : Nat} {lp : LevelParams} {pk m coins : List Byte}
    {A : Nat → Nat → Coeffs}
    (h : ∀ i < lp.k, ∀ j < lp.k, matrixEntry c n (slice pk (384 * lp.k) 32) i j = some (A i j)) :
    let r := fun j => ntt (noisePoly c lp.eta1 coins j)
    let u := fun i =>
      (nttInv (dotProduct lp.k (fun j => A j i) r)).add (noisePoly c lp.eta2 coins (lp.k + i))
    let v := ((nttInv (dotProduct lp.k (fun j => byteDecode 12 (slice pk (384 * j) 384)) r)).add
      (noisePoly c lp.eta2 coins (2 * lp.k))).add ((byteDecode 1 m).mapEach (decompress 1))
    pkeEncrypt c n lp pk m coins = some
      (((polyVec lp.k u).flatMap fun f => byteEncode lp.du (f.mapEach (compress lp.du))) ++
        byteEncode lp.dv (v.mapEach (compress lp.dv))) := by
  dsimp only
  rw [pkeEncrypt]
  dsimp only
  rw [expandMatrix_of_entries h, Option.map_some]
  have hr : ∀ j < lp.k, polyAt (polyVec lp.k fun i => ntt (noisePoly c lp.eta1 coins i)) j =
      ntt (noisePoly c lp.eta1 coins j) := fun j hj => polyVec_at _ _ _ hj
  have ht := innerProduct_eq_dotProduct (polyAt (polyVec lp.k fun i => byteDecode 12 (slice pk (384 * i) 384)))
    (polyAt (polyVec lp.k fun i => ntt (noisePoly c lp.eta1 coins i))) lp.k
  rw [ht, dotProduct_congr (fun j hj => polyVec_at _ _ _ hj) hr]
  refine congrArg (fun l => some (List.flatMap _ l ++ _)) (List.map_congr_left fun i hi => ?_)
  have hi := List.mem_range.1 hi
  rw [innerProduct_eq_dotProduct, polyVec_at _ _ _ hi,
    dotProduct_congr (fun j hj => matrixAt_of_entries A hj hi) hr]

/-- K-PKE.Encrypt while a matrix entry is missing. -/
theorem pkeEncrypt_of_missing {c : Collab} {n : Nat} {lp : LevelParams} {pk m coins : List Byte}
    (h : ∃ i < lp.k, ∃ j < lp.k, matrixEntry c n (slice pk (384 * lp.k) 32) i j = none) :
    pkeEncrypt c n lp pk m coins = none := by
  rw [pkeEncrypt]
  dsimp only
  rw [expandMatrix_of_missing h]; rfl

/-- K-PKE.Decrypt (R294). -/
theorem pkeDecrypt_eq (lp : LevelParams) (sk ct : List Byte) :
    let u := fun i => (byteDecode lp.du (slice ct (32 * lp.du * i) (32 * lp.du))).mapEach (decompress lp.du)
    let v := (byteDecode lp.dv (slice ct (32 * lp.du * lp.k) (32 * lp.dv))).mapEach (decompress lp.dv)
    pkeDecrypt lp sk ct = byteEncode 1 ((v.sub (nttInv (dotProduct lp.k
      (fun i => byteDecode 12 (slice sk (384 * i) 384)) fun i => ntt (u i)))).mapEach (compress 1)) := by
  dsimp only
  rw [pkeDecrypt]
  rw [innerProduct_eq_dotProduct,
    dotProduct_congr (fun j hj => polyVec_at _ _ _ hj) fun j hj => by rw [polyVec_at _ _ _ hj]]

/-! ## The ends of a macro command -/

/-- At LEVEL 3 a macro command takes BAD_LEVEL (R290). -/
theorem runMacro_badLevel {s : State} {body : LevelParams → Option State} (h : s.latchedLevel = 3) :
    runMacro s body = s.takeFault .badLevel := by
  unfold runMacro; rw [(levelParams_eq_none _).2 h]

/-- While its body has no answer a macro command stays busy. -/
theorem runMacro_busy {s : State} {body : LevelParams → Option State} {lp : LevelParams}
    (h : levelParams s.latchedLevel = some lp) (hb : body lp = none) : runMacro s body = s.keepBusy := by
  unfold runMacro; rw [h]; dsimp only; rw [hb]

/-- With its body's answer a macro command zeroes the scratch and completes (R290). -/
theorem runMacro_done {s t : State} {body : LevelParams → Option State} {lp : LevelParams}
    (h : levelParams s.latchedLevel = some lp) (hb : body lp = some t) :
    runMacro s body = t.clearScratch.complete := by
  unfold runMacro; rw [h]; dsimp only; rw [hb]

/-- A completed macro command is a completed command with the scratch zeroed. -/
theorem frame_clearScratch {b : Nat → Prop} {s u : State}
    (hu : u = { s with buf := u.buf, randPos := u.randPos }) (hb : ∀ a, ¬b a → u.buf.read a = s.buf.read a) :
    Frame [] [] b s u.clearScratch.complete :=
  frame_complete (by rw [hu]; rfl) (fun _ _ => by rw [hu]; rfl) (fun _ _ => by rw [hu]; exact ⟨rfl, rfl⟩) hb

/-- A macro command that has written one byte string. -/
theorem frame_writeBuf_clearScratch (s : State) (a : Nat) (bs : List Byte) :
    Frame [] [] (span a bs.length) s (s.writeBuf a bs).clearScratch.complete :=
  frame_clearScratch rfl fun _ hc => Memory.read_writeBytes_outside _ _ _ _ hc

/-- Completion leaves BUF. -/
@[simp] theorem readBuf_clearScratch_complete (s : State) (a n : Nat) :
    s.clearScratch.complete.readBuf a n = s.readBuf a n := rfl

/-- The random source's position is no part of BUF. -/
@[simp] theorem readBuf_setRandPos (s : State) (m a n : Nat) : (s.setRandPos m).readBuf a n = s.readBuf a n := rfl

/-- A part of a BufRead is a BufRead of the part. -/
theorem readBuf_part (s : State) (a n m k : Nat) (h : m + k ≤ n) :
    ((s.readBuf a n).drop m).take k = s.readBuf (a + m) k := by
  apply List.ext_getElem
  · simp; omega
  · intro i h1 h2
    simp [State.readBuf, Memory.readBytes] at *
    rw [Nat.add_assoc]

/-- The same, as a slice of the bytes read. -/
theorem slice_readBuf (s : State) (a n m k : Nat) (h : m + k ≤ n) : slice (s.readBuf a n) m k = s.readBuf (a + m) k :=
  readBuf_part s a n m k h

end Sys2Proof.Machine
end

