-- ==== Sys2Proof/Laws/Step.lean ====
section
/-!
SUPPORT. A step taken apart: which move or unit step it is, what each of these does, and the address map on every window.
-/

namespace Sys2Proof.Machine

/-! ## The unit's step -/

theorem step_of_empty_script {s : State} (h : s.script = []) : step s = unitStep s := by
  unfold step; rw [h]

theorem step_of_move {s : State} {e : HostEvent} {rest : List HostEvent} (h : s.script = e :: rest) :
    step s = moveOf e { s with script := rest } := by
  unfold step; rw [h]

theorem unitStep_of_idle {s : State} (h : s.phase = .idle) : unitStep s = .next s := by
  unfold unitStep; rw [h]

theorem unitStep_of_initialising {s : State} (h : s.phase = .initialising) : unitStep s = .next s.endInit := by
  unfold unitStep; rw [h]

theorem unitStep_of_running {s : State} {p : Pending} (h : s.phase = .running p) :
    unitStep s = runWord p.cmd s := by
  unfold unitStep; rw [h]

theorem runWord_of_command {w : Word} {i : Instr} (h : decode w = .command i) (s : State) : runWord w s = exec i s := by
  unfold runWord; rw [h]

theorem runWord_of_rejected {w : Word} {e : DecodeError} (h : decode w = .rejected e) (s : State) :
    runWord w s = .next (s.takeFault (decodeFault e)) := by
  unfold runWord; rw [h]

/-- `withFetchWord` makes the next step run its word. -/
theorem step_withFetchWord (s : State) (w : Word) :
    step (s.withFetchWord 32 w.toNat) = runWord w (s.withFetchWord 32 w.toNat) := by
  have hw : BitVec.ofNat 32 (w.toNat % 2 ^ 32) = w := by
    rw [Nat.mod_eq_of_lt w.isLt]; simp
  simp only [State.withFetchWord, hw]
  rfl

/-! ## Which state an update of the unit's state leaves busy -/

theorem busy_of_running {s : State} {p : Pending} (h : s.phase = .running p) : s.busy = true := by
  simp [State.busy, h]

theorem phase_idle_iff (s : State) : s.busy = false ↔ s.phase = .idle := by
  cases h : s.phase <;> simp [State.busy, h]

/-! ## The address map (R99) -/

theorem addressMap_freg (i : Fin 16) (low : Fin 4) :
    addressMap (BitVec.ofNat 16 (0x0400 + 4 * i.val + low.val)) = .freg i := by
  revert i low; decide

theorem addressMap_slotWord (p : Fin 16) (j : Fin 256) (low : Fin 4) :
    addressMap (BitVec.ofNat 16 (0x4000 + 1024 * p.val + 4 * j.val + low.val)) = .slotWord p j := by
  have hp := p.isLt
  have hj := j.isLt
  have hl := low.isLt
  have ha : (0x4000 + 1024 * p.val + 4 * j.val + low.val) % 2 ^ 16 / 4 * 4 = 0x4000 + 1024 * p.val + 4 * j.val := by
    omega
  simp only [addressMap, BitVec.toNat_ofNat, ha]
  repeat rw [if_neg (by omega)]
  rw [if_pos (by omega)]
  congr 1 <;> apply Fin.ext <;> simp only [Fin.val_ofNat] <;> omega

theorem addressMap_buf (n : Fin 2048) (low : Fin 4) :
    addressMap (BitVec.ofNat 16 (0x8000 + 4 * n.val + low.val)) = .buf (4 * n.val) := by
  have hn := n.isLt
  have hl := low.isLt
  have ha : (0x8000 + 4 * n.val + low.val) % 2 ^ 16 / 4 * 4 = 0x8000 + 4 * n.val := by omega
  simp only [addressMap, BitVec.toNat_ofNat, ha]
  repeat rw [if_neg (by omega)]
  rw [if_pos (by omega)]
  exact congrArg Target.buf (by omega)

/-- Every BUF address the map gives is a whole word of BUF. -/
theorem addressMap_buf_range {addr : HostAddr} {a : Nat} (h : addressMap addr = .buf a) : a + 4 ≤ 8192 := by
  unfold addressMap at h
  have h4 : BitVec.toNat addr / 4 * 4 % 4 = 0 := by omega
  generalize BitVec.toNat addr / 4 * 4 = x at h h4
  by_cases hx : 0x8000 ≤ x ∧ x < 0xA000
  · dsimp only at h
    repeat rw [if_neg (by omega)] at h
    rw [if_pos hx] at h
    have := Target.buf.inj h
    omega
  · simp only [if_neg hx] at h
    iterate 11 rw [ite_eq_iff'] at h
    simp only [reduceCtorEq] at h
    tauto

/-! ## Reset (R400-R402) -/

/-- What the reset input leaves: the reset state, the host's side, and the random source where `abandonDraws` puts it. -/
theorem resetBlock_eq (s : State) (rand : Nat → Option Byte) :
    s.resetBlock rand = { State.reset with
      script := s.script, rdata := s.rdata, randPos := (s.abandonDraws rand).1, freeDraws := (s.abandonDraws rand).2 } := rfl

/-- A reset that finds no drawing command running leaves the random source where it is. -/
theorem abandonDraws_of_none {s : State} {rand : Nat → Option Byte}
    (h : s.abandonedDraws rand (Config.drawsAbandoned s.freeDraws) = none) :
    s.abandonDraws rand = (s.randPos, s.freeDraws) := by
  unfold State.abandonDraws; rw [h]

/-! ## Bus accesses -/

theorem blockAddr_of_offset (a : HostAddr) : blockAddr (Config.baseAddr + a.toNat) = some a := by
  have := a.isLt
  unfold blockAddr
  rw [if_pos (by omega), Nat.add_sub_cancel_left]
  simp

theorem blockAddr_outside {addr : Nat} (h : addr < Config.baseAddr ∨ Config.baseAddr + 0x10000 ≤ addr) :
    blockAddr addr = none := by
  unfold blockAddr
  rw [if_neg (by omega)]

end Sys2Proof.Machine
end

