-- ==== Sys2Proof/Machine/Assembler.lean ====
section
/-!
DEFINITION. The assembler syntax: lines, their written forms and their commands (30_encoding.md R120), the operand ranges
the assembler refuses (R122) and the pseudo-instructions (R121). The machine does not use it: it sees words alone.
-/

namespace Sys2Proof.Machine

/-- An operand as R120 writes it; its number is not yet checked. -/
inductive Operand where
  /-- `F<n>` -/
  | f (n : Nat)
  /-- `P<n>` -/
  | p (n : Nat)
  /-- `P<s>[idx]` -/
  | word (s idx : Nat)
  /-- `#n` -/
  | imm (n : Nat)
  /-- `@blk` -/
  | block (n : Nat)
  /-- `NORMAL` or `NTT` -/
  | domain (t : Tag)
deriving DecidableEq, Repr

/-- One assembly line. -/
structure Line where
  mnemonic : String
  operands : List Operand
deriving DecidableEq, Repr

/-- The written forms of an operand; an immediate has a decimal and a 0x-hexadecimal one (R120). R120 names the two bases for
`#n` alone: that a block number `@blk` and a slot index `[idx]` are written in decimal only, that no number has leading
zeros, and that hexadecimal digits are lower-case is the model's choice (DESIGN CHOICE, log entry 20). -/
def Operand.spellings : Operand → List String
  | .f n => ["F" ++ toString n]
  | .p n => ["P" ++ toString n]
  | .word s idx => ["P" ++ toString s ++ "[" ++ toString idx ++ "]"]
  | .imm n => ["#" ++ toString n, "#0x" ++ String.ofList (Nat.toDigits 16 n)]
  | .block n => ["@" ++ toString n]
  | .domain .normal => ["NORMAL"]
  | .domain .ntt => ["NTT"]

/-- The written forms of a list of operands, with ", " between them. -/
def operandSpellings : List Operand → List String
  | [] => [""]
  | [o] => o.spellings
  | o :: os => o.spellings.flatMap fun t => (operandSpellings os).map fun u => t ++ ", " ++ u

/-- The written forms of a line: the mnemonic, and after a space the operands, if it has any (R120). The spaces are the
model's choice (DESIGN CHOICE, log entry 20). -/
def Line.spellings (l : Line) : List String :=
  if l.operands.isEmpty then [l.mnemonic]
  else (operandSpellings l.operands).map fun t => l.mnemonic ++ " " ++ t

/-- A number inside a field of `n` values; outside it the assembler refuses (R122). -/
def inField (n k : Nat) : Option (Fin n) := if h : k < n then some ⟨k, h⟩ else none

/-! ## The operand forms of the formats (R120); the destination stands first but in FST, FEQ, FBCT, FBGS and PENC -/

/-- `OP Fx, Fy, Fz` (R3, BF). -/
def lineFFF (c : FReg → FReg → FReg → Instr) : List Operand → Option Instr
  | [.f x, .f y, .f z] => do return c (← inField 16 x) (← inField 16 y) (← inField 16 z)
  | _ => none

/-- `OP Fx, Fy` (R2, RC). -/
def lineFF (c : FReg → FReg → Instr) : List Operand → Option Instr
  | [.f x, .f y] => do return c (← inField 16 x) (← inField 16 y)
  | _ => none

/-- `OP Fx, Fy, #n` (I12, Q). -/
def lineFFI (n : Nat) (c : FReg → FReg → Fin n → Instr) : List Operand → Option Instr
  | [.f x, .f y, .imm k] => do return c (← inField 16 x) (← inField 16 y) (← inField n k)
  | _ => none

/-- `OP Px, Py, Pz` (P3). -/
def linePPP (c : Slot → Slot → Slot → Instr) : List Operand → Option Instr
  | [.p x, .p y, .p z] => do return c (← inField 16 x) (← inField 16 y) (← inField 16 z)
  | _ => none

/-- `OP Px, Py` (P2). -/
def linePP (c : Slot → Slot → Instr) : List Operand → Option Instr
  | [.p x, .p y] => do return c (← inField 16 x) (← inField 16 y)
  | _ => none

/-- `OP Px, Py, #d` (PQ). -/
def linePPI (c : Slot → Slot → Width → Instr) : List Operand → Option Instr
  | [.p x, .p y, .imm d] => do return c (← inField 16 x) (← inField 16 y) (← inField 16 d)
  | _ => none

/-- The command a line stands for (R116, R120); `none` where the assembler refuses it. R122 lists the operands it refuses
and leaves CBD's N out: that an N outside 0-255 is refused too is the model's choice (DESIGN CHOICE, log entry 21). -/
def assemble (l : Line) : Option Instr :=
  match l.mnemonic, l.operands with
  | "NOP", [] => some .nop
  | "ZEROIZE", [] => some .zeroize
  | "FADD", ops => lineFFF .fadd ops
  | "FSUB", ops => lineFFF .fsub ops
  | "FNEG", ops => lineFF .fneg ops
  | "FMUL", ops => lineFFF .fmul ops
  | "FINV", ops => lineFF .finv ops
  | "FDIV", ops => lineFFF .fdiv ops
  | "FPOW", ops => lineFFI 4096 .fpow ops
  | "FEQ", ops => lineFF .feq ops
  | "FLI", [.f d, .imm v] => do return .fli (← inField 16 d) (← inField 4096 v)
  | "FMOV", ops => lineFF .fmov ops
  | "FRAND", [.f d] => do return .frand (← inField 16 d)
  | "FTOM", ops => lineFF .ftom ops
  | "FFROMM", ops => lineFF .ffromm ops
  | "FCOMP", ops => lineFFI 16 .fcomp ops
  | "FDECOMP", ops => lineFFI 16 .fdecomp ops
  | "FBCT", ops => lineFFF .fbct ops
  | "FBGS", ops => lineFFF .fbgs ops
  | "FLD", [.f d, .word s idx] => do return .fld (← inField 16 d) (← inField 16 s) (← inField 256 idx)
  | "FST", [.word s idx, .f a] => do return .fst (← inField 16 s) (← inField 16 a) (← inField 256 idx)
  | "PADD", ops => linePPP .padd ops
  | "PSUB", ops => linePPP .psub ops
  | "PNTT", ops => linePP .pntt ops
  | "PINTT", ops => linePP .pintt ops
  | "PBMUL", ops => linePPP .pbmul ops
  | "PBMAC", ops => linePPP .pbmac ops
  | "PCOPY", ops => linePP .pcopy ops
  | "PZERO", [.p d, .domain t] => do return .pzero (← inField 16 d) t
  | "PSCALE", [.p d, .p a, .f b] => do return .pscale (← inField 16 d) (← inField 16 a) (← inField 16 b)
  | "PCOMP", ops => linePPI .pcomp ops
  | "PDECOMP", ops => linePPI .pdecomp ops
  | "PARSE", [.p d, .imm x, .imm y, .block b] => do
    return .parse (← inField 16 d) (← inField 4 x) (← inField 4 y) (← inField 256 b)
  | "CBD", [.p d, .imm eta, .imm n, .block b] => do
    return .cbd (← inField 16 d) (← inField 4 eta) (← inField 256 n) (← inField 256 b)
  | "PENC", [.p a, .imm d, .block b] => do return .penc (← inField 16 a) (← inField 16 d) (← inField 256 b)
  | "PDEC", [.p s, .imm d, .block b, .domain t] => do
    return .pdec (← inField 16 s) (← inField 16 d) (← inField 256 b) t
  | "PKE_KEYGEN", [] => some .pkeKeygen
  | "PKE_ENC", [] => some .pkeEnc
  | "PKE_DEC", [] => some .pkeDec
  | "KEM_KEYGEN", [] => some .kemKeygen
  | "KEM_ENCAPS", [] => some .kemEncaps
  | "KEM_DECAPS", [] => some .kemDecaps
  | _, _ => none

/-- The lines a pseudo-instruction expands to (R121); any other line is itself. -/
def expandPseudo (l : Line) : List Line :=
  match l.mnemonic, l.operands with
  | "FCLR", [.f d] => [⟨"FLI", [.f d, .imm 0]⟩]
  | "FONE", [.f d] => [⟨"FLI", [.f d, .imm 1]⟩]
  | "FSQR", [.f d, .f a] => [⟨"FMUL", [.f d, .f a, .f a]⟩]
  | "FDBL", [.f d, .f a] => [⟨"FADD", [.f d, .f a, .f a]⟩]
  | "PMOV", [.p d, .p a] => [⟨"PCOPY", [.p d, .p a]⟩]
  | "PCLR", [.p d] => [⟨"PZERO", [.p d, .domain .normal]⟩]
  | "MSG2POLY", [.p d, .block b] =>
    [⟨"PDEC", [.p d, .imm 1, .block b, .domain .normal]⟩, ⟨"PDECOMP", [.p d, .p d, .imm 1]⟩]
  | "POLY2MSG", [.p a, .p t, .block b] =>
    [⟨"PCOMP", [.p t, .p a, .imm 1]⟩, ⟨"PENC", [.p t, .imm 1, .block b]⟩]
  | _, _ => [l]

/-- The command words of a program's lines; `none` where the assembler refuses one of them. -/
def assembleWords (lines : List Line) : Option (List Word) := (lines.flatMap expandPseudo).mapM fun l => (assemble l).map encode

end Sys2Proof.Machine
end

