-- ==== Sys2Proof/WellFormed.lean ====
section
/-!
DEFINITION. Which commands keep every field inside its legal set (30_encoding.md R114): the check that needs the
command word alone. A command that fails it decodes all the same, runs, and takes BAD_FIELD or BUF_RANGE (60_exceptions.md
R364, R366); the machine makes its own checks and does not call these.
-/

namespace Sys2Proof

/-- The widths FCOMP, FDECOMP, PCOMP and PDECOMP allow: 1-11 (R114). -/
def quantWidthOk (d : Width) : Bool := 1 ≤ d.val && d.val ≤ 11

/-- The widths PENC and PDEC allow: 1-12 (R114). -/
def packWidthOk (d : Width) : Bool := 1 ≤ d.val && d.val ≤ 12

/-- PENC and PDEC stay inside BUF: blk + d ≤ 256 (R114). -/
def packRangeOk (d : Width) (blk : Blk) : Bool := blk.val + d.val ≤ 256

/-- FLI's immediate is a field value: 0-3328 (R114). -/
def immediateOk (v : Fin 4096) : Bool := v.val < q

/-- CBD's eta is 2 or 3 (R114). -/
def etaOk (eta : Fin 4) : Bool := eta.val == 2 || eta.val == 3

/-- A butterfly's two results go to two registers (R114). -/
def butterflyOk (ra rb : FReg) : Bool := ra != rb

/-- Every field of the command is in its legal set. -/
def Instr.wellFormed : Instr → Bool
  | .nop | .zeroize => true
  | .fadd _ _ _ | .fsub _ _ _ | .fneg _ _ | .fmul _ _ _ | .finv _ _ | .fdiv _ _ _ | .fpow _ _ _ | .feq _ _ => true
  | .fli _ v => immediateOk v
  | .fmov _ _ | .frand _ | .ftom _ _ | .ffromm _ _ => true
  | .fcomp _ _ d | .fdecomp _ _ d => quantWidthOk d
  | .fbct ra rb _ | .fbgs ra rb _ => butterflyOk ra rb
  | .fld _ _ _ | .fst _ _ _ => true
  | .padd _ _ _ | .psub _ _ _ | .pntt _ _ | .pintt _ _ | .pbmul _ _ _ | .pbmac _ _ _ | .pcopy _ _ | .pzero _ _ => true
  | .pscale _ _ _ => true
  | .pcomp _ _ d | .pdecomp _ _ d => quantWidthOk d
  | .parse _ _ _ _ => true
  | .cbd _ eta _ _ => etaOk eta
  | .penc _ d blk | .pdec _ d blk _ => packWidthOk d && packRangeOk d blk
  | .pkeKeygen | .pkeEnc | .pkeDec | .kemKeygen | .kemEncaps | .kemDecaps => true

end Sys2Proof
end

