-- ==== Sys2Proof/Tests/Slice0.lean ====
section
/-!
SUPPORT. The model's own tests: ill-formed commands, one written-out word per command, the spec's worked examples and
vectors (their place in spec/ beside each), and a witness for the hypotheses of every statement.
-/

namespace Sys2Proof.Tests

-- One theorem at a time: elaborated side by side, these take the memory of a thread each.
set_option Elab.async false

open Sys2Proof Sys2Proof.Machine

/-! ## Ill-formed commands: one for each check of WellFormed.lean (30_encoding.md R114) -/

theorem test_quantWidth_refused : Instr.wellFormed (.fcomp 2 1 0) = false ∧ Instr.wellFormed (.pdecomp 2 1 12) = false := by
  decide
theorem test_packWidth_refused : Instr.wellFormed (.penc 0 13 0) = false ∧ Instr.wellFormed (.pdec 0 0 0 .ntt) = false := by
  decide
theorem test_packRange_refused : Instr.wellFormed (.penc 0 12 245) = false ∧ Instr.wellFormed (.penc 0 12 244) = true := by
  decide
theorem test_immediate_refused : Instr.wellFormed (.fli 1 3329) = false ∧ Instr.wellFormed (.fli 1 3328) = true := by decide
theorem test_eta_refused : Instr.wellFormed (.cbd 0 1 0 0) = false ∧ Instr.wellFormed (.cbd 0 3 0 0) = true := by decide
theorem test_butterfly_refused : Instr.wellFormed (.fbct 1 1 0) = false ∧ Instr.wellFormed (.fbgs 1 2 1) = true := by decide

/-! ## Words written out from the encodings (30_encoding.md R111, R112, R116): OP, A, B, C, then the low bits -/

theorem test_decode_control :
    decode 0b000000_00000000000000000000000000 = .command .nop ∧
    decode 0b000001_00000000000000000000000000 = .command .zeroize := by decide

theorem test_decode_field :
    decode 0b001000_0011_0001_0010_00000000000000 = .command (.fadd 3 1 2) ∧
    decode 0b001001_1111_0000_1000_00000000000000 = .command (.fsub 15 0 8) ∧
    decode 0b001010_0100_0001_000000000000000000 = .command (.fneg 4 1) ∧
    decode 0b001011_0011_0001_0010_00000000000000 = .command (.fmul 3 1 2) ∧
    decode 0b001100_0010_0001_000000000000000000 = .command (.finv 2 1) ∧
    decode 0b001101_0101_0110_0111_00000000000000 = .command (.fdiv 5 6 7) ∧
    decode 0b001110_0101_0001_000000_110011111111 = .command (.fpow 5 1 3327) ∧
    decode 0b001111_0000_0100_0001_00000000000000 = .command (.feq 4 1) ∧
    decode 0b010000_0001_0000000000_110100000000 = .command (.fli 1 3328) ∧
    decode 0b010001_0010_0001_000000000000000000 = .command (.fmov 2 1) ∧
    decode 0b010010_0111_0000000000000000000000 = .command (.frand 7) ∧
    decode 0b010011_0001_0010_000000000000000000 = .command (.ftom 1 2) ∧
    decode 0b010100_1000_1001_000000000000000000 = .command (.ffromm 8 9) := by decide

theorem test_decode_field_rest :
    decode 0b010101_0010_0001_0100_00000000000000 = .command (.fcomp 2 1 4) ∧
    decode 0b010110_0010_0001_1011_00000000000000 = .command (.fdecomp 2 1 11) ∧
    decode 0b010111_0001_0010_0011_00000000000000 = .command (.fbct 1 2 3) ∧
    decode 0b011000_0100_0010_0001_00000000000000 = .command (.fbgs 4 2 1) ∧
    decode 0b011001_0001_0010_0000000000_00010001 = .command (.fld 1 2 17) ∧
    decode 0b011010_0010_0001_0000000000_11111111 = .command (.fst 2 1 255) := by decide

theorem test_decode_poly :
    decode 0b100000_0011_0001_0010_00000000000000 = .command (.padd 3 1 2) ∧
    decode 0b100001_0011_0001_0010_00000000000000 = .command (.psub 3 1 2) ∧
    decode 0b100010_0001_0000_000000000000000000 = .command (.pntt 1 0) ∧
    decode 0b100011_0010_0001_000000000000000000 = .command (.pintt 2 1) ∧
    decode 0b100100_0011_0001_0010_00000000000000 = .command (.pbmul 3 1 2) ∧
    decode 0b100101_0100_0001_0010_00000000000000 = .command (.pbmac 4 1 2) ∧
    decode 0b100110_0101_0001_000000000000000000 = .command (.pcopy 5 1) ∧
    decode 0b100111_0101_00000000_1_0000000000000 = .command (.pzero 5 .ntt) ∧
    decode 0b100111_0101_00000000_0_0000000000000 = .command (.pzero 5 .normal) ∧
    decode 0b101000_0001_0000_0011_00000000000000 = .command (.pscale 1 0 3) ∧
    decode 0b101001_0001_0000_0001_00000000000000 = .command (.pcomp 1 0 1) ∧
    decode 0b101010_0010_0001_1010_00000000000000 = .command (.pdecomp 2 1 10) := by decide

theorem test_decode_sampling_and_macros :
    decode 0b110000_0001_01_10_0000000000_01100011 = .command (.parse 1 1 2 99) ∧
    decode 0b110001_0010_11_00000101_0000_11000111 = .command (.cbd 2 3 5 199) ∧
    decode 0b110010_0000_1100_0000000000_11001010 = .command (.penc 0 12 202) ∧
    decode 0b110011_0011_1010_0000_0_00000_10010100 = .command (.pdec 3 10 148 .normal) ∧
    decode 0b110011_0011_1100_0000_1_00000_00000000 = .command (.pdec 3 12 0 .ntt) ∧
    decode 0b111000_00000000000000000000000000 = .command .pkeKeygen ∧
    decode 0b111001_00000000000000000000000000 = .command .pkeEnc ∧
    decode 0b111010_00000000000000000000000000 = .command .pkeDec ∧
    decode 0b111011_00000000000000000000000000 = .command .kemKeygen ∧
    decode 0b111100_00000000000000000000000000 = .command .kemEncaps ∧
    decode 0b111101_00000000000000000000000000 = .command .kemDecaps := by decide

/-- The rejected words of 95_test_vectors.md section 8, and the priorities of R115 over R114. -/
theorem test_decode_rejects :
    decode 0x0C000000 = .rejected .illegalOpcode ∧ decode 0xFC000000 = .rejected .illegalOpcode ∧
    decode 0x00000001 = .rejected .reservedBits ∧ decode 0x20C48001 = .rejected .reservedBits ∧
    decode 0x5C440001 = .rejected .reservedBits ∧ decode 0xE0000001 = .rejected .reservedBits ∧
    decodeTableWord 32 0x20C48000 = some (.fadd 3 1 2) ∧ decodeTableWord 32 0x20C48001 = none := by decide

/-! ## The assembler: the worked encodings of 30_encoding.md section 6, refusals of R122, an expansion of R121 -/

theorem test_assemble_worked : assembleWords
   [⟨"FADD", [.f 3, .f 1, .f 2]⟩, ⟨"FNEG", [.f 4, .f 1]⟩, ⟨"FEQ", [.f 4, .f 1]⟩, ⟨"FRAND", [.f 7]⟩,
    ⟨"FPOW", [.f 5, .f 1, .imm 3327]⟩, ⟨"FLI", [.f 1, .imm 5]⟩, ⟨"FCOMP", [.f 2, .f 1, .imm 4]⟩,
    ⟨"FBCT", [.f 1, .f 2, .f 3]⟩, ⟨"FLD", [.f 1, .word 2 17]⟩, ⟨"FST", [.word 2 17, .f 1]⟩, ⟨"PNTT", [.p 1, .p 0]⟩,
    ⟨"PBMAC", [.p 4, .p 1, .p 2]⟩, ⟨"PSCALE", [.p 1, .p 0, .f 3]⟩, ⟨"PZERO", [.p 5, .domain .ntt]⟩,
    ⟨"PARSE", [.p 1, .imm 1, .imm 0, .block 99]⟩, ⟨"CBD", [.p 2, .imm 3, .imm 5, .block 199]⟩,
    ⟨"PENC", [.p 0, .imm 12, .block 202]⟩, ⟨"PDEC", [.p 3, .imm 10, .block 148, .domain .normal]⟩,
    ⟨"PDEC", [.p 3, .imm 12, .block 0, .domain .ntt]⟩, ⟨"KEM_DECAPS", []⟩] =
  some [0x20C48000, 0x29040000, 0x3C104000, 0x49C00000, 0x39440CFF, 0x40400005, 0x54850000, 0x5C48C000, 0x64480011,
    0x68840011, 0x88400000, 0x95048000, 0xA040C000, 0x9D402000, 0xC0500063, 0xC4B050C7, 0xC83000CA, 0xCCE80094,
    0xCCF02000, 0xF4000000] := by rfl
theorem test_assembler_refuses : assemble ⟨"FADD", [.f 16, .f 0, .f 0]⟩ = none ∧ assemble ⟨"FLI", [.f 0, .imm 4096]⟩ = none ∧
    assemble ⟨"PENC", [.p 0, .imm 12, .imm 99]⟩ = none ∧ assemble ⟨"CBD", [.p 0, .imm 2, .imm 256, .block 0]⟩ = none ∧ (assemble ⟨"FLI", [.f 0, .imm 3329]⟩).isSome = true := by
  exact ⟨rfl, rfl, rfl, rfl, rfl⟩
theorem test_pseudo : (expandPseudo ⟨"POLY2MSG", [.p 3, .p 4, .block 197]⟩).map assemble =
    [some (.pcomp 4 3 1), some (.penc 4 1 197)] := by rfl

theorem test_spellings : Line.spellings ⟨"FPOW", [.f 5, .f 1, .imm 3327]⟩ = ["FPOW F5, F1, #3327", "FPOW F5, F1, #0xcff"] ∧
    Line.spellings ⟨"FLD", [.f 1, .word 2 17]⟩ = ["FLD F1, P2[17]"] ∧
    Line.spellings ⟨"PDEC", [.p 3, .imm 1, .block 148, .domain .normal]⟩ =
      ["PDEC P3, #1, @148, NORMAL", "PDEC P3, #0x1, @148, NORMAL"] := by decide

/-! ## Small states -/

/-- The unit after reset initialisation. -/
def ready : State := { State.reset with phase := .idle }

/-- The unit running a command word accepted at a LEVEL. -/
def running (w : Word) (level : BitVec 2) : State := State.accept { ready with level := level } w

/-- What a command leaves. -/
def after (i : Instr) (s : State) : State :=
  match exec i s with
  | .next t => t
  | .fault _ => s
  | .refused _ => s

/-- F1, F2, F3 hold three values. -/
def withValues (a b z : Nat) : State := ((ready.setFval 1 a).setFval 2 b).setFval 3 z

/-- Slot P1 holds the first of two value lists and P2 the second, each with the tag. -/
def withPolys (f g : List Nat) (t : Tag) : State :=
  (ready.setSlotVals 1 (Coeffs.ofList f) t).setSlotVals 2 (Coeffs.ofList g) t

/-- The random source of 40_field.md R164's example, which stalls after its four bytes. -/
def exampleSource : Nat → Option Byte := fun n => [0xFF, 0xFF, 0x00, 0x1D][n]?

/-- The first two values of a slot and its tag. -/
def view (s : State) (p : Slot) : Nat × Nat × Tag := ((s.slotVals p).at 0, (s.slotVals p).at 1, s.tag p)

/-! ## Field unit (95_test_vectors.md section 2; the examples of 40_field.md) -/

theorem test_mont_values : [0, 1, 2, 3, 5, 7, 12, 17, 35, 1664, 1665, 3328].map (fun v => (mont v).toNat)
    = [0, 2285, 1241, 197, 1438, 2679, 788, 2226, 79, 522, 2807, 1044] := by decide

theorem test_fadd : (after (.fadd 3 1 2) (withValues 5 7 0)).freg 3 = 788 ∧
    (after (.fadd 1 1 2) (withValues 3328 3328 0)).freg 1 = 2088 := by decide
theorem test_fsub : (after (.fsub 3 1 2) (withValues 0 1 0)).freg 3 = 1044 ∧
    (after (.fsub 3 1 2) (withValues 1 3328 0)).freg 3 = 1241 := by decide
theorem test_fneg : (after (.fneg 4 1) (withValues 1 0 0)).freg 4 = 1044 ∧
    (after (.fneg 4 1) (withValues 0 0 0)).freg 4 = 0 := by decide
theorem test_fmul : (after (.fmul 3 1 2) (withValues 5 7 0)).freg 3 = 79 ∧
    (after (.fmul 3 1 2) (withValues 1664 1665 0)).freg 3 = 261 := by decide
theorem test_finv : (after (.finv 2 1) (withValues 17 0 0)).freg 2 = 1701 ∧
    (after (.finv 2 1) (withValues 0 9 0)).freg 2 = 0 := by decide +kernel
theorem test_fdiv : (after (.fdiv 3 1 2) (withValues 35 7 0)).freg 3 = 1438 ∧
    (after (.fdiv 3 1 2) (withValues 35 0 9)).freg 3 = 0 := by decide +kernel
theorem test_fpow : (after (.fpow 5 1 128) (withValues 17 0 0)).freg 5 = 1044 ∧
    (after (.fpow 5 1 0) (withValues 0 0 0)).freg 5 = 2285 := by decide +kernel
theorem test_feq : (after (.feq 2 1) (withValues 5 5 0)).eqFlag = true ∧
    (after (.feq 2 1) { withValues 5 6 0 with eqFlag := true }).eqFlag = false := by decide
theorem test_fli : (after (.fli 1 5) ready).freg 1 = 1438 ∧ (after (.fli 1 3329) ready).errcode = .badField := by decide
theorem test_fmov : (after (.fmov 4 1) (withValues 5 0 0)).freg 4 = 1438 := by decide
theorem test_frand : (fun t : State => (t.freg 7, t.randPos))
    (frandFrom exampleSource 7 ready) = (1044, 4) := by decide +kernel
theorem test_ftom : (after (.ftom 1 1) (ready.setFreg 1 5)).freg 1 = 1438 := by decide
theorem test_ffromm : (after (.ffromm 2 1) (ready.setFreg 1 1438)).freg 2 = 5 := by decide
theorem test_fcomp : val ((after (.fcomp 2 1 4) (withValues 1665 0 0)).freg 2) = 8 ∧
    (after (.fcomp 2 1 0) ready).errcode = .badField := by decide
theorem test_fdecomp : val ((after (.fdecomp 2 1 4) (withValues 8 0 0)).freg 2) = 1665 ∧
    val ((after (.fdecomp 2 1 1) (withValues 3 0 0)).freg 2) = 1665 := by decide
theorem test_fbct : (fun t : State => (t.freg 1, t.freg 2)) (after (.fbct 1 2 3) (withValues 1 2 17)) = (79, 1162) ∧
    (after (.fbct 1 1 0) ready).errcode = .badField := by decide
theorem test_fbgs : (fun t : State => (val (t.freg 1), val (t.freg 2))) (after (.fbgs 1 2 3) (withValues 1 2 17)) = (3, 17) := by
  decide
theorem test_fld : (after (.fld 1 2 17) (ready.setSlotWord 2 17 1438)).freg 1 = 1438 := by decide +kernel
theorem test_fst : (after (.fst 2 1 17) (withValues 5 0 0)).slotWord 2 17 = 1438 ∧
    (after (.fst 2 1 17) (withValues 5 0 0)).slotWord 2 16 = 0 := by decide +kernel

/-! ## Polynomial unit (95_test_vectors.md sections 3, 4; the examples of 41_poly_ntt.md) -/

theorem test_padd : view (after (.padd 3 1 2) (withPolys [1, 1] [0, 3328] .normal)) 3 = (1, 0, .normal) := by decide +kernel
theorem test_psub : view (after (.psub 3 1 2) (withPolys [0, 0] [1, 1] .ntt)) 3 = (3328, 3328, .ntt) := by decide +kernel
theorem test_pntt : view (after (.pntt 1 1) (withPolys [1] [] .normal)) 1 = (1, 0, .ntt) := by decide +kernel
theorem test_pintt_mismatch : (after (.pintt 2 1) (withPolys [1] [] .normal)).errcode = .domainMismatch := by decide +kernel
theorem test_pbmul : view (after (.pbmul 3 1 2) (withPolys [1, 2] [3, 4] .ntt)) 3 = (139, 10, .ntt) := by decide +kernel
theorem test_pbmac : view (after (.pbmac 1 1 2) (withPolys [1, 2] [3, 4] .ntt)) 1 = (140, 12, .ntt) := by decide +kernel
theorem test_pcopy : view (after (.pcopy 5 1) (withPolys [7, 9] [] .ntt)) 5 = (7, 9, .ntt) := by decide +kernel
theorem test_pzero : view (after (.pzero 1 .ntt) (withPolys [7, 9] [] .normal)) 1 = (0, 0, .ntt) := by decide +kernel
theorem test_pscale : view (after (.pscale 4 1 3) ((withPolys [1, 1] [] .normal).setFval 3 5)) 4 = (5, 5, .normal) := by
  decide +kernel
theorem test_pcomp : view (after (.pcomp 4 1 1) (withPolys [1665, 3328] [] .normal)) 4 = (1, 0, .normal) := by decide +kernel
theorem test_pdecomp : view (after (.pdecomp 4 1 1) (withPolys [1, 3] [] .normal)) 4 = (1665, 1665, .normal) := by
  decide +kernel

theorem test_ntt_vector : (List.range 8).map (ntt (Coeffs.build id)).at = [2429, 2845, 425, 795, 1865, 1356, 624, 31] := by
  decide +kernel
theorem test_nttInv_vector :
    [0, 2].map (nttInv (Coeffs.ofList [1])).at = [3303, 2740] := by decide +kernel
theorem test_baseMul_second_block :
    (List.range 4).map (baseMul (Coeffs.ofList [0, 0, 1, 2]) (Coeffs.ofList [0, 0, 3, 4])).at = [0, 0, 3196, 10] := by
  decide +kernel

theorem test_compress_vectors :
    [0, 1, 832, 833, 1664, 1665, 2496, 2497, 3328].map (compress 1) = [0, 0, 0, 1, 1, 1, 1, 0, 0] ∧
    [0, 1, 832, 833, 1664, 1665, 2496, 2497, 3328].map (compress 11) = [0, 1, 512, 512, 1024, 1024, 1536, 1536, 2047] ∧
    [0, 1, 15, 8].map (decompress 4) = [0, 208, 3121, 1665] ∧
    [0, 1, 2047, 1024].map (decompress 11) = [0, 2, 3327, 1665] := by decide

/-- The first sixteen entries of the table of R206, and the first eight of R211. -/
theorem test_zetas_and_gammas :
    (List.range 16).map zeta = [1, 1729, 2580, 3289, 2642, 630, 1897, 848, 1062, 1919, 193, 797, 2786, 3260, 569, 1746] ∧
    (List.range 8).map gamma = [17, 3312, 2761, 568, 583, 2746, 2649, 680] := by decide

/-! ## Samplers and packers (95_test_vectors.md sections 5, 6) -/

theorem test_byteEncode :
    ((byteEncode 12 (Coeffs.ofList [0xABC, 0x123])).take 3 = [0xBC, 0x3A, 0x12]) ∧
    ((byteEncode 10 (Coeffs.ofList [1, 1023, 512, 3])).take 5 = [0x01, 0xFC, 0x0F, 0xE0, 0x00]) ∧
    ((byteEncode 5 (Coeffs.ofList [31, 1])).take 2 = [0x3F, 0x00]) := by decide +kernel
theorem test_byteDecode :
    (List.range 2).map (byteDecode 12 (List.replicate 384 0xFF)).at = [766, 766] ∧
    (List.range 9).map (byteDecode 1 (0xA5 :: List.replicate 31 0)).at = [1, 0, 1, 0, 0, 1, 0, 1, 0] ∧
    (List.range 2).map (byteDecode 12 ([0x01, 0xD0] ++ List.replicate 382 0)).at = [1, 13] := by decide +kernel
theorem test_penc : (after (.penc 1 12 202) (withPolys [1, 2] [] .normal)).readBuf 0x1940 3 = [0x01, 0x20, 0x00] ∧
    (after (.penc 1 12 250) ready).errcode = .bufRange := by decide +kernel
theorem test_pdec : view (after (.pdec 3 12 0 .ntt) (ready.writeBuf 0 [0xFF, 0xFF, 0xFF])) 3 = (766, 766, .ntt) := by
  decide +kernel
theorem test_cbd_vectors :
    (List.range 4).map (samplePolyCBD 2 (List.replicate 128 0x03)).at = [2, 0, 2, 0] ∧
    (List.range 2).map (samplePolyCBD 3 (0x07 :: List.replicate 191 0)).at = [3, 0] ∧
    (List.range 2).map (samplePolyCBD 3 (0x38 :: List.replicate 191 0)).at = [3326, 0] := by decide +kernel
theorem test_candidates : candidate1 0x01 0xD0 = 1 ∧ candidate2 0xD0 0x0C = 205 ∧ candidate1 0xFF 0xFF = 4095 := by decide

/-! ## Control, faults and the host interface (95_test_vectors.md sections 7, 8) -/

theorem test_nop : (after .nop { ready with cmdcnt := 5 }).cmdcnt = 6 ∧ (after .nop ready).done = true := by decide
theorem test_zeroize : (fun t : State => (t.freg 1, t.buf, t.level)) (after .zeroize
    { (withValues 5 0 0).writeBuf 0 [0xAA] with level := 2 }) = (0, [], 2) := by decide
theorem test_fault_report : runWord 0x00000001 (running 0x00000001 0) = .next
    { running 0x00000001 0 with phase := .idle, done := true, err := true, errcode := .reservedBits, errcmd := 0x00000001 } := by
  rfl
theorem test_bad_level : (after .pkeKeygen (running 0xE0000000 3)).errcode = .badLevel ∧
    (after .kemDecaps (running 0xF4000000 3)).done = true := by decide +kernel
theorem test_canonical_writes :
    (ready.hostWrite 0x0404 3329).badval = true ∧ (ready.hostWrite 0x4000 0x00001001).badval = true ∧
    (ready.hostWrite 0x0404 1438).freg 1 = 1438 := by decide +kernel
theorem test_buf_window : (ready.writeBuf 0 [0x01, 0x02, 0x03, 0x04]).hostRead 0x8000 = 0x04030201 := by decide
theorem test_reads : ready.hostRead 0x0000 = 0x4D4B0001 ∧ ready.hostRead 0x0300 = 0 ∧ ready.hostRead 0x0008 = 0 ∧
    State.reset.hostRead 0x0008 = 1 := by decide
theorem test_fault_state : ({ ready with err := true }.hostWrite 0x000C 0).cmdrej = true ∧
    ({ ready with err := true }.hostWrite 0x000C 0).busy = false ∧
    ({ ready with err := true, errcode := .badField }.hostWrite 0x0008 4).errcode = .badField := by decide
theorem test_irq : { ready with done := true, doneIE := true }.irq = true ∧
    { ready with err := true, doneIE := true }.irq = false ∧ { ready with err := true, errIE := true }.irq = true := by decide

/-- The step after reset ends the initialisation; a unit with nothing to do then stays as it is. -/
theorem test_first_steps : step State.reset = .next ready ∧ step ready = .next ready := ⟨rfl, rfl⟩

/-! ## A collaborator that answers zeros, and one that answers ones

With the first every sampled polynomial is zero, so the macro commands can be followed by hand; with the second no matrix
candidate is below q. -/

def zeros : Collab where
  h256 _ := Vector.replicate 32 0
  h512 _ := Vector.replicate 64 0
  xof128 _ _ _ _ := 0
  xof256 _ _ _ := 0
  kdf _ := Vector.replicate 32 0

def ones : Collab := { zeros with xof128 := fun _ _ _ _ => 0xFF }

/-- The parameter row of LEVEL 0 (00_scope.md R11). -/
def level0 : LevelParams := { k := 2, eta1 := 3, eta2 := 2, du := 10, dv := 4 }

theorem level0_row : levelParams 0 = some level0 := by decide

theorem zero_at (j : Nat) : Coeffs.zero.at j = 0 := by rw [Coeffs.zero, Coeffs.build_at]; split <;> rfl

theorem candidates_of_zeros (n p : Nat) : candidatesFrom (fun _ => 0) n p = List.replicate (2 * n) 0 := by
  induction n generalizing p with
  | zero => rfl
  | succ n ih => rw [candidatesFrom, ih, show 2 * (n + 1) = 2 + 2 * n by omega, ← List.replicate_append_replicate]; rfl

theorem sample_of_zeros {n : Nat} (h : 128 ≤ n) : sampleNTT (fun _ => 0) n = some Coeffs.zero := by
  rw [sampleNTT_eq, candidates_of_zeros, if_pos (by rw [List.length_replicate]; omega)]
  congr 1
  apply Coeffs.ext_at
  intro j hj
  rw [Coeffs.ofList_at _ hj, zero_at, List.take_replicate, List.getD_eq_getElem?_getD]
  simp

theorem candidates_of_ones (n p : Nat) : candidatesFrom (fun _ => 0xFF) n p = [] := by
  induction n generalizing p with
  | zero => rfl
  | succ n ih => rw [candidatesFrom, ih]; rfl

theorem sample_of_ones (n : Nat) : sampleNTT (fun _ => 0xFF) n = none := by
  rw [sampleNTT_eq, candidates_of_ones, if_neg (by decide)]

theorem expandMatrix_of_zeros {n : Nat} (h : 128 ≤ n) (k : Nat) (rho : List Byte) :
    expandMatrix zeros n k rho = some ((List.range k).map fun _ => (List.range k).map fun _ => Coeffs.zero) := by
  exact expandMatrix_of_entries fun _ _ _ _ => sample_of_zeros h

theorem expandMatrix_of_ones (n : Nat) (rho : List Byte) : expandMatrix ones n 2 rho = none := by
  exact expandMatrix_of_missing ⟨0, by decide, 0, by decide, sample_of_ones n⟩

theorem encrypt_of_zeros_some {n : Nat} (h : 128 ≤ n) (lp : LevelParams) (pk m coins : List Byte) :
    ∃ ct, pkeEncrypt zeros n lp pk m coins = some ct := by
  simp [pkeEncrypt, expandMatrix_of_zeros h]

theorem keygen_of_zeros_some {n : Nat} (h : 128 ≤ n) (lp : LevelParams) (d : List Byte) :
    ∃ pk sk, pkeKeyGen zeros n lp d = some (pk, sk) := by
  simp [pkeKeyGen, expandMatrix_of_zeros h]

theorem matrix_of_zeros_at (k i j : Nat) :
    matrixAt ((List.range k).map fun _ => (List.range k).map fun _ => Coeffs.zero) i j = Coeffs.zero := by
  simp only [matrixAt, polyAt, List.getD_eq_getElem?_getD]
  by_cases hi : i < k
  · by_cases hj : j < k <;> simp [hi, hj]
  · simp [hi]

theorem matrix_of_zeros_row (k i : Nat) :
    matrixAt ((List.range k).map fun _ => (List.range k).map fun _ => Coeffs.zero) i = fun _ => Coeffs.zero :=
  funext fun j => matrix_of_zeros_at k i j

theorem ntt_zero : ntt Coeffs.zero = Coeffs.zero := by
  have h : ∀ len, nttLayer Coeffs.zero len = Coeffs.zero := fun len => Coeffs.ext_at fun j hj => by
    rw [nttLayer, Coeffs.build_at_lt _ hj]
    simp only [zero_at]
    split <;> simp [addMod, subMod, mulMod]
  simp only [ntt, List.foldl, h]

theorem nttInv_zero : nttInv Coeffs.zero = Coeffs.zero := by
  have h : ∀ len, inttLayer Coeffs.zero len = Coeffs.zero := fun len => Coeffs.ext_at fun j hj => by
    rw [inttLayer, Coeffs.build_at_lt _ hj]
    simp only [zero_at]
    split <;> simp [addMod, subMod, mulMod]
  simp only [nttInv, List.foldl, h]
  exact Coeffs.ext_at fun j hj => by rw [Coeffs.scale_at _ _ hj]; simp [zero_at]

theorem baseMul_zero (g : Coeffs) : baseMul Coeffs.zero g = Coeffs.zero := Coeffs.ext_at fun j hj => by
  rw [baseMul, Coeffs.build_at_lt _ hj]
  simp only [zero_at]
  split <;> simp

theorem add_zero_zero : Coeffs.zero.add Coeffs.zero = Coeffs.zero := Coeffs.ext_at fun j hj => by
  rw [Coeffs.add_at _ _ hj]; simp [zero_at]

theorem innerProduct_zero (b : Nat → Coeffs) (k : Nat) : innerProduct (fun _ => Coeffs.zero) b k = Coeffs.zero := by
  induction k with
  | zero => rfl
  | succ k ih => rw [innerProduct, ih, baseMul_zero, add_zero_zero]

theorem polyAt_zeros (k : Nat) : polyAt (polyVec k fun _ => Coeffs.zero) = fun _ => Coeffs.zero := by
  funext i
  by_cases h : i < k <;> simp [polyAt, polyVec, List.getD_eq_getElem?_getD, h]

theorem bit_of_zero_bytes (n i : Nat) : bytesToBits (List.replicate n 0) i = false := by
  by_cases h : i / 8 < n <;> simp [bytesToBits, List.getD_eq_getElem?_getD, h]

theorem bitCount_false (lo n : Nat) : bitCount (fun _ => false) lo n = 0 := by
  induction n with
  | zero => rfl
  | succ n ih => rw [bitCount, ih]; rfl

theorem bitSum_false (n : Nat) : bitSum n (fun _ => false) = 0 := by
  induction n with
  | zero => rfl
  | succ n ih => rw [bitSum, ih]; simp

theorem noise_of_zeros (eta : Nat) (s : List Byte) (n : Nat) : noisePoly zeros eta s n = Coeffs.zero := by
  have hp : prf zeros eta s (Byte.ofNat n) = List.replicate (64 * eta) 0 := by
    apply List.ext_getElem <;> simp [prf, zeros]
  have hb : bytesToBits (List.replicate (64 * eta) 0) = fun _ => false := funext fun i => bit_of_zero_bytes _ i
  rw [noisePoly, hp]
  exact Coeffs.ext_at fun j hj => by
    rw [samplePolyCBD, Coeffs.build_at_lt _ hj, hb, bitCount_false, bitCount_false, zero_at]; rfl

theorem byteEncode_zero (d : Nat) : byteEncode d Coeffs.zero = List.replicate (32 * d) 0 := by
  apply List.ext_getElem
  · simp
  · intro i h1 h2
    simp [byteEncode, bitsToBytes, zero_at, bitSum_false, Byte.ofNat]

theorem byteDecode_zero (d n : Nat) : byteDecode d (List.replicate n 0) = Coeffs.zero := Coeffs.ext_at fun j hj => by
  rw [byteDecode_at _ _ hj, zero_at]
  simp only [bit_of_zero_bytes, bitSum_false]
  split <;> rfl

theorem mapEach_zero (h : Nat → Nat) (h0 : h 0 = 0) : Coeffs.zero.mapEach h = Coeffs.zero := Coeffs.ext_at fun j hj => by
  rw [Coeffs.mapEach_at _ _ hj, zero_at, h0]

theorem slice_replicate (n start len : Nat) (h : start + len ≤ n) :
    slice (List.replicate n (0 : Byte)) start len = List.replicate len 0 := by
  simp [slice]; omega

theorem flatMap_zero (g : Coeffs → List Byte) (n : Nat) (h : g Coeffs.zero = List.replicate n 0) (k : Nat) :
    (polyVec k fun _ => Coeffs.zero).flatMap g = List.replicate (k * n) 0 := by
  induction k with
  | zero => simp [polyVec]
  | succ k ih =>
    rw [polyVec, List.range_succ, List.map_append, List.flatMap_append]
    rw [polyVec] at ih
    rw [ih]
    simp [h, Nat.add_mul]

theorem vector_of_zeros_encoded (k : Nat) (f : Nat → Coeffs) (hf : ∀ i < k, f i = Coeffs.zero) :
    polyVec k f = polyVec k fun _ => Coeffs.zero :=
  List.map_congr_left fun i hi => hf i (List.mem_range.1 hi)

/-- K-PKE.KeyGen with the zero collaborator: zero bytes. -/
theorem keygen_of_zeros {n : Nat} (h : 128 ≤ n) (lp : LevelParams) (d : List Byte) :
    pkeKeyGen zeros n lp d = some (List.replicate (384 * lp.k + 32) 0, List.replicate (384 * lp.k) 0) := by
  have hr : (zeros.h512 d).toList.take 32 = List.replicate 32 0 := rfl
  have he : encodeVec (polyVec lp.k fun _ => Coeffs.zero) = List.replicate (384 * lp.k) 0 := by
    rw [Nat.mul_comm]; exact flatMap_zero _ 384 (byteEncode_zero 12) lp.k
  simp only [pkeKeyGen, hr, expandMatrix_of_zeros h, Option.map_some, noise_of_zeros, ntt_zero, polyAt_zeros,
    matrix_of_zeros_row, innerProduct_zero, add_zero_zero, he, List.replicate_append_replicate]

/-- K-PKE.Encrypt of zero bytes with the zero collaborator: zero bytes. -/
theorem encrypt_of_zeros {n : Nat} (h : 128 ≤ n) (lp : LevelParams) (coins : List Byte) :
    pkeEncrypt zeros n lp (List.replicate (384 * lp.k + 32) 0) (List.replicate 32 0) coins =
      some (List.replicate (32 * (lp.k * lp.du + lp.dv)) 0) := by
  have hc : ∀ d, (Coeffs.zero.mapEach (compress d)) = Coeffs.zero := fun d => mapEach_zero _ (by
    rw [compress, Nat.mul_zero, Nat.zero_add, show q / (2 * q) = 0 from rfl, Nat.zero_mod])
  have hu : (polyVec lp.k fun _ => Coeffs.zero).flatMap (fun f => byteEncode lp.du (f.mapEach (compress lp.du)))
      = List.replicate (lp.k * (32 * lp.du)) 0 := flatMap_zero _ (32 * lp.du) (by rw [hc, byteEncode_zero]) lp.k
  have hm : (byteDecode 1 (List.replicate 32 0)).mapEach (decompress 1) = Coeffs.zero := by
    rw [byteDecode_zero]; exact mapEach_zero _ (by decide)
  have ht : (polyVec lp.k fun i => byteDecode 12 (slice (List.replicate (384 * lp.k + 32) 0) (384 * i) 384)) =
      polyVec lp.k fun _ => Coeffs.zero :=
    vector_of_zeros_encoded _ _ fun i hi => by rw [slice_replicate _ _ _ (by omega), byteDecode_zero]
  simp only [pkeEncrypt, expandMatrix_of_zeros h, Option.map_some, noise_of_zeros, ntt_zero, polyAt_zeros, ht,
    matrix_of_zeros_at, innerProduct_zero, nttInv_zero, add_zero_zero, hu, hm, hc, byteEncode_zero,
    List.replicate_append_replicate]
  congr 2; ring

/-- K-PKE.Decrypt with a zero key of a ciphertext whose v part is zero: the zero message. -/
theorem decrypt_of_zeros (lp : LevelParams) (ct : List Byte) (hdv : 1 ≤ lp.dv)
    (hct : slice ct (32 * lp.du * lp.k) (32 * lp.dv) = List.replicate (32 * lp.dv) 0) :
    pkeDecrypt lp (List.replicate (384 * lp.k) 0) ct = List.replicate 32 0 := by
  have hs : (polyVec lp.k fun i => byteDecode 12 (slice (List.replicate (384 * lp.k) 0) (384 * i) 384)) =
      polyVec lp.k fun _ => Coeffs.zero :=
    vector_of_zeros_encoded _ _ fun i hi => by rw [slice_replicate _ _ _ (by omega), byteDecode_zero]
  have hv : (byteDecode lp.dv (List.replicate (32 * lp.dv) 0)).mapEach (decompress lp.dv) = Coeffs.zero := by
    rw [byteDecode_zero]
    exact mapEach_zero _ (by
      rw [decompress, Nat.mul_zero, Nat.zero_add, Nat.div_eq_of_lt (Nat.pow_lt_pow_right (by decide) (by omega))])
  have hw : (Coeffs.zero.sub Coeffs.zero).mapEach (compress 1) = Coeffs.zero := Coeffs.ext_at fun j hj => by
    rw [Coeffs.mapEach_at _ _ hj, Coeffs.sub_at _ _ hj, zero_at]; decide
  simp only [pkeDecrypt, hs, polyAt_zeros, innerProduct_zero, nttInv_zero, hct, hv, hw, byteEncode_zero]

/-! ## Witnesses: a state and operands that meet the hypotheses of each statement (the statements without any are left out) -/

theorem keygen_of_ones (n : Nat) (d : List Byte) : pkeKeyGen ones n level0 d = none := by
  simp [pkeKeyGen, level0, expandMatrix_of_ones]

theorem encrypt_of_ones (n : Nat) (pk m coins : List Byte) : pkeEncrypt ones n level0 pk m coins = none := by
  simp [pkeEncrypt, level0, expandMatrix_of_ones]

/-- A unit that runs a command word with DETRNG = 1. -/
def runningFixed (w : Word) (level : BitVec 2) : State := State.accept { ready with level := level, detrng := true } w

theorem witness_EncodeAndDecodeAgree : decode 0xCCE80094 = .command (.pdec 3 10 148 .normal) := by decide

theorem witness_WordsMatchTheOpcodeTable : decode 0x5C440001 = .rejected .reservedBits ∧
    decode 0x5C440000 = .command (.fbct 1 1 0) := by decide

theorem witness_ReservedOpcodesAreIllegal : opField 0x08000000 ∈ reservedOpcodes ∧ opField 0xFFFFFFFF ∈ reservedOpcodes := by
  decide

/-- The lowest and the highest bit of every reserved column, set alone, meets the premise of `ReservedBitsFault`. -/
theorem witness_ReservedBitsFault :
    [(0x08, 0, 14), (0x0A, 0, 18), (0x0E, 12, 6), (0x0F, 22, 4), (0x10, 12, 10), (0x12, 0, 22), (0x19, 8, 10), (0x27, 14, 8),
      (0x27, 0, 13), (0x31, 8, 4), (0x33, 14, 4), (0x33, 8, 5), (0x38, 0, 26)].all (fun (op, lo, len) =>
        [lo, lo + len - 1].all fun b =>
          let w : Word := BitVec.ofNat 32 (op * 2 ^ 26 + 2 ^ b)
          opField w == op && field w lo len != 0) = true := by decide

theorem witness_StepRunsTheLatchedCommand :
    (running 0x20C48000 0).script = [] ∧
    (running 0x20C48000 0).phase = .running { cmd := 0x20C48000, level := 0, detrng := false, attempt := 0 } ∧
    decode 0x20C48000 = .command (.fadd 3 1 2) ∧ decode 0x20C48001 = .rejected .reservedBits ∧ ready.phase = .idle ∧
    { ready with script := [.wait, .reset] }.script = .wait :: [.reset] ∧
    State.reset.phase = .initialising ∧ { State.reset with script := [.wait, .reset] }.script = .wait :: [.reset] := by decide

theorem witness_FieldInverseQuotientAndPower : (withValues 17 0 1).fval 1 ≠ 0 ∧ (withValues 17 0 1).fval 2 = 0 := by decide

theorem witness_FieldCompareLoadAndMove : Canonical ((withValues 3328 0 0).freg 1) ∧ (3328 : Fin 4096).val < 3329 ∧
    3329 ≤ (3329 : Fin 4096).val ∧ 3329 ≤ (4095 : Fin 4096).val := by
  unfold Canonical; decide

/-- The source of 40_field.md R164's example, one with a rejected pair alone in reach, and one that stalls at once. -/
theorem witness_FrandTakesTheFirstPairBelowQ :
    1 < ready.budget ∧ pairAt exampleSource 0 4095 ∧
    pairAt exampleSource 2 3328 ∧
    ∀ k c, ¬pairAt (fun _ => none) (ready.randPos + 2 * k) c :=
  ⟨by decide, ⟨0xFF, 0xFF, rfl, rfl, rfl⟩, ⟨0x00, 0x1D, rfl, rfl, rfl⟩, fun _ _ ⟨_, _, h, _⟩ => by cases h⟩

theorem witness_MontgomeryConversions : Canonical ((ready.setFreg 1 3328).freg 1) := by unfold Canonical; decide

theorem witness_ValAndMontAreInverseForEveryRadix : 65536 * 169 % 3329 = 1 ∧ 1 * 1 % 3329 = 1 ∧ (3328 : Raw).toNat < 3329 := by
  decide

/-- The radix 1, under which a raw word is its value. -/
def radixOne : Radix := { r := 1, rInv := 1, inv := by decide }

theorem witness_RadixChangesRawWordsAlone : (∀ f, Canonical ((withValues 5 3328 0).freg f)) ∧
    ((withValues 5 3328 0).rebase Config.radix radixOne).freg 1 = 5 ∧
    (∀ rd ra : FReg, Instr.fadd 3 1 2 ≠ .ftom rd ra ∧ Instr.fadd 3 1 2 ≠ .ffromm rd ra) := by
  refine ⟨?_, by decide +kernel, fun _ _ => ⟨by simp, by simp⟩⟩
  unfold Canonical; decide

/-- At radix 1 the sum of 5 and 3328 is stored as 4; at the default it is the word of 4. -/
theorem test_radix : (execWith { Config.params with radix := radixOne } (.fadd 3 1 2)
      ((withValues 5 3328 0).rebase Config.radix radixOne)).freg 3 = 4 ∧
    (after (.fadd 3 1 2) (withValues 5 3328 0)).freg 3 = mont 4 := by decide +kernel

theorem witness_FieldQuantizers : (1 ≤ (1 : Width).val ∧ (1 : Width).val ≤ 11) ∧ (1 ≤ (11 : Width).val ∧ (11 : Width).val ≤ 11) ∧
    ((0 : Width).val = 0 ∨ 12 ≤ (0 : Width).val) ∧ ((12 : Width).val = 0 ∨ 12 ≤ (12 : Width).val) := by decide

theorem witness_ButterfliesWriteBothOperands : (1 : FReg) ≠ 2 := by decide

theorem witness_SlotWordTransfers : (255 : Fin 256) ≠ 0 := by decide

/-- P1 and P2 in one domain, and P1 and P0 in two. -/
theorem witness_SlotArithmetic : (withPolys [1] [2] .ntt).tag 1 = (withPolys [1] [2] .ntt).tag 2 ∧
    (withPolys [1] [2] .ntt).tag 1 ≠ (withPolys [1] [2] .ntt).tag 0 := by decide +kernel

theorem witness_SlotTransforms : (withPolys [1] [] .ntt).tag 0 = .normal ∧ (withPolys [1] [] .ntt).tag 1 = .ntt := by
  decide +kernel

theorem witness_SlotBaseMultiplication : (withPolys [1] [2] .ntt).tag 1 = .ntt ∧ (withPolys [1] [2] .ntt).tag 2 = .ntt ∧
    (withPolys [1] [2] .ntt).tag 0 = .normal := by decide +kernel

theorem witness_SlotQuantizers : ready.tag 3 = .normal ∧ (withPolys [] [] .ntt).tag 1 = .ntt ∧
    (1 ≤ (11 : Width).val ∧ (11 : Width).val ≤ 11) ∧ 12 ≤ (12 : Width).val := by decide +kernel

theorem witness_NttGivesTheResidues : 127 < 128 := by decide

theorem witness_TransformsAreInverse : (Coeffs.build fun j => if j = 255 then 3328 else 0).Canonical := by
  intro j; rw [Coeffs.build_at]; split
  · split <;> decide
  · decide

theorem witness_BaseMulIsRingMultiplication : 255 < 256 := by decide

theorem witness_QuantizersRoundAndBoundTheError : 1 ≤ 11 ∧ 3328 < 3329 ∧ 2047 < 2 ^ 11 := by decide

theorem goodCandidates_of_zeros (n : Nat) : goodCandidates (fun _ => 0) n = List.replicate (2 * n) 0 := by
  induction n with
  | zero => rfl
  | succ n ih =>
    rw [goodCandidates] at ih ⊢
    rw [List.range_succ, List.flatMap_append, List.filter_append, ih, show 2 * (n + 1) = 2 * n + 2 by omega,
      ← List.replicate_append_replicate]
    rfl

theorem goodCandidates_of_ones (n : Nat) : goodCandidates (fun _ => 0xFF) n = [] := by
  induction n with
  | zero => rfl
  | succ n ih =>
    rw [goodCandidates] at ih ⊢
    rw [List.range_succ, List.flatMap_append, List.filter_append, ih]
    rfl

theorem witness_ParseSamplesASlot :
    256 ≤ (goodCandidates (zeros.xof128 (ready.readBuf 0 32) 0 0) ready.budget).length ∧
    (goodCandidates (ones.xof128 (ready.readBuf 0 32) 0 0) ready.budget).length < 256 := by
  show 256 ≤ (goodCandidates (fun _ => 0) 256).length ∧ (goodCandidates (fun _ => 0xFF) 256).length < 256
  rw [goodCandidates_of_zeros, goodCandidates_of_ones, List.length_replicate]
  decide

theorem witness_ParseCompletesIfItsStreamDoes : (running 0xC0000000 0).Running ∧
    (∃ n, 256 ≤ (goodCandidates (zeros.xof128 ((running 0xC0000000 0).readBuf 0 32) 0 0) n).length) ∧
    ∀ n, (goodCandidates (ones.xof128 ((running 0xC0000000 0).readBuf 0 32) 0 0) n).length < 256 := by
  refine ⟨⟨_, rfl⟩, ⟨128, ?_⟩, fun n => ?_⟩
  · show 256 ≤ (goodCandidates (fun _ => 0) 128).length
    rw [goodCandidates_of_zeros, List.length_replicate]
  · show (goodCandidates (fun _ => 0xFF) n).length < 256
    rw [goodCandidates_of_ones]; decide

theorem witness_CbdSamplesASlot : ((2 : Fin 4).val = 2 ∨ (2 : Fin 4).val = 3) ∧ ((3 : Fin 4).val = 2 ∨ (3 : Fin 4).val = 3) ∧
    ((0 : Fin 4).val = 0 ∨ (0 : Fin 4).val = 1) ∧ ((1 : Fin 4).val = 0 ∨ (1 : Fin 4).val = 1) := by decide

/-- The last block that fits and the first that does not, for the least and the greatest legal width; the illegal widths. -/
theorem witness_PencPacksASlot : (244 : Blk).val + (12 : Width).val ≤ 256 ∧ 256 < (245 : Blk).val + (12 : Width).val ∧
    (255 : Blk).val + (1 : Width).val ≤ 256 ∧ 256 < (255 : Blk).val + (2 : Width).val ∧ 13 ≤ (13 : Width).val ∧
    (0 : Width).val = 0 := by decide

theorem witness_PdecUnpacksASlot : (244 : Blk).val + (12 : Width).val ≤ 256 ∧ 256 < (255 : Blk).val + (12 : Width).val ∧
    13 ≤ (15 : Width).val ∧ (0 : Width).val = 0 := by decide

theorem witness_PackingRoundTrips :
    (∀ j < 256, Coeffs.zero.at j < if (11 : Nat) = 12 then 3329 else 2 ^ 11) ∧
    (List.replicate 384 (0xFF : Byte)).length = 32 * 12 ∧
    (∀ i < 256, bitSum 12 (fun t => bytesToBits (List.replicate 384 0) (12 * i + t)) < 3329) ∧
    ¬bitSum 12 (fun t => bytesToBits (List.replicate 384 0xFF) (12 * 0 + t)) < 3329 := by
  refine ⟨fun j _ => by rw [zero_at]; decide, by rw [List.length_replicate], fun i _ => ?_, by decide +kernel⟩
  simp only [bit_of_zero_bytes, bitSum_false]; decide

/-- A matrix of zeros, and one that is missing an entry. -/
theorem witness_PkeKeygenWritesTheKeyPair :
    let s := running 0xE0000000 0
    let rho := fun c : Collab => (c.h512 (s.readBuf 0x18E0 32)).toList.take 32
    (running 0xE0000000 3).latchedLevel = 3 ∧ levelParams s.latchedLevel = some level0 ∧
    (∀ i < level0.k, ∀ j < level0.k, matrixEntry zeros s.budget (rho zeros) i j = some Coeffs.zero) ∧
    ∃ i < level0.k, ∃ j < level0.k, matrixEntry ones s.budget (rho ones) i j = none :=
  ⟨rfl, rfl, fun _ _ _ _ => sample_of_zeros (by decide), 1, by decide, 0, by decide, sample_of_ones _⟩

theorem witness_PkeEncWritesTheCiphertext :
    let s := running 0xE4000000 0
    let rho := s.readBuf (0x0C60 + 384 * level0.k) 32
    (running 0xE4000000 3).latchedLevel = 3 ∧ levelParams s.latchedLevel = some level0 ∧
    (∀ i < level0.k, ∀ j < level0.k, matrixEntry zeros s.budget rho i j = some Coeffs.zero) ∧
    ∃ i < level0.k, ∃ j < level0.k, matrixEntry ones s.budget rho i j = none :=
  ⟨rfl, rfl, fun _ _ _ _ => sample_of_zeros (by decide), 1, by decide, 0, by decide, sample_of_ones _⟩

theorem witness_PkeDecWritesTheMessage : (running 0xE8000000 3).latchedLevel = 3 ∧
    levelParams (running 0xE8000000 0).latchedLevel = some level0 ∧
    (levelParams (running 0xE8000000 2).latchedLevel).isSome = true := by decide

theorem draws_of_zeros (n p : Nat) : drawBytes (fun _ => some 0) n p = some (List.replicate n 0) := by
  induction n generalizing p with
  | zero => rfl
  | succ n ih => simp only [drawBytes, ih]; rfl

/-- With DETRNG = 0: a source that gives zeros, and one that stalls. With DETRNG = 1: the bytes in BUF. -/
theorem witness_KemKeygenWritesTheKeyPair :
    let s := running 0xEC000000 0
    let u := runningFixed 0xEC000000 0
    let z32 : List Byte := List.replicate 32 0
    (running 0xEC000000 3).latchedLevel = 3 ∧ levelParams s.latchedLevel = some level0 ∧ s.latchedDetrng = false ∧
    drawBytes (fun _ => none) 64 s.randPos = none ∧ drawBytes (fun _ => some 0) 64 s.randPos = some (z32 ++ z32) ∧
    levelParams u.latchedLevel = some level0 ∧ u.latchedDetrng = true ∧ u.readBuf 0x18E0 32 = z32 ∧ u.readBuf 0x1900 32 = z32 ∧
    (∃ pk sk, pkeKeyGen zeros s.budget level0 z32 = some (pk, sk)) ∧ pkeKeyGen ones s.budget level0 z32 = none :=
  ⟨rfl, rfl, rfl, rfl, draws_of_zeros 64 0, rfl, rfl, rfl, rfl, keygen_of_zeros_some (by decide) _ _, keygen_of_ones _ _⟩

theorem witness_KemEncapsWritesCiphertextAndSecret :
    let s := running 0xF0000000 0
    let u := runningFixed 0xF0000000 0
    let z32 : List Byte := List.replicate 32 0
    (running 0xF0000000 3).latchedLevel = 3 ∧ levelParams s.latchedLevel = some level0 ∧ s.latchedDetrng = false ∧
    drawBytes (fun _ => none) 32 s.randPos = none ∧ drawBytes (fun _ => some 0) 32 s.randPos = some z32 ∧
    levelParams u.latchedLevel = some level0 ∧ u.latchedDetrng = true ∧ u.readBuf 0x18A0 32 = z32 ∧
    (∀ coins, ∃ ct, pkeEncrypt zeros s.budget level0 (s.readBuf 0x0C60 800) z32 coins = some ct) ∧
    ∀ coins, pkeEncrypt ones s.budget level0 (s.readBuf 0x0C60 800) z32 coins = none :=
  ⟨rfl, rfl, rfl, rfl, draws_of_zeros 32 0, rfl, rfl, rfl, fun _ => encrypt_of_zeros_some (by decide) _ _ _ _,
    fun _ => encrypt_of_ones _ _ _ _⟩

theorem decaps_of_zeros_some {n : Nat} (h : 128 ≤ n) (lp : LevelParams) (sk ct : List Byte) :
    ∃ ss, kemDecaps zeros n lp sk ct = some ss := by
  obtain ⟨ct', h'⟩ := encrypt_of_zeros_some h lp (slice sk (384 * lp.k) (384 * lp.k + 32))
    (pkeDecrypt lp (slice sk 0 (384 * lp.k)) ct)
    ((zeros.h512 (slice sk (768 * lp.k + 32) 32 ++ pkeDecrypt lp (slice sk 0 (384 * lp.k)) ct)).toList.drop 32)
  exact ⟨_, by rw [kemDecaps]; dsimp only; rw [h']; rfl⟩

theorem witness_KemDecapsWritesTheSecret :
    let s := running 0xF4000000 0
    (running 0xF4000000 3).latchedLevel = 3 ∧ levelParams s.latchedLevel = some level0 ∧
    (∀ m coins, ∃ ct, pkeEncrypt zeros s.budget level0 (s.readBuf 768 800) m coins = some ct) ∧
    ∀ m coins, pkeEncrypt ones s.budget level0 (s.readBuf 768 800) m coins = none :=
  ⟨rfl, rfl, fun _ _ => encrypt_of_zeros_some (by decide) _ _ _ _, fun _ _ => encrypt_of_ones _ _ _ _⟩

theorem witness_ConstantTimeCompareAndSelect : [0x01, (0x02 : Byte)].length = [0x01, (0x03 : Byte)].length := by decide

/-- Keys, ciphertext and message of zeros, at LEVEL 0: CPA decryption recovers the message. -/
theorem witness_DecapsulationRecovers :
    let z32 : List Byte := List.replicate 32 0
    ∃ pk sk ct k, z32.length = 32 ∧ kemKeyGen zeros 256 level0 z32 z32 = some (pk, sk) ∧
      kemEncaps zeros 256 level0 pk z32 = some (ct, k) ∧ pkeDecrypt level0 (sk.take (384 * level0.k)) ct = z32 := by
  obtain ⟨k, hk⟩ : ∃ k, kemEncaps zeros 256 level0 (List.replicate (384 * level0.k + 32) 0) (List.replicate 32 0) =
      some (List.replicate (32 * (level0.k * level0.du + level0.dv)) 0, k) :=
    ⟨_, by rw [kemEncaps, encrypt_of_zeros (by decide)]; rfl⟩
  refine ⟨List.replicate (384 * level0.k + 32) 0, List.replicate (384 * level0.k) 0 ++
    List.replicate (384 * level0.k + 32) 0 ++ (zeros.h256 (List.replicate (384 * level0.k + 32) 0)).toList ++
    List.replicate 32 0, _, k, List.length_replicate, ?_, hk, ?_⟩
  · rw [kemKeyGen, keygen_of_zeros (by decide)]; rfl
  · rw [List.append_assoc, List.append_assoc, List.take_left' List.length_replicate]
    exact decrypt_of_zeros level0 _ (by decide) (slice_replicate _ _ _ (by decide))

/-- A ciphertext with a 1 in its u part: re-encryption gives another ciphertext. -/
theorem witness_DecapsulationRejects :
    let sk : List Byte := List.replicate 1632 0
    let ct : List Byte := 1 :: List.replicate 767 0
    let m := pkeDecrypt level0 (sk.take (384 * level0.k)) ct
    let g := (zeros.h512 ((sk.drop (768 * level0.k + 32)).take 32 ++ m)).toList
    sk.length = 768 * level0.k + 96 ∧ ct.length = 32 * (level0.k * level0.du + level0.dv) ∧
    ∃ ct', pkeEncrypt zeros 256 level0 ((sk.drop (384 * level0.k)).take (384 * level0.k + 32)) m (g.drop 32) = some ct' ∧
      ct' ≠ ct := by
  refine ⟨List.length_replicate, by rw [List.length_cons, List.length_replicate]; rfl, List.replicate 768 0, ?_, ?_⟩
  · have hsk : (List.replicate 1632 (0 : Byte)).take (384 * level0.k) = List.replicate (384 * level0.k) 0 := by
      rw [List.take_replicate]; rfl
    have hpk : ((List.replicate 1632 (0 : Byte)).drop (384 * level0.k)).take (384 * level0.k + 32) =
        List.replicate (384 * level0.k + 32) 0 := by
      rw [List.drop_replicate, List.take_replicate]; rfl
    have hm : pkeDecrypt level0 (List.replicate (384 * level0.k) 0) (1 :: List.replicate 767 0) = List.replicate 32 0 := by
      refine decrypt_of_zeros level0 _ (by decide) ?_
      rw [slice, show 32 * level0.du * level0.k = 639 + 1 from rfl, List.drop_succ_cons, List.drop_replicate,
        List.take_replicate]
      rfl
    rw [hsk, hpk, hm]
    exact encrypt_of_zeros (by decide) level0 _
  · intro h
    have h0 := congrArg List.head? h
    rw [List.head?_cons, List.head?_replicate] at h0
    exact absurd h0 (by decide)

theorem witness_DecapsulationOutcomeIsNotObservable : (running 0xF4000000 0).Running ∧
    (kemDecapsWith zeros (running 0xF4000000 0)).busy = false ∧
    (kemDecapsWith zeros { running 0xF4000000 0 with buf := [(0x1280, 1)] }).busy = false := by
  have key : ∀ s : State, 128 ≤ s.budget → levelParams s.latchedLevel = some level0 →
      (kemDecapsWith zeros s).busy = false := by
    intro s hb hl
    obtain ⟨ss, h⟩ := decaps_of_zeros_some hb level0 (s.readBuf skBase level0.ccaSkBytes) (s.readBuf ctBase level0.ctBytes)
    rw [kemDecapsWith, runMacro_done hl (Option.map_eq_some_iff.2 ⟨ss, h, rfl⟩)]
    rfl
  exact ⟨⟨_, rfl⟩, key _ (by decide) rfl, key _ (by decide) rfl⟩

theorem witness_MacrosUseNoRegisterOrSlot : Instr.pkeDec ∈ macroCommands ∧
    ∃ t, exec .pkeDec (running 0xE8000000 1) = .next t := ⟨by decide, _, rfl⟩

theorem witness_FaultEntryWritesTheReport :
    (running 0x5C440000 0).phase = .running { cmd := 0x5C440000, level := 0, detrng := false, attempt := 0 } := by decide

/-- One command for each clause, on the boundary of its range, and one for none of them. -/
theorem witness_FaultConditionsAndPriority :
    badFieldOf (.fli 1 3329) ∧ badFieldOf (.penc 0 13 250) ∧ badFieldOf (.fbct 1 1 0) ∧ badFieldOf (.cbd 0 1 0 0) ∧
    (¬badFieldOf .kemDecaps ∧ .kemDecaps ∈ macroCommands ∧ (running 0xF4000000 3).latchedLevel = 3) ∧
    (¬badFieldOf (.penc 0 12 245) ∧ bufRangeOf (.penc 0 12 245)) ∧
    (¬badFieldOf (.pcomp 1 1 11) ∧ domainMismatchOf (withPolys [] [] .ntt) (.pcomp 1 1 11)) ∧
    (¬badFieldOf (.penc 0 12 244) ∧ ¬(.penc 0 12 244 ∈ macroCommands ∧ ready.latchedLevel = 3) ∧
      ¬bufRangeOf (.penc 0 12 244) ∧ ¬domainMismatchOf ready (.penc 0 12 244)) := by
  refine ⟨?_, ?_, ?_, ?_, ⟨?_, by decide, rfl⟩, ⟨?_, ?_⟩, ⟨?_, ?_⟩, ?_, by decide, ?_, ?_⟩ <;>
    simp only [badFieldOf, bufRangeOf, domainMismatchOf] <;> decide +kernel

theorem witness_FaultsDependOnNoSecret : (running 0x88400000 0).Running ∧
    ((running 0x88400000 0).setFval 1 5).Running ∧
    (running 0x88400000 0).latchedLevel = ((running 0x88400000 0).setFval 1 5).latchedLevel ∧
    ∀ p, (running 0x88400000 0).tag p = ((running 0x88400000 0).setFval 1 5).tag p :=
  ⟨⟨_, rfl⟩, ⟨_, rfl⟩, rfl, fun _ => rfl⟩

theorem witness_FaultStateBlocksCommandsUntilCleared : { ready with err := true }.err = true ∧
    (0x00000004 : Word).getLsbD 2 = true ∧ { ready with err := true }.busy = false ∧ (0x00000002 : Word).getLsbD 2 = false := by
  decide

theorem witness_InterruptLine : { ready with doneIE := true }.doneIE = true ∧ { ready with errIE := true }.errIE = true ∧
    ready.busy = false ∧ ready.err = false := by decide

theorem witness_CmdWriteAcceptance : ready.busy = false ∧ ready.err = false ∧ (running 0 0).busy = true ∧
    { ready with err := true }.err = true := by decide

theorem witness_BusyPhaseAccesses : State.reset.busy = true ∧ (running 0 0).busy = true := by decide

theorem witness_HostAccessToRegistersAndSlots : ready.busy = false ∧
    ((3328 : Word).extractLsb' 12 20 = 0 ∧ ((3328 : Word).extractLsb' 0 12).toNat < 3329) ∧
    ¬((3329 : Word).extractLsb' 12 20 = 0 ∧ ((3329 : Word).extractLsb' 0 12).toNat < 3329) ∧
    ¬((0x1000 : Word).extractLsb' 12 20 = 0 ∧ ((0x1000 : Word).extractLsb' 0 12).toNat < 3329) := by decide

theorem witness_BufWindowIsLittleEndian : ready.busy = false := by decide

theorem witness_UnmappedAndReadOnlyAccesses :
    (0x0024 ≤ (0x0024 : HostAddr).toNat ∧ (0x0024 : HostAddr).toNat < 0x0400) ∧ (0x03FF : HostAddr).toNat < 0x0400 ∧
    (0x0440 ≤ (0x0440 : HostAddr).toNat ∧ (0x3FFF : HostAddr).toNat < 0x4000) ∧ 0xA000 ≤ (0xA000 : HostAddr).toNat := by decide

theorem witness_ControlAndStatusRegisters : ready.busy = false ∧ 7 ≤ 7 := by decide

theorem witness_BusAccessesMoveWholeWords :
    { ready with script := [.read (Config.baseAddr + (0x0004 : HostAddr).toNat)] }.script =
      .read (Config.baseAddr + (0x0004 : HostAddr).toNat) :: [] ∧
    { ready with script := [.write (Config.baseAddr + (0xFFFF : HostAddr).toNat) 0x1 7] }.script =
      .write (Config.baseAddr + (0xFFFF : HostAddr).toNat) 0x1 7 :: [] := ⟨rfl, rfl⟩

theorem witness_AcceptThenCompletion : ready.busy = false ∧ ready.err = false ∧
    { ready with script := [.write (Config.baseAddr + 0x000C) 0xF 0, .wait] }.script =
      .write (Config.baseAddr + 0x000C) 0xF 0 :: .wait :: [] := ⟨rfl, rfl, rfl⟩

/-- Running commands that may draw and one that may not, a `wait` after the reset, and FRAND's source of 40_field.md R164. -/
theorem witness_ResetFromEveryState :
    { running 0 0 with script := [.reset] }.script = .reset :: [] ∧
    { running 0 0 with script := [.reset, .wait] }.script = .reset :: .wait :: [] ∧
    (∀ p, (running 0 0).phase = .running p → ¬mayDraw p) ∧
    decode 0xEC000000 = .command .kemKeygen ∧ decode 0xF0000000 = .command .kemEncaps ∧
    decode 0x49C00000 = .command (.frand 7) ∧
    pairAt exampleSource 0 4095 ∧ pairAt exampleSource 2 3328 := by
  refine ⟨rfl, rfl, fun p hp h => ?_, rfl, rfl, rfl, ⟨0xFF, 0xFF, rfl, rfl, rfl⟩, ⟨0x00, 0x1D, rfl, rfl, rfl⟩⟩
  cases hp
  rcases h with ⟨rd, h⟩ | ⟨h | h, -⟩ <;> cases h

/-- FRAND's draws on that source: one byte asked for is one byte, and no more than the four up to 3328 are ever taken; on a
source that stalls after three bytes, three. -/
theorem test_frandDraws : [0, 1, 3, 4, 9].map (fun n => frandDraws (fun m => [0xFF, 0xFF, 0x00, 0x1D, 0x00][m]?) n 0) = [0, 1, 3, 4, 4] ∧
    frandDraws (fun m => [0xFF, 0xFF, 0x00][m]?) 9 0 = 3 ∧ suppliedBytes (fun m => [0xFF, 0xFF][m]?) 64 0 = 2 := by decide

/-- A state that meets the invariant while a command runs. -/
theorem witness_StepKeepsTheInvariant : (running 0x20C48000 1).Inv ∧ ∃ t, step (running 0x20C48000 1) = .next t := by
  refine ⟨⟨fun i => ?_, fun p j => ?_, rfl, rfl, fun _ => ⟨rfl, rfl⟩, fun p hp => ?_, fun h => by cases h⟩, _, rfl⟩
  · show ((Vector.replicate 16 (0 : Raw))[i.val]).toNat < q
    simp
  · show (((Vector.replicate 16 (Vector.replicate 256 (0 : Raw)))[p.val])[j.val]).toNat < q
    simp
  · cases hp; exact ⟨rfl, rfl⟩

end Sys2Proof.Tests
end

/-!
PROOFS of the statements of 00_scope.md: the Montgomery form at every radix (R18) and the level table (R11, R12).
-/

namespace Sys2Proof.Machine

/-- Settles O11: a radix with an inverse modulo q is a `Radix`, whose `val` and `mont` undo each other (`val_mont`,
`mont_val`). -/
theorem valAndMontAreInverseForEveryRadix : Obligations.ValAndMontAreInverseForEveryRadix := by
  intro r rinv hinv
  let R : Radix := ⟨r, rinv, hinv⟩
  constructor
  · intro a ha
    exact ⟨mont_canonical a R, val_mont ha R⟩
  · intro w hw
    exact ⟨val_lt w R, mont_val hw R⟩

/-- Settles O31: the three rows and the lengths computed from them; that LEVEL 3 has no row is `levelParams_eq_none`. -/
theorem levelTable : Obligations.LevelTable :=
  ⟨rfl, rfl, rfl, (levelParams_eq_none 3).2 rfl, rfl, rfl, rfl⟩

end Sys2Proof.Machine

/-!
PROOFS of statements of 10_state.md: host accesses to the field registers and slot words (R41, R44), the acceptance of a CMD
write (R34, R37) and the reset values (R54). Before them, what a host read and a host write do at each of these targets, and
what the stores read at reset.
-/

namespace Sys2Proof.Machine

/-! ## The canonical-word check (R41) -/

/-- The check on the whole word is R41's: D[31:12] = 0 and D[11:0] < q. -/
theorem canonicalWord_iff (d : Word) :
    canonicalWord d = true ↔ d.extractLsb' 12 20 = 0 ∧ (d.extractLsb' 0 12).toNat < 3329 := by
  have hd := d.isLt
  have hzero : (0 : BitVec 20).toNat = 0 := rfl
  simp only [canonicalWord, q, decide_eq_true_eq, BitVec.toNat_eq, BitVec.extractLsb'_toNat, Nat.shiftRight_eq_div_pow,
    hzero]
  omega

/-- The 12 bits stored of a canonical word read back as the whole word. -/
theorem setWidth_setWidth_of_canonicalWord {d : Word} (h : canonicalWord d = true) : (d.setWidth 12).setWidth 32 = d := by
  have hd : d.toNat < 3329 := of_decide_eq_true h
  apply BitVec.eq_of_toNat_eq
  simp only [BitVec.toNat_setWidth]
  omega

/-! ## A host access to a field register or a slot word with BUSY = 0 (R41, R44) -/

section IdleAccess

variable {s : State} {a : HostAddr} {d : Word}

theorem hostRead_freg {i : FReg} (ha : addressMap a = .freg i) (hb : s.busy = false) :
    s.hostRead a = (s.freg i).setWidth 32 := by
  simp [State.hostRead, ha, hb]

theorem hostRead_slotWord {p : Slot} {j : Fin 256} (ha : addressMap a = .slotWord p j) (hb : s.busy = false) :
    s.hostRead a = (s.slotWord p j).setWidth 32 := by
  simp [State.hostRead, ha, hb]

theorem hostWrite_freg {i : FReg} (ha : addressMap a = .freg i) (hb : s.busy = false) :
    s.hostWrite a d = if canonicalWord d then s.setFreg i (d.setWidth 12) else s.reportBadval := by
  simp [State.hostWrite, ha, hb]

theorem hostWrite_slotWord {p : Slot} {j : Fin 256} (ha : addressMap a = .slotWord p j) (hb : s.busy = false) :
    s.hostWrite a d = if canonicalWord d then s.setSlotWord p j (d.setWidth 12) else s.reportBadval := by
  simp [State.hostWrite, ha, hb]

/-- R41: a canonical word written to a field register is stored there alone and reads back. -/
theorem hostWrite_freg_stores {i : FReg} (ha : addressMap a = .freg i) (hb : s.busy = false) (hd : canonicalWord d = true) :
    (s.hostWrite a d).freg i = d.extractLsb' 0 12 ∧ (∀ i', i' ≠ i → (s.hostWrite a d).freg i' = s.freg i') ∧
    s.hostWrite a d = { s with fregs := (s.hostWrite a d).fregs } ∧ (s.hostWrite a d).hostRead a = d := by
  rw [hostWrite_freg ha hb, if_pos hd]
  refine ⟨?_, fun i' hi => ?_, rfl, ?_⟩
  · rw [State.setFreg_freg_same, BitVec.setWidth_eq_extractLsb' (by decide)]
  · rw [State.setFreg_freg, if_neg hi]
  · rw [hostRead_freg ha (by simpa using hb), State.setFreg_freg_same, setWidth_setWidth_of_canonicalWord hd]

/-- R44: a canonical word written to a slot word is stored there alone, with every tag kept, and reads back. -/
theorem hostWrite_slotWord_stores {p : Slot} {j : Fin 256} (ha : addressMap a = .slotWord p j) (hb : s.busy = false)
    (hd : canonicalWord d = true) :
    (s.hostWrite a d).slotWord p j = d.extractLsb' 0 12 ∧
    (∀ p' j', ¬(p' = p ∧ j' = j) → (s.hostWrite a d).slotWord p' j' = s.slotWord p' j') ∧
    s.hostWrite a d = { s with slots := (s.hostWrite a d).slots } ∧ (s.hostWrite a d).hostRead a = d := by
  rw [hostWrite_slotWord ha hb, if_pos hd]
  have hsame : (s.setSlotWord p j (d.setWidth 12)).slotWord p j = d.setWidth 12 := by
    rw [State.setSlotWord_slotWord, if_pos ⟨rfl, rfl⟩]
  refine ⟨?_, fun p' j' hne => ?_, rfl, ?_⟩
  · rw [hsame, BitVec.setWidth_eq_extractLsb' (by decide)]
  · rw [State.setSlotWord_slotWord, if_neg hne]
  · rw [hostRead_slotWord ha (by simpa using hb), hsame, setWidth_setWidth_of_canonicalWord hd]

end IdleAccess

/-- Settles O51: both windows by the address map, the stored words by `hostWrite_freg_stores` and
`hostWrite_slotWord_stores`, and a word the check refuses only reported. -/
theorem hostAccessToRegistersAndSlots : Obligations.HostAccessToRegistersAndSlots := by
  intro s i j low d hb
  have ha := addressMap_freg i low
  have hslot := addressMap_slotWord i j low
  refine ⟨?_, ?_, fun hd => ?_, fun hd => ?_⟩
  · rw [hostRead_freg ha hb, BitVec.toNat_setWidth_of_le (by decide)]
  · rw [hostRead_slotWord hslot hb, BitVec.toNat_setWidth_of_le (by decide)]
  · have hc := (canonicalWord_iff d).2 hd
    obtain ⟨hword, hothers, hframe, hback⟩ := hostWrite_freg_stores ha hb hc
    exact ⟨hword, hothers, hframe, hback, hostWrite_slotWord_stores hslot hb hc⟩
  · have hc : ¬canonicalWord d = true := fun h => hd ((canonicalWord_iff d).1 h)
    exact ⟨by rw [hostWrite_freg ha hb, if_neg hc]; rfl, by rw [hostWrite_slotWord hslot hb, if_neg hc]; rfl⟩

/-! ## A CMD write (R34) -/

theorem hostWrite_cmd (s : State) (w : Word) : s.hostWrite 0x000C w = s.writeCmd w := rfl

theorem writeCmd_accepted {s : State} (w : Word) (hb : s.busy = false) (he : s.err = false) : s.writeCmd w = s.accept w := by
  simp [State.writeCmd, hb, he]

theorem writeCmd_rejected {s : State} (w : Word) (h : s.busy = true ∨ s.err = true) :
    s.writeCmd w = { s with cmdrej := true } :=
  if_pos (Bool.or_eq_true _ _ |>.mpr h)

/-- Settles O49: the two cases of a CMD write, and CMDCNT after a completion, a fault and a write to it. -/
theorem cmdWriteAcceptance : Obligations.CmdWriteAcceptance := by
  intro s w code
  refine ⟨rfl, fun hb he => ?_, fun h => ?_, ?_, rfl, rfl, rfl⟩
  · rw [hostWrite_cmd, writeCmd_accepted w hb he]; rfl
  · rw [hostWrite_cmd, writeCmd_rejected w h]
  · rw [State.complete_cmdcnt, BitVec.toNat_add]; rfl

/-! ## The reset values (R54) -/

@[simp] theorem reset_tag (p : Slot) : State.reset.tag p = .normal := Vector.getElem_replicate _

@[simp] theorem reset_freg (i : FReg) : State.reset.freg i = 0 := Vector.getElem_replicate _

@[simp] theorem reset_slotWord (p : Slot) (j : Fin 256) : State.reset.slotWord p j = 0 := by
  simp [State.slotWord, State.slot, State.reset]

/-- The raw word 0 is the value 0 under every radix (R54). -/
@[simp] theorem val_zero (R : Radix) : val 0 R = 0 := by simp [val, valFor]

/-- Settles O57: the flags and registers are read off `State.reset`, the stores by the lemmas above, and the step ends the
initialisation. -/
theorem resetValues : Obligations.ResetValues :=
  ⟨rfl, rfl, rfl, rfl, rfl, rfl, rfl, rfl, rfl, rfl, rfl, rfl, rfl, rfl, rfl, rfl,
    reset_tag, reset_freg, reset_slotWord, fun _ => rfl, rfl, rfl,
    fun R i => by rw [State.fval, reset_freg, val_zero],
    fun R p j => by rw [reset_slotWord, val_zero],
    (step_of_empty_script rfl).trans (unitStep_of_initialising rfl)⟩

end Sys2Proof.Machine

/-!
PROOFS of statements of 20_memory.md: the BUF window (R85), the reserved addresses and the read-only registers (R84), and the
bus accesses of whole words (R81-R83). Before them, the four bytes of a word as BUF holds them.
-/

namespace Sys2Proof.Machine

/-! ## A word of BUF (R85) -/

/-- A concatenation as a number: the first part above the bits of the second. -/
theorem toNat_append_eq_add {m n : Nat} (x : BitVec m) (y : BitVec n) : (x ++ y).toNat = x.toNat * 2 ^ n + y.toNat := by
  rw [BitVec.toNat_append, ← Nat.shiftLeft_add_eq_or_of_lt y.isLt, Nat.shiftLeft_eq]

theorem bufWord_toNat (s : State) (a : Nat) :
    (s.bufWord a).toNat = (s.buf.read a).toNat + 256 * (s.buf.read (a + 1)).toNat + 65536 * (s.buf.read (a + 2)).toNat
      + 16777216 * (s.buf.read (a + 3)).toNat := by
  simp only [State.bufWord, toNat_append_eq_add]
  omega

theorem wordBytes_getD (d : Word) (b : Fin 4) : (wordBytes d).getD b 0 = d.extractLsb' (8 * b) 8 := by
  match b with
  | 0 | 1 | 2 | 3 => rfl

/-- Byte b of a word stored in BUF is bits 8b+7 to 8b of the word. -/
theorem read_writeBytes_wordBytes (m : Memory) (a : Nat) (d : Word) (b : Fin 4) :
    (m.writeBytes a (wordBytes d)).read (a + b) = d.extractLsb' (8 * b) 8 := by
  have hb : a ≤ a + b ∧ a + b < a + (wordBytes d).length := ⟨Nat.le_add_right _ _, Nat.add_lt_add_left b.isLt a⟩
  rw [Memory.read_writeBytes, if_pos hb, Nat.add_sub_cancel_left, wordBytes_getD]

/-- A word of BUF is the word whose four bytes stand there. -/
theorem bufWord_eq_of_read {s : State} {a : Nat} {d : Word}
    (h : ∀ b : Fin 4, s.buf.read (a + b) = d.extractLsb' (8 * b) 8) : s.bufWord a = d := by
  have h0 : s.buf.read a = d.extractLsb' 0 8 := h 0
  have h1 : s.buf.read (a + 1) = d.extractLsb' 8 8 := h 1
  have h2 : s.buf.read (a + 2) = d.extractLsb' 16 8 := h 2
  have h3 : s.buf.read (a + 3) = d.extractLsb' 24 8 := h 3
  apply BitVec.eq_of_toNat_eq
  simp only [bufWord_toNat, h0, h1, h2, h3, BitVec.extractLsb'_toNat, Nat.shiftRight_eq_div_pow]
  omega

theorem bufWord_writeBuf_wordBytes (s : State) (a : Nat) (d : Word) : (s.writeBuf a (wordBytes d)).bufWord a = d :=
  bufWord_eq_of_read (read_writeBytes_wordBytes s.buf a d)

/-! ## A host access to the BUF window with BUSY = 0 -/

section IdleBufAccess

variable {s : State} {addr : HostAddr} {a : Nat} {d : Word}

theorem hostRead_buf (ha : addressMap addr = .buf a) (hb : s.busy = false) : s.hostRead addr = s.bufWord a := by
  simp [State.hostRead, ha, hb]

theorem hostWrite_buf (ha : addressMap addr = .buf a) (hb : s.busy = false) :
    s.hostWrite addr d = s.writeBuf a (wordBytes d) := by
  simp [State.hostWrite, ha, hb]

end IdleBufAccess

/-- Settles O52: the address map names the word, `bufWord_toNat` reads it, and `read_writeBytes_wordBytes` and
`bufWord_writeBuf_wordBytes` give what a write stores. -/
theorem bufWindowIsLittleEndian : Obligations.BufWindowIsLittleEndian := by
  intro s n low d hb a t
  have ha : addressMap a = .buf (4 * n) := addressMap_buf n low
  have ht : t = s.writeBuf (4 * n) (wordBytes d) := hostWrite_buf ha hb
  refine ⟨?_, fun b => ?_, fun c hc => ?_, ?_, ?_⟩
  · rw [hostRead_buf ha hb, bufWord_toNat]
  · rw [ht, State.writeBuf_buf, read_writeBytes_wordBytes]
  · rw [ht, State.writeBuf_buf]
    exact Memory.read_writeBytes_outside _ _ _ _ hc
  · rw [ht]; rfl
  · rw [ht, hostRead_buf ha (by simpa using hb), bufWord_writeBuf_wordBytes]

/-! ## Reserved addresses (R84) -/

/-- The address map names nothing in the reserved ranges of R99. -/
theorem addressMap_unmapped {a : HostAddr}
    (h : (0x0024 ≤ a.toNat ∧ a.toNat < 0x0400) ∨ (0x0440 ≤ a.toNat ∧ a.toNat < 0x4000) ∨ 0xA000 ≤ a.toNat) :
    addressMap a = .unmapped := by
  simp only [addressMap]
  repeat rw [if_neg (by omega)]

theorem hostRead_unmapped {a : HostAddr} (ha : addressMap a = .unmapped) (s : State) : s.hostRead a = 0 := by
  simp [State.hostRead, ha]

theorem hostWrite_unmapped {a : HostAddr} (ha : addressMap a = .unmapped) (s : State) (d : Word) : s.hostWrite a d = s := by
  simp [State.hostWrite, ha]

/-- Settles O53: the reserved ranges by `addressMap_unmapped`, the three registers by the accesses' own cases. -/
theorem unmappedAndReadOnlyAccesses : Obligations.UnmappedAndReadOnlyAccesses := by
  intro s a d
  refine ⟨fun h => ?_, rfl, rfl, rfl, rfl, rfl, rfl⟩
  have ha := addressMap_unmapped h
  exact ⟨hostRead_unmapped ha s, hostWrite_unmapped ha s d⟩

/-! ## Bus accesses (R81-R83) -/

/-- Clearing the two low bits of an address keeps its word. -/
theorem toNat_and_fffc_div_four (a : HostAddr) : (a &&& 0xFFFC).toNat / 4 = a.toNat / 4 := by
  have hlt : a.toNat / 2 ^ 2 < 2 ^ 14 := by have := a.isLt; omega
  calc (a &&& 0xFFFC).toNat / 2 ^ 2 = a.toNat / 2 ^ 2 &&& 2 ^ 14 - 1 := Nat.and_div_two_pow
    _ = a.toNat / 2 ^ 2 := Nat.and_two_pow_sub_one_of_lt_two_pow hlt

/-- The address map ignores the two low address bits (R82). -/
theorem addressMap_and_fffc (a : HostAddr) : addressMap (a &&& 0xFFFC) = addressMap a := by
  simp only [addressMap, toNat_and_fffc_div_four]

/-- A host read does not depend on the moves still to come. -/
theorem hostRead_script (s : State) (rest : List HostEvent) (a : HostAddr) :
    State.hostRead { s with script := rest } a = s.hostRead a := rfl

theorem busRead_of_offset (s : State) (a : HostAddr) :
    s.busRead (Config.baseAddr + a.toNat) = { s with rdata := s.hostRead a } := by
  simp only [State.busRead, blockAddr_of_offset]

theorem busWrite_of_offset (s : State) (a : HostAddr) (be : BitVec 4) (d : Word) :
    s.busWrite (Config.baseAddr + a.toNat) be d = s.hostWrite a d := by
  simp only [State.busWrite, blockAddr_of_offset]

/-- Settles O55: a move at the base plus `a` is the access at `a` (`busRead_of_offset`, `busWrite_of_offset`), and an access
depends on its address through `addressMap` alone. -/
theorem busAccessesMoveWholeWords : Obligations.BusAccessesMoveWholeWords := by
  intro s rest a be d
  refine ⟨fun h => ?_, fun h => ?_, ?_, ?_⟩
  · rw [step_of_move h, moveOf, busRead_of_offset, hostRead_script]
  · rw [step_of_move h, moveOf, busWrite_of_offset]
  · rw [State.hostRead, State.hostRead, addressMap_and_fffc]
  · rw [State.hostWrite, State.hostWrite, addressMap_and_fffc]

end Sys2Proof.Machine

/-!
PROOFS of statements of 30_encoding.md: the three cases a word falls into (R115, R118) and the reserved opcodes (R117).
Before them, the opcode map, the decoder's answer by the row of the word's opcode, and the columns of the opcode table.
-/

namespace Sys2Proof.Machine

/-! ## The opcode map (R116, R117) -/

theorem op_lt_of_mem_opRows : ∀ r ∈ opRows, r.op < 64 := by decide

/-- No two rows of the map share an opcode. -/
theorem opRows_pairwise_op_ne : opRows.Pairwise fun r r' => r.op ≠ r'.op := by decide

/-- An opcode is reserved exactly when it is no row's. -/
theorem mem_reservedOpcodes_iff : ∀ op < 64, op ∈ reservedOpcodes ↔ ∀ r ∈ opRows, r.op ≠ op := by decide

theorem opField_lt (w : Word) : opField w < 64 := Nat.mod_lt _ (by decide)

theorem rowOf_eq_none_iff {op : Nat} : rowOf op = none ↔ ∀ r ∈ opRows, r.op ≠ op := by
  simp [rowOf]

theorem mem_and_op_eq_of_rowOf {op : Nat} {r : OpRow} (h : rowOf op = some r) : r ∈ opRows ∧ r.op = op :=
  ⟨List.mem_of_find?_eq_some h, beq_iff_eq.1 (List.find?_some (p := fun r : OpRow => r.op == op) h)⟩

/-- The decoder's lookup finds every row by its opcode. -/
theorem rowOf_op {r : OpRow} (hr : r ∈ opRows) : rowOf r.op = some r := by
  cases h : rowOf r.op with
  | none => exact absurd rfl (rowOf_eq_none_iff.1 h r hr)
  | some r' =>
    obtain ⟨hr', hop⟩ := mem_and_op_eq_of_rowOf h
    rw [List.inj_on_of_nodup_map (List.pairwise_map.2 opRows_pairwise_op_ne) hr' hr hop]

/-! ## The decoder's answer by the row of the word's opcode (R118) -/

section DecodeByRow

variable {w : Word}

theorem decode_of_reservedOpcode (h : opField w ∈ reservedOpcodes) : decode w = .rejected .illegalOpcode := by
  rw [decode, rowOf_eq_none_iff.2 ((mem_reservedOpcodes_iff _ (opField_lt w)).1 h)]

theorem decode_of_row {r : OpRow} (hr : r ∈ opRows) (hop : opField w = r.op) :
    decode w = if w &&& r.format.zeroMask = 0 then .command (r.read w) else .rejected .reservedBits := by
  rw [decode, hop, rowOf_op hr]

/-- An opcode is reserved or a row's. -/
theorem reservedOpcode_or_row (w : Word) : opField w ∈ reservedOpcodes ∨ ∃ r ∈ opRows, opField w = r.op := by
  cases h : rowOf (opField w) with
  | none => exact .inl ((mem_reservedOpcodes_iff _ (opField_lt w)).2 (rowOf_eq_none_iff.1 h))
  | some r =>
    obtain ⟨hr, hop⟩ := mem_and_op_eq_of_rowOf h
    exact .inr ⟨r, hr, hop.symm⟩

/-- R118's three cases, each with the decoder's answer. -/
theorem decode_cases (w : Word) :
    (opField w ∈ reservedOpcodes ∧ decode w = .rejected .illegalOpcode) ∨
    ∃ r ∈ opRows, opField w = r.op ∧
      (w &&& r.format.zeroMask ≠ 0 ∧ decode w = .rejected .reservedBits ∨
        w &&& r.format.zeroMask = 0 ∧ decode w = .command (r.read w)) := by
  obtain h | ⟨r, hr, hop⟩ := reservedOpcode_or_row w
  · exact .inl ⟨h, decode_of_reservedOpcode h⟩
  · refine .inr ⟨r, hr, hop, ?_⟩
    rw [decode_of_row hr hop]
    by_cases hz : w &&& r.format.zeroMask = 0
    · exact .inr ⟨hz, if_pos hz⟩
    · exact .inl ⟨hz, if_neg hz⟩

theorem decode_illegalOpcode_iff : decode w = .rejected .illegalOpcode ↔ opField w ∈ reservedOpcodes := by
  refine ⟨fun h => ?_, decode_of_reservedOpcode⟩
  obtain ⟨hres, -⟩ | ⟨r, -, -, ⟨-, hd⟩ | ⟨-, hd⟩⟩ := decode_cases w
  · exact hres
  · simp [h] at hd
  · simp [h] at hd

theorem decode_reservedBits_iff :
    decode w = .rejected .reservedBits ↔ ∃ r ∈ opRows, opField w = r.op ∧ w &&& r.format.zeroMask ≠ 0 := by
  constructor
  · intro h
    obtain ⟨-, hd⟩ | ⟨r, hr, hop, ⟨hz, -⟩ | ⟨-, hd⟩⟩ := decode_cases w
    · simp [h] at hd
    · exact ⟨r, hr, hop, hz⟩
    · simp [h] at hd
  · rintro ⟨r, hr, hop, hz⟩
    rw [decode_of_row hr hop, if_neg hz]

theorem decode_command_iff :
    (∃ i, decode w = .command i) ↔ ∃ r ∈ opRows, opField w = r.op ∧ w &&& r.format.zeroMask = 0 := by
  constructor
  · rintro ⟨i, h⟩
    obtain ⟨-, hd⟩ | ⟨r, hr, hop, ⟨-, hd⟩ | ⟨hz, -⟩⟩ := decode_cases w
    · simp [h] at hd
    · simp [h] at hd
    · exact ⟨r, hr, hop, hz⟩
  · rintro ⟨r, hr, hop, hz⟩
    exact ⟨r.read w, by rw [decode_of_row hr hop, if_pos hz]⟩

end DecodeByRow

/-- Settles O3: the decoder's answer by `decode_illegalOpcode_iff`, and the fault of a rejected word by
`runWord_of_rejected`. -/
theorem reservedOpcodesAreIllegal : Obligations.ReservedOpcodesAreIllegal :=
  ⟨rfl, fun _ s => ⟨decode_illegalOpcode_iff, fun h => runWord_of_rejected (decode_illegalOpcode_iff.2 h) s⟩⟩

/-! ## The columns of the opcode table (R112, R116) -/

/-- The match and mask columns of a row of the map: its opcode in the OP field, and the OP field with the format's zero
mask. -/
def tableEntry (r : OpRow) : Word × Word := (packWord r.op 0 0 0 0, 0xFC000000 ||| r.format.zeroMask)

theorem opcodeTable_eq_map : opcodeTable = opRows.map tableEntry := by decide

theorem exists_mem_opcodeTable_iff {P : Word × Word → Prop} :
    (∃ e ∈ opcodeTable, P e) ↔ ∃ r ∈ opRows, P (tableEntry r) := by
  simp [opcodeTable_eq_map]

theorem packWord_op_toNat {op : Nat} (h : op < 64) : (packWord op 0 0 0 0).toNat = op * 2 ^ 26 := by
  rw [packWord_toNat h (by decide)]
  omega

theorem opField_packWord {op : Nat} (h : op < 64) : opField (packWord op 0 0 0 0) = op := by
  rw [opField, field, packWord_op_toNat h]
  omega

theorem opField_tableEntry {r : OpRow} (hr : r ∈ opRows) : opField (tableEntry r).1 = r.op :=
  opField_packWord (op_lt_of_mem_opRows r hr)

/-- A row's mask below the OP field is its format's zero mask. -/
theorem tableEntry_mask_and_low (r : OpRow) : (tableEntry r).2 &&& 0x03FFFFFF = r.format.zeroMask := by
  have h (f : Format) : (0xFC000000 ||| f.zeroMask) &&& 0x03FFFFFF = f.zeroMask := by cases f <;> decide
  exact h r.format

/-! ## A word against a row (R116) -/

/-- The OP mask keeps a word's opcode and clears the rest. -/
theorem and_opMask (w : Word) : w &&& 0xFC000000 = packWord (opField w) 0 0 0 0 := by
  have hhigh : (w.toNat &&& 0xFC000000) / 2 ^ 26 = w.toNat / 2 ^ 26 % 2 ^ 6 := by
    rw [Nat.and_div_two_pow, ← Nat.and_two_pow_sub_one_eq_mod]
  have hlow : (w.toNat &&& 0xFC000000) % 2 ^ 26 = 0 := by
    rw [Nat.and_mod_two_pow]
    exact Nat.and_zero _
  apply BitVec.eq_of_toNat_eq
  rw [packWord_op_toNat (opField_lt w), opField, field, ← hhigh]
  exact (Nat.div_mul_cancel (Nat.dvd_of_mod_eq_zero hlow)).symm

theorem packWord_op_and_opMask {op : Nat} (h : op < 64) : packWord op 0 0 0 0 &&& 0xFC000000 = packWord op 0 0 0 0 := by
  rw [and_opMask, opField_packWord h]

/-- No format reserves a bit of the OP field. -/
theorem opMask_and_zeroMask (f : Format) : 0xFC000000 &&& f.zeroMask = 0 := by
  cases f <;> decide

theorem packWord_op_and_zeroMask {op : Nat} (h : op < 64) (f : Format) : packWord op 0 0 0 0 &&& f.zeroMask = 0 := by
  rw [← packWord_op_and_opMask h, BitVec.and_assoc, opMask_and_zeroMask]
  exact BitVec.and_zero

/-- Absorption: what is under `x` or `y`, cut down to `x`. -/
theorem or_and_self_left (x y : Word) : (x ||| y) &&& x = x := by
  ext i hi
  rw [BitVec.getElem_and, BitVec.getElem_or, Bool.and_comm]
  exact inf_sup_self

theorem tableEntry_mask_and_opMask (r : OpRow) : (tableEntry r).2 &&& 0xFC000000 = 0xFC000000 :=
  or_and_self_left _ _

theorem tableEntry_mask_and_zeroMask (r : OpRow) : (tableEntry r).2 &&& r.format.zeroMask = r.format.zeroMask := by
  rw [tableEntry, BitVec.or_comm, or_and_self_left]

/-- A word matches a row when its opcode is the row's and no bit under the row's zero mask is 1. -/
theorem matches_tableEntry_iff {r : OpRow} (hr : r ∈ opRows) (w : Word) :
    w &&& (tableEntry r).2 = (tableEntry r).1 ↔ opField w = r.op ∧ w &&& r.format.zeroMask = 0 := by
  have hlt := op_lt_of_mem_opRows r hr
  have hentry : (tableEntry r).1 = packWord r.op 0 0 0 0 := rfl
  constructor
  · intro h
    have hpack : packWord (opField w) 0 0 0 0 = packWord r.op 0 0 0 0 := by
      rw [← and_opMask, ← tableEntry_mask_and_opMask r, ← BitVec.and_assoc, h, hentry, packWord_op_and_opMask hlt]
    constructor
    · rw [← opField_packWord (opField_lt w), hpack, opField_packWord hlt]
    · rw [← tableEntry_mask_and_zeroMask r, ← BitVec.and_assoc, h, hentry, packWord_op_and_zeroMask hlt]
  · rintro ⟨hop, hz⟩
    rw [hentry, tableEntry, BitVec.and_or_distrib_left, and_opMask, hop, hz]
    exact BitVec.or_zero

theorem opField_eq_of_matches {r : OpRow} (hr : r ∈ opRows) {w : Word} (h : w &&& (tableEntry r).2 = (tableEntry r).1) :
    opField w = r.op := ((matches_tableEntry_iff hr w).1 h).1

/-- No word matches two rows of the table: they have different opcodes. -/
theorem opcodeTable_pairwise_disjoint :
    opcodeTable.Pairwise fun r r' => ∀ w : Word, ¬(w &&& r.2 = r.1 ∧ w &&& r'.2 = r'.1) := by
  rw [opcodeTable_eq_map, List.pairwise_map]
  refine opRows_pairwise_op_ne.imp_of_mem fun hr hr' hne w ⟨h, h'⟩ => hne ?_
  rw [← opField_eq_of_matches hr h, opField_eq_of_matches hr' h']

/-- Settles O2: `matches_tableEntry_iff` turns the table's columns into the rows by which `decode_command_iff` and
`decode_reservedBits_iff` give the decoder's answer; the rows exclude each other by their opcodes, and `decode_cases` leaves
no fourth case. -/
theorem wordsMatchTheOpcodeTable : Obligations.WordsMatchTheOpcodeTable := by
  refine ⟨opcodeTable_pairwise_disjoint, fun w => ⟨?_, ?_, fun s h => runWord_of_rejected h s, ?_⟩⟩
  · rw [exists_mem_opcodeTable_iff, decode_command_iff]
    exact exists_congr fun r => and_congr_right fun hr => (matches_tableEntry_iff hr w).symm
  · rw [exists_mem_opcodeTable_iff, decode_reservedBits_iff]
    refine exists_congr fun r => and_congr_right fun hr => ?_
    rw [opField_tableEntry hr, tableEntry_mask_and_low]
  · obtain ⟨-, hd⟩ | ⟨r, -, -, ⟨-, hd⟩ | ⟨-, hd⟩⟩ := decode_cases w
    · exact .inr (.inr hd)
    · exact .inr (.inl hd)
    · exact .inl ⟨_, hd⟩

end Sys2Proof.Machine

/-!
SUPPORT for the proofs about single commands: the fields of a packed word, and from them that the decoder reads every command
back from the word the encoder gives it (30_encoding.md R112, R116).
-/

namespace Sys2Proof.Machine

open Sys2Proof.Laws

/-! ## The fields of a packed word (R111) -/

section PackedFields

variable {op a b c l m : Nat}

theorem fieldA_packWord {a : Fin 16} (h : b * 2 ^ 18 + c * 2 ^ 14 + l < 2 ^ 22) :
    fieldA (packWord op a b c l) = a := by
  apply Fin.ext
  simp only [fieldA, field, packWord, BitVec.toNat_ofNat]
  omega

theorem fieldB_packWord {b : Fin 16} (h : c * 2 ^ 14 + l < 2 ^ 18) : fieldB (packWord op a b c l) = b := by
  apply Fin.ext
  simp only [fieldB, field, packWord, BitVec.toNat_ofNat]
  omega

theorem fieldC_packWord {c : Fin 16} (h : l < 2 ^ 14) : fieldC (packWord op a b c l) = c := by
  apply Fin.ext
  simp only [fieldC, field, packWord, BitVec.toNat_ofNat]
  omega

theorem fieldImm12_packWord {l : Fin 4096} : fieldImm12 (packWord op a b c l) = l := by
  apply Fin.ext
  simp only [fieldImm12, field, packWord, BitVec.toNat_ofNat]
  omega

theorem fieldLow8_packWord {l : Fin 256} : fieldLow8 (packWord op a b c l) = l := by
  apply Fin.ext
  simp only [fieldLow8, field, packWord, BitVec.toNat_ofNat]
  omega

/-- Whatever stands above the low eight bits. -/
theorem fieldLow8_packWord_add {l : Fin 256} (h : m % 2 ^ 8 = 0) : fieldLow8 (packWord op a b c (m + l)) = l := by
  apply Fin.ext
  simp only [fieldLow8, field, packWord, BitVec.toNat_ofNat]
  omega

theorem fieldX_packWord {x : Fin 4} (h : m + l < 2 ^ 20) : fieldX (packWord op a 0 0 (x * 2 ^ 20 + m + l)) = x := by
  apply Fin.ext
  simp only [fieldX, field, packWord, BitVec.toNat_ofNat]
  omega

theorem fieldY_packWord {y : Fin 4} (hm : m % 2 ^ 20 = 0) (hl : l < 2 ^ 18) :
    fieldY (packWord op a 0 0 (m + y * 2 ^ 18 + l)) = y := by
  apply Fin.ext
  simp only [fieldY, field, packWord, BitVec.toNat_ofNat]
  omega

theorem fieldN_packWord {n : Fin 256} (hm : m % 2 ^ 20 = 0) (hl : l < 2 ^ 12) :
    fieldN (packWord op a 0 0 (m + n * 2 ^ 12 + l)) = n := by
  apply Fin.ext
  simp only [fieldN, field, packWord, BitVec.toNat_ofNat]
  omega

theorem fieldT_packWord {t : Tag} (h : l < 2 ^ 13) : fieldT (packWord op a b c (t.bit * 2 ^ 13 + l)) = t := by
  have hbit : field (packWord op a b c (t.bit * 2 ^ 13 + l)) 13 1 = t.bit := by
    have := Laws.Tag.bit_lt t
    simp only [field, packWord, BitVec.toNat_ofNat]
    omega
  rw [fieldT, hbit]
  cases t <;> rfl

theorem fieldT_packWord_zero {t : Tag} : fieldT (packWord op a b c (t.bit * 2 ^ 13)) = t := by
  rw [← Nat.add_zero (t.bit * 2 ^ 13), fieldT_packWord (by decide)]

end PackedFields

/-! ## Every command's own word decodes to it (R112, R116) -/

/-- The encoder's word has the command's opcode and no reserved bit: `EncodedFields` for every command. -/
theorem encodedFields : ∀ i : Instr, EncodedFields.Statement i
  | .nop => EncodedFields.nop
  | .zeroize => EncodedFields.zeroize
  | .fadd rd ra rb => EncodedFields.fadd rd ra rb
  | .fsub rd ra rb => EncodedFields.fsub rd ra rb
  | .fneg rd ra => EncodedFields.fneg rd ra
  | .fmul rd ra rb => EncodedFields.fmul rd ra rb
  | .finv rd ra => EncodedFields.finv rd ra
  | .fdiv rd ra rb => EncodedFields.fdiv rd ra rb
  | .fpow rd ra e => EncodedFields.fpow rd ra e
  | .feq ra rb => EncodedFields.feq ra rb
  | .fli rd v => EncodedFields.fli rd v
  | .fmov rd ra => EncodedFields.fmov rd ra
  | .frand rd => EncodedFields.frand rd
  | .ftom rd ra => EncodedFields.ftom rd ra
  | .ffromm rd ra => EncodedFields.ffromm rd ra
  | .fcomp rd ra d => EncodedFields.fcomp rd ra d
  | .fdecomp rd ra d => EncodedFields.fdecomp rd ra d
  | .fbct ra rb rz => EncodedFields.fbct ra rb rz
  | .fbgs ra rb rz => EncodedFields.fbgs ra rb rz
  | .fld rd ps idx => EncodedFields.fld rd ps idx
  | .fst pd fa idx => EncodedFields.fst pd fa idx
  | .padd pd pa pb => EncodedFields.padd pd pa pb
  | .psub pd pa pb => EncodedFields.psub pd pa pb
  | .pntt pd pa => EncodedFields.pntt pd pa
  | .pintt pd pa => EncodedFields.pintt pd pa
  | .pbmul pd pa pb => EncodedFields.pbmul pd pa pb
  | .pbmac pd pa pb => EncodedFields.pbmac pd pa pb
  | .pcopy pd pa => EncodedFields.pcopy pd pa
  | .pzero pd t => EncodedFields.pzero pd t
  | .pscale pd pa fb => EncodedFields.pscale pd pa fb
  | .pcomp pd pa d => EncodedFields.pcomp pd pa d
  | .pdecomp pd pa d => EncodedFields.pdecomp pd pa d
  | .parse pd x y blk => EncodedFields.parse pd x y blk
  | .cbd pd eta n blk => EncodedFields.cbd pd eta n blk
  | .penc pa d blk => EncodedFields.penc pa d blk
  | .pdec pd d blk t => EncodedFields.pdec pd d blk t
  | .pkeKeygen => EncodedFields.pkeKeygen
  | .pkeEnc => EncodedFields.pkeEnc
  | .pkeDec => EncodedFields.pkeDec
  | .kemKeygen => EncodedFields.kemKeygen
  | .kemEncaps => EncodedFields.kemEncaps
  | .kemDecaps => EncodedFields.kemDecaps

/-- The row of a command's opcode has the command's format, and reads the command back from the command's own word. -/
theorem rowOf_opcodeOf (i : Instr) :
    ∃ r, rowOf (opcodeOf i) = some r ∧ r.format = formatOf i ∧ r.read (encode i) = i := by
  cases i with
  | pzero pd t =>
    have hbit := Laws.Tag.bit_lt t
    refine ⟨_, rfl, rfl, ?_⟩
    simp (disch := omega) only [encode, fieldA_packWord, fieldT_packWord_zero]
  | pdec pd d blk t =>
    have hbit := Laws.Tag.bit_lt t
    refine ⟨_, rfl, rfl, ?_⟩
    simp (disch := omega) only [encode, fieldA_packWord, fieldB_packWord, fieldLow8_packWord_add, fieldT_packWord]
  | _ =>
    refine ⟨_, rfl, rfl, ?_⟩
    simp (disch := omega) only [encode, fieldA_packWord, fieldB_packWord, fieldC_packWord, fieldImm12_packWord,
      fieldLow8_packWord, fieldLow8_packWord_add, fieldX_packWord, fieldY_packWord, fieldN_packWord]

theorem decode_encode (i : Instr) : decode (encode i) = .command i := by
  obtain ⟨hop, hmask⟩ := encodedFields i
  obtain ⟨r, hrow, hformat, hread⟩ := rowOf_opcodeOf i
  simp only [decode, hop, hrow, hformat, hmask, if_true, hread]

end Sys2Proof.Machine

/-!
PROOFS of statements of 40_field.md: the field commands but FRAND. Before them, how a command's own word runs and how its
reserved bits fault; in each part, the arithmetic modulo q its statement turns on.
-/

namespace Sys2Proof.Machine

/-! ## Running a command's own word -/

theorem runs_encode (i : Instr) {s t : State} {P : State → Prop} (he : exec i s = .next t) (h : P t) :
    Runs (encode i) i s P := ⟨decode_encode i, t, he, h⟩

/-- A command whose meaning is `fieldResult`: its word is `mont` of its value, and nothing else changes. -/
theorem runs_fieldResult (i : Instr) {s : State} {rd : FReg} {a : Nat} {P : Raw → Prop}
    (he : exec i s = .next (fieldResult rd a s)) (h : P (mont a)) : Runs (encode i) i s (WritesFreg rd s P) :=
  runs_encode i he (writesFreg_setFreg s rd (mont a) h)

/-- Each reserved column of an opcode's format is checked (R115, R363). -/
theorem reservedBitsFault_of_rowOf {op lo len : Nat} {r : OpRow} (hrow : rowOf op = some r)
    (h : (lo, len) ∈ r.format.reserved) : ReservedBitsFault op lo len := by
  intro w s hop hfield
  obtain ⟨hr, hrop⟩ := mem_and_op_eq_of_rowOf hrow
  have hmask : w &&& r.format.zeroMask ≠ 0 := fun hz => hfield ((maskClear_iff r.format w).1 hz (lo, len) h)
  exact runWord_of_rejected (decode_reservedBits_iff.2 ⟨r, hr, hop.trans hrop.symm, hmask⟩) s

/-! ## Sums, differences and products on raw words (R154-R157) -/

theorem mont_addMod_val (x y : Raw) : (mont (addMod (val x) (val y))).toNat = (x.toNat + y.toNat) % 3329 := by
  rw [mont_toNat, addMod_eq, val_def, val_def]
  omega

theorem mont_subMod_val (x y : Raw) :
    ((mont (subMod (val x) (val y))).toNat : Int) = ((x.toNat : Int) - y.toNat) % 3329 := by
  have h := subMod_int (val x) (val y)
  rw [mont_toNat]
  rw [val_def, val_def] at h ⊢
  omega

/-- FNEG's formula is the difference from 0. -/
theorem neg_eq_subMod_zero (a : Nat) (h : a < 3329) : (q - a) % q = subMod 0 a := by
  simp only [subMod, q]
  omega

/-- A product of values carries one factor R^-1 more than the value of the product of the raw words. -/
theorem mulMod_val (x y : Raw) : mulMod (val x) (val y) = x.toNat * y.toNat * 169 * 169 % 3329 := by
  calc mulMod (val x) (val y) = x.toNat * 169 * (y.toNat * 169) % 3329 := (Nat.mul_mod _ _ _).symm
    _ = x.toNat * y.toNat * 169 * 169 % 3329 := by ring_nf

theorem mont_mulMod_val (x y : Raw) :
    (mont (mulMod (val x) (val y))).toNat = x.toNat * y.toNat * 169 % 3329 := by
  rw [mont_toNat, mulMod_val]
  exact (radix_cancel _ Config.radix).2

/-- Settles O6: the value by `val_mont`, the raw word by `mont_addMod_val`, `mont_subMod_val` and `mont_mulMod_val`; FNEG is
the difference from 0. -/
theorem fieldArithmeticIsModular : Obligations.FieldArithmeticIsModular := by
  refine ⟨fun rd ra rb s => ⟨?_, ?_, ?_, ?_⟩, reservedBitsFault_of_rowOf rfl (by decide),
    reservedBitsFault_of_rowOf rfl (by decide), reservedBitsFault_of_rowOf rfl (by decide),
    reservedBitsFault_of_rowOf rfl (by decide)⟩
  · exact runs_fieldResult (.fadd rd ra rb) rfl ⟨val_mont (addMod_lt _ _), mont_addMod_val _ _⟩
  · refine runs_fieldResult (.fsub rd ra rb) rfl ⟨?_, mont_subMod_val _ _⟩
    rw [val_mont (subMod_lt _ _), subMod_int]
  · have hlt : s.fval ra < 3329 := val_lt _
    refine runs_fieldResult (.fneg rd ra) rfl ⟨?_, ?_⟩
    · rw [neg_eq_subMod_zero _ hlt, val_mont (subMod_lt _ _), subMod_int]
      omega
    · have h := mont_subMod_val 0 (s.freg ra)
      rw [val_zero] at h
      rw [neg_eq_subMod_zero _ hlt, State.fval, h]
      simp
  · exact runs_fieldResult (.fmul rd ra rb) rfl ⟨val_mont (mulMod_lt _ _), mont_mulMod_val _ _⟩

/-! ## The inverse by Fermat (R158) -/

theorem prime_q : Nat.Prime 3329 := by norm_num

/-- Multiplying by the (q-2)-th power of a value that is not 0 and then by the value changes nothing modulo q. -/
theorem mul_pow_cancel {x : Nat} (a : Nat) (hx : x ≠ 0) (hlt : x < 3329) :
    a * x ^ 3327 % 3329 * x % 3329 = a % 3329 := by
  have hcop : Nat.Coprime x 3329 := (Nat.coprime_of_lt_prime hx hlt prime_q).symm
  have htotient : Nat.totient 3329 = 3327 + 1 := Nat.totient_prime prime_q
  have hfermat : x ^ Nat.totient 3329 % 3329 = 1 := Nat.ModEq.pow_totient hcop
  calc a * x ^ 3327 % 3329 * x % 3329 = a * x ^ Nat.totient 3329 % 3329 := by
        rw [htotient, pow_succ x 3327, ← Nat.mul_assoc, Nat.mod_mul_mod]
    _ = a % 3329 := by rw [← Nat.mul_mod_mod, hfermat, Nat.mul_one]

theorem invMod_lt (a : Nat) : invMod a < 3329 := powMod_lt _ _

theorem invMod_eq (a : Nat) : invMod a = a ^ 3327 % 3329 := by simp only [invMod, powMod, q, Nat.reduceSub]

theorem mulMod_invMod (a b : Nat) : mulMod a (invMod b) = a * b ^ 3327 % 3329 := by
  rw [mulMod, invMod_eq, Nat.mul_mod_mod]

/-- Settles O7: FINV and FDIV by `mul_pow_cancel` where the divisor is not 0, and by 0^3327 = 0 where it is. -/
theorem fieldInverseQuotientAndPower : Obligations.FieldInverseQuotientAndPower := by
  refine ⟨fun rd ra rb e s => ⟨?_, ?_, ?_⟩, reservedBitsFault_of_rowOf rfl (by decide),
    reservedBitsFault_of_rowOf rfl (by decide), reservedBitsFault_of_rowOf rfl (by decide)⟩
  · have hval : val (mont (invMod (s.fval ra))) = s.fval ra ^ 3327 % 3329 := by
      rw [val_mont (invMod_lt _), invMod_eq]
    refine runs_fieldResult (.finv rd ra) rfl ⟨mont_canonical _, hval, fun h => ?_, fun h => ?_⟩
    · rw [hval, ← Nat.one_mul (s.fval ra ^ 3327), mul_pow_cancel 1 h (val_lt _)]
    · rw [hval, h, zero_pow (by decide), Nat.zero_mod]
  · have hval : val (mont (mulMod (s.fval ra) (invMod (s.fval rb)))) = s.fval ra * s.fval rb ^ 3327 % 3329 := by
      rw [val_mont (mulMod_lt _ _), mulMod_invMod]
    refine runs_fieldResult (.fdiv rd ra rb) rfl ⟨mont_canonical _, hval, fun h => ?_, fun h => ?_⟩
    · rw [hval, mul_pow_cancel _ h (val_lt _)]
      exact Nat.mod_eq_of_lt (val_lt _)
    · rw [hval, h, zero_pow (by decide), Nat.mul_zero, Nat.zero_mod]
  · have hval : val (mont (powMod (s.fval ra) e.val)) = s.fval ra ^ e.val % 3329 := val_mont (powMod_lt _ _)
    refine runs_fieldResult (.fpow rd ra e) rfl ⟨mont_canonical _, hval, fun h => ?_⟩
    rw [hval, h, Nat.pow_zero]

/-! ## Comparison, constants and moves (R161-R163) -/

theorem frame_setEq (s : State) (b : Bool) : Frame [] [] noBytes s (s.setEq b).complete :=
  frame_complete rfl (fun _ _ => rfl) (fun _ _ => ⟨rfl, rfl⟩) fun _ _ => rfl

/-- Canonical words are equal exactly when their values are. -/
theorem val_inj {w w' : Raw} (h : Canonical w) (h' : Canonical w') : val w = val w' ↔ w = w' :=
  ⟨fun hv => by rw [← mont_val h, ← mont_val h', hv], fun hw => by rw [hw]⟩

/-- Settles O8: FEQ by `val_inj`, FLI by its check of the immediate. -/
theorem fieldCompareLoadAndMove : Obligations.FieldCompareLoadAndMove := by
  refine ⟨fun rd ra rb v s => ⟨?_, fun h => ?_, fun h => ?_, ?_⟩, reservedBitsFault_of_rowOf rfl (by decide),
    reservedBitsFault_of_rowOf rfl (by decide), reservedBitsFault_of_rowOf rfl (by decide),
    reservedBitsFault_of_rowOf rfl (by decide)⟩
  · have heq : (s.freg ra == s.freg rb) = true ↔ s.freg ra = s.freg rb := beq_iff_eq
    exact runs_encode (.feq ra rb) rfl
      ⟨frame_setEq s _, rfl, rfl, heq, fun hra hrb => heq.trans (val_inj hra hrb).symm⟩
  · have he : exec (.fli rd v) s = .next (fieldResult rd v.val s) := congrArg _ (if_neg (Nat.not_le.2 h))
    exact runs_fieldResult (.fli rd v) he ⟨mont_canonical _, val_mont h⟩
  · exact ⟨decode_encode (.fli rd v), congrArg _ (if_pos h)⟩
  · exact runs_encode (.fmov rd ra) rfl (writesFreg_setFreg s rd _ rfl)

/-! ## The Montgomery form itself (R165, R166) -/

/-- A value fits a raw word. -/
theorem ofNat_val_toNat (w : Raw) : (BitVec.ofNat 12 (val w)).toNat = val w := by
  have := val_lt w
  rw [BitVec.toNat_ofNat]
  omega

/-- Settles O10: FTOM is `mont` of the raw word, FFROMM stores the value, and `radix_cancel` takes it back. -/
theorem montgomeryConversions : Obligations.MontgomeryConversions := by
  refine ⟨fun rd ra s => ⟨?_, ?_⟩, reservedBitsFault_of_rowOf rfl (by decide), reservedBitsFault_of_rowOf rfl (by decide)⟩
  · exact runs_fieldResult (.ftom rd ra) rfl ⟨mont_toNat _, fun h => val_mont h⟩
  · have hw : (BitVec.ofNat 12 (s.fval ra)).toNat = s.fval ra := ofNat_val_toNat (s.freg ra)
    refine runs_encode (.ffromm rd ra) rfl (writesFreg_setFreg s rd _ ⟨hw, hw, fun h => ?_⟩)
    rw [hw]
    exact (radix_cancel _ Config.radix).2.trans (Nat.mod_eq_of_lt h)

/-! ## The quantizers (R167, R168) -/

theorem quantLegal_iff (d : Width) : quantLegal d = true ↔ 1 ≤ d.val ∧ d.val ≤ 11 := decide_eq_true_iff

/-- Decompress_d of an integer below 2^d is a value (R221). -/
theorem decompress_lt {d y : Nat} (hd : d ≤ 11) (hy : y < 2 ^ d) : decompress d y < 3329 := by
  have hhalf : 2 ^ (d - 1) < 3329 := (Nat.pow_le_pow_right (by decide) (by omega : d - 1 ≤ 10)).trans_lt (by decide)
  rw [decompress, q, Nat.div_lt_iff_lt_mul (Nat.two_pow_pos d)]
  omega

/-- Settles O13: on a legal width the results are values (`compress_lt`, `decompress_lt`), so `val` reads them back; on the
others `quantLegal` fails. -/
theorem fieldQuantizers : Obligations.FieldQuantizers := by
  refine ⟨fun rd ra d s => ⟨fun hd => ⟨?_, ?_⟩, fun hd => ?_⟩, reservedBitsFault_of_rowOf rfl (by decide),
    reservedBitsFault_of_rowOf rfl (by decide)⟩
  · have hlegal := (quantLegal_iff d).2 hd
    have hc := compress_lt d.val (s.fval ra)
    have hpow : 2 ^ d.val ≤ 2 ^ 11 := Nat.pow_le_pow_right (by decide) hd.2
    have hval : val (mont (compress d.val (s.fval ra))) = compress d.val (s.fval ra) := val_mont (by omega)
    have he : exec (.fcomp rd ra d) s = .next (fieldResult rd (compress d.val (s.fval ra)) s) :=
      congrArg _ (if_pos hlegal)
    exact runs_fieldResult (.fcomp rd ra d) he ⟨mont_canonical _, hval.trans_lt hc, hval⟩
  · have he : exec (.fdecomp rd ra d) s = .next (fieldResult rd (decompress d.val (s.fval ra % 2 ^ d.val)) s) :=
      congrArg _ (if_pos ((quantLegal_iff d).2 hd))
    exact runs_fieldResult (.fdecomp rd ra d) he
      ⟨mont_canonical _, val_mont (decompress_lt hd.2 (Nat.mod_lt _ (Nat.two_pow_pos _)))⟩
  · have hillegal : ¬quantLegal d = true := by rw [quantLegal_iff]; omega
    exact ⟨decode_encode (.fcomp rd ra d), decode_encode (.fdecomp rd ra d), congrArg _ (if_neg hillegal),
      congrArg _ (if_neg hillegal)⟩

/-! ## The butterflies (R169, R170) -/

theorem butterflyResult_same (ra : FReg) (x y : Nat) (s : State) :
    butterflyResult ra ra x y s = s.takeFault .badField := if_pos rfl

/-- A butterfly on two registers writes them and nothing else. -/
theorem butterflyResult_writes {ra rb : FReg} (hne : ra ≠ rb) (x y : Nat) (s : State) :
    Frame [ra, rb] [] noBytes s (butterflyResult ra rb x y s) ∧ Quiet s (butterflyResult ra rb x y s) ∧
    (butterflyResult ra rb x y s).freg ra = mont x ∧ (butterflyResult ra rb x y s).freg rb = mont y := by
  rw [butterflyResult, if_neg hne]
  refine ⟨frame_setFval_setFval s ra rb x y, ⟨rfl, rfl, rfl⟩, ?_, ?_⟩
  · rw [State.complete_freg, State.setFval_freg, if_neg hne, State.setFval_freg, if_pos rfl]
  · rw [State.complete_freg, State.setFval_freg, if_pos rfl]

/-- A command whose meaning is `butterflyResult` on two registers: what is left to show of the state it answers. -/
theorem runs_butterflyResult (i : Instr) {s : State} {ra rb : FReg} {x y : Nat} {P : State → Prop} (hne : ra ≠ rb)
    (he : exec i s = .next (butterflyResult ra rb x y s))
    (h : ∀ t, Frame [ra, rb] [] noBytes s t → Quiet s t → t.freg ra = mont x → t.freg rb = mont y → P t) :
    Runs (encode i) i s P := by
  obtain ⟨hframe, hquiet, ha, hb⟩ := butterflyResult_writes hne x y s
  exact runs_encode i he (h _ hframe hquiet ha hb)

/-- A difference modulo q with a product modulo q (R15). -/
theorem subMod_mulMod_int (a z b : Nat) : (subMod a (mulMod z b) : Int) = ((a : Int) - z * b) % 3329 := by
  rw [subMod_int, mulMod, Int.natCast_emod, Int.natCast_mul]
  exact Int.sub_emod_emod _ _ _

/-- A product modulo q with a difference modulo q (R15). -/
theorem mulMod_subMod_int (z a b : Nat) : (mulMod z (subMod a b) : Int) = (z : Int) * ((a : Int) - b) % 3329 := by
  rw [mulMod, Int.natCast_emod, Int.natCast_mul, subMod_int]
  exact (Int.mod_modEq _ _).mul_left _

/-- Settles O14: both words by `butterflyResult_writes`, their values by the arithmetic modulo q. -/
theorem butterfliesWriteBothOperands : Obligations.ButterfliesWriteBothOperands := by
  refine ⟨fun ra rb rz s hne => ⟨?_, ?_⟩, fun ra rz s => ?_, reservedBitsFault_of_rowOf rfl (by decide),
    reservedBitsFault_of_rowOf rfl (by decide)⟩
  · refine runs_butterflyResult (.fbct ra rb rz) hne rfl fun t hframe hquiet ha hb => ⟨hframe, hquiet, ?_⟩
    rw [ha, hb, val_mont (addMod_lt _ _), val_mont (subMod_lt _ _)]
    exact ⟨mont_canonical _, mont_canonical _, Nat.add_mod_mod _ _ _, subMod_mulMod_int _ _ _⟩
  · refine runs_butterflyResult (.fbgs ra rb rz) hne rfl fun t hframe hquiet ha hb => ⟨hframe, hquiet, ?_⟩
    rw [ha, hb, val_mont (addMod_lt _ _), val_mont (mulMod_lt _ _)]
    exact ⟨mont_canonical _, mont_canonical _, rfl, mulMod_subMod_int _ _ _⟩
  · exact ⟨decode_encode (.fbct ra ra rz), decode_encode (.fbgs ra ra rz),
      congrArg _ (butterflyResult_same ra _ _ s), congrArg _ (butterflyResult_same ra _ _ s)⟩

/-! ## Slot words (R171, R172) -/

/-- Settles O15: FLD writes one register; FST's other words and tag by `State.setSlotWord_slotWord`. -/
theorem slotWordTransfers : Obligations.SlotWordTransfers := by
  refine ⟨fun r p idx s => ⟨?_, ?_⟩, reservedBitsFault_of_rowOf rfl (by decide), reservedBitsFault_of_rowOf rfl (by decide)⟩
  · exact runs_encode (.fld r p idx) rfl (writesFreg_setFreg s r _ rfl)
  · refine runs_encode (.fst p r idx) rfl
      ⟨frame_setSlotWord s p idx _, ⟨rfl, rfl, rfl⟩, rfl, ?_, fun j hj => ?_⟩
    · rw [State.complete_slotWord, State.setSlotWord_slotWord, if_pos ⟨rfl, rfl⟩]
    · rw [State.complete_slotWord, State.setSlotWord_slotWord, if_neg fun h => hj h.2]

end Sys2Proof.Machine

/-!
PROOFS of statements of 41_poly_ntt.md, the slot commands: each is `slotResult` behind its tags, or a write of a slot.
-/

namespace Sys2Proof.Machine

/-! ## Running a slot command -/

theorem slotVals_at (s : State) (p : Slot) (j : Fin 256) : (s.slotVals p).at j = val (s.slotWord p j) :=
  polyVals_at (s.slot p) j.isLt

/-- A slot command whose tags are as it requires (R201). -/
theorem runs_slotResult (i : Instr) {s : State} {c : Prop} [Decidable c] {pd : Slot} {f : Coeffs} {t : Tag}
    {P : Fin 256 → Nat → Prop} (he : exec i s = .next (slotResult (decide c) pd f t s)) (hc : c)
    (hf : ∀ j, f.at j < 3329) (h : ∀ j : Fin 256, P j (f.at j)) : Runs (encode i) i s (WritesSlot pd t s P) := by
  rw [decide_eq_true hc] at he
  exact runs_encode i he (writesSlot_setSlotVals s pd f t hf h)

/-- A slot command whose tags are not as it requires (R201). -/
theorem exec_domainMismatch {i : Instr} {s : State} {c : Prop} [Decidable c] {pd : Slot} {f : Coeffs} {t : Tag}
    (he : exec i s = .next (slotResult (decide c) pd f t s)) (hc : ¬c) :
    exec i s = .next (s.takeFault .domainMismatch) := by
  rw [he, decide_eq_false hc]
  rfl

theorem tag_ne_ntt_iff {t : Tag} : t ≠ .ntt ↔ t = .normal := by cases t <;> decide

theorem tag_ne_normal_of_ntt {t : Tag} (h : t = .ntt) : t ≠ .normal := by rw [h]; decide

theorem tag_ne_ntt_of_normal {t : Tag} (h : t = .normal) : t ≠ .ntt := tag_ne_ntt_iff.2 h

/-! ## The coefficient-wise commands (R213, R214, R224) -/

/-- Settles O16: the words by `Coeffs.add_at`, `Coeffs.sub_at` and `Coeffs.scale_at`. -/
theorem slotArithmetic : Obligations.SlotArithmetic := by
  refine ⟨fun pd pa pb fb s => ⟨fun htags => ⟨?_, ?_⟩, fun htags => ?_, ?_⟩, reservedBitsFault_of_rowOf rfl (by decide),
    reservedBitsFault_of_rowOf rfl (by decide), reservedBitsFault_of_rowOf rfl (by decide)⟩
  · refine runs_slotResult (.padd pd pa pb) rfl htags (Coeffs.build_lt fun _ => addMod_lt _ _) fun j => ?_
    rw [Coeffs.add_at _ _ j.isLt, slotVals_at, slotVals_at]
  · refine runs_slotResult (.psub pd pa pb) rfl htags (Coeffs.build_lt fun _ => subMod_lt _ _) fun j => ?_
    rw [Coeffs.sub_at _ _ j.isLt, slotVals_at, slotVals_at, subMod_int]
  · exact ⟨decode_encode (.padd pd pa pb), decode_encode (.psub pd pa pb), exec_domainMismatch rfl htags,
      exec_domainMismatch rfl htags⟩
  · refine runs_encode (.pscale pd pa fb) rfl
      (writesSlot_setSlotVals s pd _ _ (Coeffs.build_lt fun _ => mulMod_lt _ _) fun j => ?_)
    rw [Coeffs.scale_at _ _ j.isLt, slotVals_at]

/-! ## The transforms (R215, R216) -/

/-- Settles O17: the results are values below q by `ntt_lt` and `nttInv_lt`. -/
theorem slotTransforms : Obligations.SlotTransforms := by
  refine ⟨fun pd pa s => ⟨fun htag => ?_, fun htag => ?_, fun htag => ?_, fun htag => ?_⟩,
    reservedBitsFault_of_rowOf rfl (by decide), reservedBitsFault_of_rowOf rfl (by decide)⟩
  · exact runs_slotResult (.pntt pd pa) rfl htag (ntt_lt _) fun _ => rfl
  · exact ⟨decode_encode (.pntt pd pa), exec_domainMismatch rfl (tag_ne_normal_of_ntt htag)⟩
  · exact runs_slotResult (.pintt pd pa) rfl htag (nttInv_lt _) fun _ => rfl
  · exact ⟨decode_encode (.pintt pd pa), exec_domainMismatch rfl (tag_ne_ntt_of_normal htag)⟩

/-! ## Base multiplication (R210, R217, R218) -/

theorem baseMul_at (a b : Coeffs) {j : Nat} (h : j < 256) : (baseMul a b).at j =
    (if j % 2 = 0 then
      a.at (2 * (j / 2)) * b.at (2 * (j / 2)) + a.at (2 * (j / 2) + 1) * b.at (2 * (j / 2) + 1) * gamma (j / 2)
    else a.at (2 * (j / 2)) * b.at (2 * (j / 2) + 1) + a.at (2 * (j / 2) + 1) * b.at (2 * (j / 2))) % 3329 := by
  rw [baseMul, Coeffs.build_at_lt _ h, apply_ite (· % 3329)]

/-- The constant term of a block of BaseMul. -/
theorem baseMul_at_even (a b : Coeffs) {i : Nat} (h : i < 128) : (baseMul a b).at (2 * i) =
    (a.at (2 * i) * b.at (2 * i) + a.at (2 * i + 1) * b.at (2 * i + 1) * gamma i) % 3329 := by
  have hdiv : 2 * i / 2 = i := by omega
  rw [baseMul_at a b (by omega), if_pos (by omega), hdiv]

/-- The linear term of a block of BaseMul. -/
theorem baseMul_at_odd (a b : Coeffs) {i : Nat} (h : i < 128) : (baseMul a b).at (2 * i + 1) =
    (a.at (2 * i) * b.at (2 * i + 1) + a.at (2 * i + 1) * b.at (2 * i)) % 3329 := by
  have hdiv : (2 * i + 1) / 2 = i := by omega
  rw [baseMul_at a b (by omega), if_neg (by omega), hdiv]

/-- Settles O18: the words by `baseMul_at`; PBMAC's sum takes the old values of pd. -/
theorem slotBaseMultiplication : Obligations.SlotBaseMultiplication := by
  refine ⟨fun pd pa pb s => ⟨fun ha hb => ?_, fun htags => ?_, fun hd ha hb => ?_, fun htags => ?_⟩,
    reservedBitsFault_of_rowOf rfl (by decide), reservedBitsFault_of_rowOf rfl (by decide)⟩
  · exact runs_slotResult (.pbmul pd pa pb) rfl ⟨ha, hb⟩ (baseMul_lt _ _) fun j => baseMul_at _ _ j.isLt
  · refine ⟨decode_encode (.pbmul pd pa pb), exec_domainMismatch rfl ?_⟩
    rwa [not_and_or, ← ne_eq, ← ne_eq, tag_ne_ntt_iff, tag_ne_ntt_iff]
  · refine runs_slotResult (.pbmac pd pa pb) rfl ⟨hd, ha, hb⟩ (Coeffs.build_lt fun _ => addMod_lt _ _) fun j => ?_
    rw [Coeffs.add_at _ _ j.isLt, baseMul_at _ _ j.isLt, Nat.add_mod_mod]
    rfl
  · refine ⟨decode_encode (.pbmac pd pa pb), exec_domainMismatch rfl ?_⟩
    rwa [not_and_or, not_and_or, ← ne_eq, ← ne_eq, ← ne_eq, tag_ne_ntt_iff, tag_ne_ntt_iff, tag_ne_ntt_iff]

/-! ## Copy and zero (R219, R223) -/

/-- Settles O19: both are one `setSlot`, whatever the tags. -/
theorem slotCopyAndZero : Obligations.SlotCopyAndZero := by
  refine ⟨fun pd pa t s => ⟨?_, ?_⟩, reservedBitsFault_of_rowOf rfl (by decide),
    reservedBitsFault_of_rowOf rfl (by decide), reservedBitsFault_of_rowOf rfl (by decide)⟩
  · refine runs_encode (.pcopy pd pa) rfl ⟨frame_setSlot s pd _ _, ⟨rfl, rfl, rfl⟩, ?_, fun j => ?_⟩
    · rw [State.complete_tag, State.setSlot_tag, if_pos rfl]
    · rw [State.complete_slotWord, setSlot_slotWord]
      rfl
  · refine runs_encode (.pzero pd t) rfl ⟨frame_setSlot s pd _ _, ⟨rfl, rfl, rfl⟩, ?_, fun j => ?_⟩
    · rw [State.complete_tag, State.setSlot_tag, if_pos rfl]
    · rw [State.complete_slotWord, setSlot_slotWord, Vector.getElem_replicate]

/-! ## The quantizers (R225, R226) -/

theorem compress_lt_q {d : Nat} (hd : d ≤ 11) (x : Nat) : compress d x < 3329 :=
  (compress_lt d x).trans ((Nat.pow_le_pow_right (by decide) hd).trans_lt (by decide : 2 ^ 11 < 3329))

/-- A quantizer's width is checked before the tag (R369): with a legal one its meaning is `slotResult`. -/
theorem exec_pcomp_of_legal {d : Width} (hd : 1 ≤ d.val ∧ d.val ≤ 11) (pd pa : Slot) (s : State) :
    exec (.pcomp pd pa d) s = .next (slotResult (decide (s.tag pa = .normal)) pd
      ((s.slotVals pa).mapEach (compress d.val)) .normal s) :=
  congrArg _ (if_pos ((quantLegal_iff d).2 hd))

theorem exec_pdecomp_of_legal {d : Width} (hd : 1 ≤ d.val ∧ d.val ≤ 11) (pd pa : Slot) (s : State) :
    exec (.pdecomp pd pa d) s = .next (slotResult (decide (s.tag pa = .normal)) pd
      ((s.slotVals pa).mapEach fun x => decompress d.val (x % 2 ^ d.val)) .normal s) :=
  congrArg _ (if_pos ((quantLegal_iff d).2 hd))

/-- Settles O20: with a legal width the results are values below q (`compress_lt_q`, `decompress_lt`), written behind the
tag; with another `quantLegal` fails. -/
theorem slotQuantizers : Obligations.SlotQuantizers := by
  refine ⟨fun pd pa d s => ⟨decode_encode (.pcomp pd pa d), decode_encode (.pdecomp pd pa d), fun hd => ?_,
    fun hd htag => ?_, fun hd htag => ⟨?_, ?_⟩⟩, reservedBitsFault_of_rowOf rfl (by decide),
    reservedBitsFault_of_rowOf rfl (by decide)⟩
  · have hillegal : ¬quantLegal d = true := by rw [quantLegal_iff]; omega
    exact ⟨congrArg _ (if_neg hillegal), congrArg _ (if_neg hillegal)⟩
  · exact ⟨exec_domainMismatch (exec_pcomp_of_legal hd pd pa s) (tag_ne_normal_of_ntt htag),
      exec_domainMismatch (exec_pdecomp_of_legal hd pd pa s) (tag_ne_normal_of_ntt htag)⟩
  · refine runs_slotResult (.pcomp pd pa d) (exec_pcomp_of_legal hd pd pa s) htag
      (Coeffs.build_lt fun _ => compress_lt_q hd.2 _) fun j => ?_
    rw [Coeffs.mapEach_at _ _ j.isLt, slotVals_at]
    rfl
  · refine runs_slotResult (.pdecomp pd pa d) (exec_pdecomp_of_legal hd pd pa s) htag
      (Coeffs.build_lt fun _ => decompress_lt hd.2 (Nat.mod_lt _ (Nat.two_pow_pos _))) fun j => ?_
    rw [Coeffs.mapEach_at _ _ j.isLt, slotVals_at]
    rfl

end Sys2Proof.Machine

/-!
PROOFS of the statement of 41_poly_ntt.md about Compress_d and Decompress_d (R220-R222): both round a quotient of natural
numbers to the nearest integer, ties up, so each result is off by at most half a step.
-/

namespace Sys2Proof.Machine

/-! ## Rounding to the nearest integer, ties up (R16) -/

/-- The quotient a/b rounded to the nearest integer, ties up, is a division of natural numbers. -/
theorem floor_div_add_half (a : Nat) {b : Nat} (hb : b ≠ 0) :
    ⌊(a / b + 1 / 2 : ℚ)⌋ = (((2 * a + b) / (2 * b) : Nat) : Int) := by
  have hquot : (a / b + 1 / 2 : ℚ) = ((2 * a + b : Nat) : ℚ) / ((2 * b : Nat) : ℚ) := by
    push_cast
    field_simp
  rw [hquot, Rat.floor_natCast_div_natCast, Int.natCast_div]

/-- Compress_d rounds (2^d / q) · x (R220). -/
theorem compress_eq_floor (d x : Nat) : (compress d x : Int) = ⌊(2 ^ d / 3329 * x + 1 / 2 : ℚ)⌋ % 2 ^ d := by
  have hquot : (2 ^ d / 3329 * x : ℚ) = ((2 ^ d * x : Nat) : ℚ) / (3329 : Nat) := by
    push_cast
    ring
  rw [hquot, floor_div_add_half _ (by decide), compress, pow_succ', Nat.mul_assoc]
  push_cast
  rfl

/-- Decompress_d without the power 2^(d-1). -/
theorem decompress_eq {d : Nat} (hd : 1 ≤ d) (y : Nat) : decompress d y = (2 * (3329 * y) + 2 ^ d) / (2 * 2 ^ d) := by
  obtain ⟨e, rfl⟩ := Nat.exists_eq_add_of_le' hd
  have hnum : 2 * (3329 * y) + 2 ^ (e + 1) = 2 * (3329 * y + 2 ^ e) := by rw [pow_succ', ← Nat.mul_add]
  rw [hnum, Nat.mul_div_mul_left _ _ (by decide)]
  rfl

/-- Decompress_d(y) is off q·y / 2^d by at most 1/2. -/
theorem decompress_within_half {d : Nat} (hd : 1 ≤ d) (y : Nat) :
    2 * (2 ^ d * decompress d y) ≤ 2 * (3329 * y) + 2 ^ d ∧
    2 * (3329 * y) + 2 ^ d < 2 * (2 ^ d * decompress d y) + 2 * 2 ^ d := by
  rw [decompress_eq hd, ← Nat.mul_assoc 2 (2 ^ d), ← Nat.mul_succ]
  exact ⟨Nat.mul_div_le _ _, Nat.lt_mul_div_succ _ (Nat.mul_pos (by decide) (Nat.two_pow_pos d))⟩

/-- Decompress_d rounds (q / 2^d) · y (R221). -/
theorem decompress_eq_floor {d : Nat} (hd : 1 ≤ d) (y : Nat) :
    (decompress d y : Int) = ⌊(3329 / 2 ^ d * y + 1 / 2 : ℚ)⌋ := by
  have hquot : (3329 / 2 ^ d * y : ℚ) = ((3329 * y : Nat) : ℚ) / (2 ^ d : Nat) := by
    push_cast
    ring
  rw [hquot, floor_div_add_half _ (Nat.two_pow_pos d).ne', decompress_eq hd]

/-! ## The error of one after the other (R222) -/

/-- round(q / 2^(d+1)) as a division of natural numbers. -/
def quantError (d : Nat) : Nat := (3329 + 2 ^ d) / (2 * 2 ^ d)

theorem quantError_eq_floor (d : Nat) : (quantError d : Int) = ⌊(3329 / 2 ^ (d + 1) + 1 / 2 : ℚ)⌋ := by
  have hnum : 2 * 3329 + 2 ^ (d + 1) = 2 * (3329 + 2 ^ d) := by rw [pow_succ', ← Nat.mul_add]
  have h := floor_div_add_half 3329 (Nat.two_pow_pos (d + 1)).ne'
  rw [hnum, Nat.mul_div_mul_left _ _ (by decide), pow_succ' 2 d] at h
  rw [quantError, ← h, pow_succ' (2 : ℚ) d]
  push_cast
  rfl

theorem le_quantError_iff {d m : Nat} : m ≤ quantError d ↔ 2 * (2 ^ d * m) ≤ 3329 + 2 ^ d := by
  rw [quantError, Nat.le_div_iff_mul_le (Nat.mul_pos (by decide) (Nat.two_pow_pos d)), Nat.mul_comm m, Nat.mul_assoc]

theorem subMod_of_le {a b : Nat} (ha : a < 3329) (h : b ≤ a) : subMod a b = a - b := by
  rw [subMod, Nat.mod_eq_of_lt (h.trans_lt ha), ← Nat.add_sub_assoc (h.trans ha.le)]
  simp only [q]
  omega

/-- The centred distance of two values is at most their difference either way. -/
theorem cdist_le {a b m : Nat} (ha : a < 3329) (hb : b < 3329) (hab : a - b ≤ m) (hba : b - a ≤ m) : cdist a b ≤ m := by
  obtain h | h := le_total b a
  · exact (min_le_left _ _).trans ((subMod_of_le ha h).trans_le hab)
  · exact (min_le_right _ _).trans ((subMod_of_le hb h).trans_le hba)

/-- The centred distance of 0 and a value, going round past q. -/
theorem cdist_zero_le {b m : Nat} (hb : b < 3329) (h : 3329 - b ≤ m) : cdist 0 b ≤ m := by
  refine (min_le_left _ _).trans (le_trans ?_ h)
  rw [subMod, Nat.mod_eq_of_lt hb, Nat.zero_add]
  exact Nat.mod_le _ _

/-- The error bound: with D = 2^d, Compress_d(x) is n mod D with D·x off q·n by at most q/2, and Decompress_d(n) off q·n/D
by at most 1/2. Where n is D the value wraps round to 0. -/
theorem cdist_decompress_compress_le {d x : Nat} (hd : 1 ≤ d ∧ d ≤ 11) (hx : x < 3329) :
    cdist (decompress d (compress d x)) x ≤ quantError d := by
  have hDx : 2 ^ d * x ≤ 2 ^ d * 3328 := Nat.mul_le_mul_left _ (by omega)
  have hcompress : compress d x = (2 * (2 ^ d * x) + 3329) / (2 * 3329) % 2 ^ d := by
    rw [compress, pow_succ', Nat.mul_assoc]
  have hDpos := Nat.two_pow_pos d
  have hdec := decompress_lt hd.2 (compress_lt d x)
  generalize hn : (2 * (2 ^ d * x) + 3329) / (2 * 3329) = n at hcompress
  obtain hlt | heq : n < 2 ^ d ∨ n = 2 ^ d := by omega
  · obtain ⟨hlo, hhi⟩ := decompress_within_half hd.1 n
    rw [hcompress, Nat.mod_eq_of_lt hlt] at hdec ⊢
    refine cdist_le hdec hx (le_quantError_iff.2 ?_) (le_quantError_iff.2 ?_)
    · rw [Nat.mul_sub]
      omega
    · rw [Nat.mul_sub]
      omega
  · have hzero : decompress d 0 = 0 := by
      rw [decompress_eq hd.1]
      exact Nat.div_eq_of_lt (by omega)
    rw [hcompress, heq, Nat.mod_self, hzero]
    refine cdist_zero_le hx (le_quantError_iff.2 ?_)
    rw [Nat.mul_sub]
    omega

/-- For each d in 1..11 a value at which the error reaches its bound. -/
def farthestValue (d : Nat) : Nat := [832, 416, 208, 104, 52, 26, 13, 1658, 3, 5, 1].getD (d - 1) 0

theorem cdist_farthestValue : ∀ d < 12, 1 ≤ d → farthestValue d < 3329 ∧
    cdist (decompress d (compress d (farthestValue d))) (farthestValue d) = quantError d := by decide

/-- Settles O24: the roundings by `floor_div_add_half`, the bound by `cdist_decompress_compress_le`, reached at
`farthestValue`. -/
theorem quantizersRoundAndBoundTheError : Obligations.QuantizersRoundAndBoundTheError := by
  intro d h1 h11
  obtain ⟨hlt, hreached⟩ := cdist_farthestValue d (by omega) h1
  refine ⟨fun x _ => compress_eq_floor d x, fun y hy => ⟨decompress_eq_floor h1 y, decompress_lt h11 hy⟩, fun x hx => ?_,
    farthestValue d, hlt, ?_⟩
  · rw [← quantError_eq_floor]
    exact_mod_cast cdist_decompress_compress_le ⟨h1, h11⟩ hx
  · rw [← quantError_eq_floor, hreached]

end Sys2Proof.Machine

/-!
PROOF of the statement of 41_poly_ntt.md that the transforms are inverses (R209): a layer of the inverse transform undoes the
forward layer of the same length up to a factor 2, and the seven factors 2 cancel the final scale 3303 = 128^-1 (R208).
-/

namespace Sys2Proof.Machine

/-! ## The values as residues modulo q -/

@[simp] theorem natCast_mod_q (a : Nat) : ((a % 3329 : Nat) : ZMod 3329) = a := ZMod.natCast_mod a 3329

@[simp] theorem natCast_addMod (a b : Nat) : (addMod a b : ZMod 3329) = a + b := by
  rw [addMod_eq, natCast_mod_q, Nat.cast_add]

@[simp] theorem natCast_mulMod (a b : Nat) : (mulMod a b : ZMod 3329) = a * b := by
  rw [mulMod, natCast_mod_q, Nat.cast_mul]

@[simp] theorem natCast_subMod (a b : Nat) : (subMod a b : ZMod 3329) = a - b := by
  have h : ((subMod a b : Int) : ZMod 3329) = ((((a : Int) - b) % (3329 : Nat) : Int) : ZMod 3329) :=
    congrArg _ (subMod_int a b)
  rw [ZMod.intCast_mod] at h
  exact_mod_cast h

/-- Polynomials of values below q with the same residues are the same. -/
theorem Coeffs.eq_of_natCast {f g : Coeffs} (hf : f.Canonical) (hg : g.Canonical)
    (h : ∀ j < 256, (f.at j : ZMod 3329) = g.at j) : f = g := by
  refine Coeffs.ext_at fun j hj => ?_
  have hmod := (ZMod.natCast_eq_natCast_iff' _ _ _).1 (h j hj)
  rwa [Nat.mod_eq_of_lt (hf j), Nat.mod_eq_of_lt (hg j)] at hmod

/-! ## The butterflies of a layer -/

/-- The lengths of the layers, in the order of R205. -/
def layerLens : List Nat := [128, 64, 32, 16, 8, 4, 2]

/-- A layer of length `len` has 128 / len blocks of 2·len values. -/
theorem layerLens_blocks : ∀ len ∈ layerLens, 0 < len ∧ len * (128 / len) = 128 := by decide

/-- The two roots with which the layers of one length treat one block are negative inverses of each other. -/
theorem zeta_mul_zeta : ∀ len ∈ layerLens, ∀ b < 128 / len,
    zeta (128 / len + b) * zeta (256 / len - 1 - b) % 3329 = 3328 := by decide +kernel

section Layer
variable {len b t : Nat}

/-- The index of a butterfly's first value: the t-th of the block b. -/
theorem butterfly_lt (hlen : len ∈ layerLens) (hb : b < 128 / len) (ht : t < len) : 2 * len * b + t + len < 256 := by
  obtain ⟨-, hblocks⟩ := layerLens_blocks len hlen
  have : len * (b + 1) ≤ len * (128 / len) := Nat.mul_le_mul_left _ hb
  rw [Nat.mul_add, Nat.mul_one] at this
  rw [Nat.mul_assoc]
  omega

theorem butterfly_low (ht : t < len) :
    (2 * len * b + t) / (2 * len) = b ∧ (2 * len * b + t) % (2 * len) = t := by
  have h2 : t < 2 * len := by omega
  exact ⟨by rw [Nat.mul_add_div (by omega), Nat.div_eq_of_lt h2, Nat.add_zero],
    by rw [Nat.mul_add_mod, Nat.mod_eq_of_lt h2]⟩

theorem butterfly_high (ht : t < len) :
    (2 * len * b + t + len) / (2 * len) = b ∧ (2 * len * b + t + len) % (2 * len) = t + len := by
  have h2 : t + len < 2 * len := by omega
  rw [Nat.add_assoc]
  exact ⟨by rw [Nat.mul_add_div (by omega), Nat.div_eq_of_lt h2, Nat.add_zero],
    by rw [Nat.mul_add_mod, Nat.mod_eq_of_lt h2]⟩

/-- Every index belongs to one butterfly of a layer. -/
theorem forall_butterfly (hlen : len ∈ layerLens) {P : Nat → Prop}
    (h : ∀ b < 128 / len, ∀ t < len, P (2 * len * b + t) ∧ P (2 * len * b + t + len)) : ∀ j < 256, P j := by
  intro j hj
  obtain ⟨hpos, hblocks⟩ := layerLens_blocks len hlen
  have hb : j / (2 * len) < 128 / len := by
    rw [Nat.div_lt_iff_lt_mul (by omega), Nat.mul_comm, Nat.mul_assoc, hblocks]
    exact hj
  have hj' := Nat.div_add_mod j (2 * len)
  have hmod := Nat.mod_lt j (Nat.mul_pos two_pos hpos)
  obtain hlow | hhigh := Nat.lt_or_ge (j % (2 * len)) len
  · exact hj' ▸ (h _ hb _ hlow).1
  · have hsum : 2 * len * (j / (2 * len)) + (j % (2 * len) - len) + len = j := by omega
    exact hsum ▸ (h _ hb (j % (2 * len) - len) (by omega)).2

/-- The Cooley-Tukey butterfly of a forward layer (R205). -/
theorem nttLayer_butterfly (g : Coeffs) (hlen : len ∈ layerLens) (hb : b < 128 / len) (ht : t < len) :
    ((nttLayer g len).at (2 * len * b + t) : ZMod 3329) =
      g.at (2 * len * b + t) + zeta (128 / len + b) * g.at (2 * len * b + t + len) ∧
    ((nttLayer g len).at (2 * len * b + t + len) : ZMod 3329) =
      g.at (2 * len * b + t) - zeta (128 / len + b) * g.at (2 * len * b + t + len) := by
  have hlt := butterfly_lt hlen hb ht
  obtain ⟨hdivl, hmodl⟩ := butterfly_low (b := b) ht
  obtain ⟨hdivh, hmodh⟩ := butterfly_high (b := b) ht
  constructor
  · rw [nttLayer, Coeffs.build_at_lt _ (by omega)]
    simp [hdivl, hmodl, ht]
  · rw [nttLayer, Coeffs.build_at_lt _ hlt]
    simp [hdivh, hmodh]

/-- The Gentleman-Sande butterfly of an inverse layer (R207). -/
theorem inttLayer_butterfly (g : Coeffs) (hlen : len ∈ layerLens) (hb : b < 128 / len) (ht : t < len) :
    ((inttLayer g len).at (2 * len * b + t) : ZMod 3329) = g.at (2 * len * b + t) + g.at (2 * len * b + t + len) ∧
    ((inttLayer g len).at (2 * len * b + t + len) : ZMod 3329) =
      zeta (256 / len - 1 - b) * (g.at (2 * len * b + t + len) - g.at (2 * len * b + t)) := by
  have hlt := butterfly_lt hlen hb ht
  obtain ⟨hdivl, hmodl⟩ := butterfly_low (b := b) ht
  obtain ⟨hdivh, hmodh⟩ := butterfly_high (b := b) ht
  constructor
  · rw [inttLayer, Coeffs.build_at_lt _ (by omega)]
    simp [hmodl, ht]
  · rw [inttLayer, Coeffs.build_at_lt _ hlt]
    simp [hdivh, hmodh]

end Layer

/-! ## Multiples of a polynomial -/

/-- The values of g are c times those of f modulo q. -/
def IsMultiple (c : ZMod 3329) (f g : Coeffs) : Prop := ∀ j, (g.at j : ZMod 3329) = c * f.at j

theorem Coeffs.at_of_le (f : Coeffs) {j : Nat} (h : 256 ≤ j) : f.at j = 0 := by
  simp [Coeffs.at, h]

theorem isMultiple_of_lt {c : ZMod 3329} {f g : Coeffs} (h : ∀ j < 256, (g.at j : ZMod 3329) = c * f.at j) :
    IsMultiple c f g := by
  intro j
  obtain hj | hj := Nat.lt_or_ge j 256
  · exact h j hj
  · simp [Coeffs.at_of_le _ hj]

theorem IsMultiple.trans {c d : ZMod 3329} {f g h : Coeffs} (hfg : IsMultiple c f g) (hgh : IsMultiple d g h) :
    IsMultiple (d * c) f h := fun j => by rw [hgh j, hfg j, mul_assoc]

theorem isMultiple_scale (c : Nat) (f : Coeffs) : IsMultiple c f (f.scale c) :=
  isMultiple_of_lt fun j hj => by rw [Coeffs.scale_at _ _ hj, natCast_mod_q, Nat.cast_mul]

theorem IsMultiple.eq {f g : Coeffs} (h : IsMultiple 1 f g) (hf : f.Canonical) (hg : g.Canonical) : g = f :=
  Coeffs.eq_of_natCast hg hf fun j _ => by rw [h j, one_mul]

/-- A forward layer is linear. -/
theorem IsMultiple.nttLayer {c : ZMod 3329} {f g : Coeffs} (h : IsMultiple c f g) (len : Nat) :
    IsMultiple c (nttLayer f len) (nttLayer g len) := by
  refine isMultiple_of_lt fun j hj => ?_
  rw [Machine.nttLayer, Machine.nttLayer, Coeffs.build_at_lt _ hj, Coeffs.build_at_lt _ hj]
  dsimp only
  split
  · simp only [natCast_addMod, natCast_mulMod, h _]
    ring
  · simp only [natCast_subMod, natCast_mulMod, h _]
    ring

/-- An inverse layer is linear. -/
theorem IsMultiple.inttLayer {c : ZMod 3329} {f g : Coeffs} (h : IsMultiple c f g) (len : Nat) :
    IsMultiple c (inttLayer f len) (inttLayer g len) := by
  refine isMultiple_of_lt fun j hj => ?_
  rw [Machine.inttLayer, Machine.inttLayer, Coeffs.build_at_lt _ hj, Coeffs.build_at_lt _ hj]
  dsimp only
  split
  · simp only [natCast_addMod, h _]
    ring
  · simp only [natCast_subMod, natCast_mulMod, h _]
    ring

theorem IsMultiple.ntt {c : ZMod 3329} {f g : Coeffs} (h : IsMultiple c f g) : IsMultiple c (ntt f) (ntt g) := by
  suffices ∀ (lens : List Nat) (f g : Coeffs), IsMultiple c f g →
      IsMultiple c (lens.foldl Machine.nttLayer f) (lens.foldl Machine.nttLayer g) from this _ f g h
  intro lens
  induction lens with
  | nil => exact fun _ _ h => h
  | cons len lens ih => exact fun _ _ h => ih _ _ (h.nttLayer len)

/-! ## Layers undo each other -/

theorem natCast_zeta_mul_zeta {len b : Nat} (hlen : len ∈ layerLens) (hb : b < 128 / len) :
    (zeta (128 / len + b) * zeta (256 / len - 1 - b) : ZMod 3329) = -1 := by
  rw [← Nat.cast_mul, ← natCast_mod_q, zeta_mul_zeta len hlen b hb]
  rfl

theorem inttLayer_nttLayer {len : Nat} (hlen : len ∈ layerLens) (f : Coeffs) :
    IsMultiple 2 f (inttLayer (nttLayer f len) len) := by
  refine isMultiple_of_lt (forall_butterfly hlen fun b hb t ht => ?_)
  obtain ⟨hlow, hhigh⟩ := nttLayer_butterfly f hlen hb ht
  obtain ⟨hlow', hhigh'⟩ := inttLayer_butterfly (nttLayer f len) hlen hb ht
  rw [hlow', hhigh', hlow, hhigh]
  exact ⟨by ring, by linear_combination -2 * (f.at (2 * len * b + t + len) : ZMod 3329) * natCast_zeta_mul_zeta hlen hb⟩

theorem nttLayer_inttLayer {len : Nat} (hlen : len ∈ layerLens) (f : Coeffs) :
    IsMultiple 2 f (nttLayer (inttLayer f len) len) := by
  refine isMultiple_of_lt (forall_butterfly hlen fun b hb t ht => ?_)
  obtain ⟨hlow, hhigh⟩ := inttLayer_butterfly f hlen hb ht
  obtain ⟨hlow', hhigh'⟩ := nttLayer_butterfly (inttLayer f len) hlen hb ht
  have hroots := natCast_zeta_mul_zeta hlen hb
  rw [hlow', hhigh', hlow, hhigh]
  constructor
  · linear_combination (f.at (2 * len * b + t + len) - f.at (2 * len * b + t) : ZMod 3329) * hroots
  · linear_combination (f.at (2 * len * b + t) - f.at (2 * len * b + t + len) : ZMod 3329) * hroots

/-- Layers of one kind and then, in reverse order, layers of a kind that undoes each up to a factor 2. -/
theorem foldl_reverse_foldl {layer undo : Coeffs → Nat → Coeffs}
    (hlinear : ∀ {c f g}, IsMultiple c f g → ∀ len, IsMultiple c (undo f len) (undo g len)) (lens : List Nat)
    (hundo : ∀ len ∈ lens, ∀ f, IsMultiple 2 f (undo (layer f len) len)) (f : Coeffs) :
    IsMultiple (2 ^ lens.length) f (lens.reverse.foldl undo (lens.foldl layer f)) := by
  induction lens generalizing f with
  | nil => exact fun j => by simp
  | cons len lens ih =>
    rw [List.reverse_cons, List.foldl_append, List.length_cons, pow_succ]
    exact (hundo len List.mem_cons_self f).trans
      (hlinear (ih (fun l hl => hundo l (List.mem_cons_of_mem _ hl)) (layer f len)) len)

/-- The final scale cancels the layers' factors (R208). -/
theorem scale_mul_two_pow : ((3303 : Nat) : ZMod 3329) * 2 ^ 7 = 1 := by decide

theorem nttInv_ntt_isMultiple (f : Coeffs) : IsMultiple 1 f (nttInv (ntt f)) := by
  have hlayers := foldl_reverse_foldl IsMultiple.inttLayer layerLens (fun _ => inttLayer_nttLayer) f
  exact scale_mul_two_pow ▸ hlayers.trans (isMultiple_scale 3303 _)

theorem ntt_nttInv_isMultiple (f : Coeffs) : IsMultiple 1 f (ntt (nttInv f)) := by
  have hlayers := foldl_reverse_foldl IsMultiple.nttLayer layerLens.reverse
    (fun _ hlen => nttLayer_inttLayer (List.mem_reverse.1 hlen)) f
  exact scale_mul_two_pow ▸ hlayers.trans (isMultiple_scale 3303 _).ntt

theorem nttInv_ntt {f : Coeffs} (hf : f.Canonical) : nttInv (ntt f) = f :=
  (nttInv_ntt_isMultiple f).eq hf (nttInv_lt _)

/-- Settles O22: each way round gives 3303 · 2^7 = 1 times the polynomial. -/
theorem transformsAreInverse : Obligations.TransformsAreInverse := fun f hf =>
  ⟨nttInv_ntt hf, (ntt_nttInv_isMultiple f).eq hf (ntt_lt _)⟩

end Sys2Proof.Machine

/-!
PROOF of the statement of 41_poly_ntt.md about base multiplication (R212). Block i of a transformed polynomial is the
polynomial's value at the root of X² = γ_i in Z_q[X]/(X² − γ_i), by one step per layer; BaseMul multiplies in these rings; and
there X^256 = -1, so products of values are values of the negacyclic product.
-/

namespace Sys2Proof.Machine

/-! ## Powers of the roots -/

/-- At a layer, γ_i^(len/2) is the root of the block that the index 2i lies in, where 2i falls into the first half of the
block, and the root's negative where it falls into the second. -/
theorem gamma_pow_half : ∀ len ∈ layerLens, ∀ i < 128,
    (2 * i / len = 2 * (i / len) ∧ gamma i ^ (len / 2) % 3329 = zeta (128 / len + i / len)) ∨
    (2 * i / len = 2 * (i / len) + 1 ∧ (gamma i ^ (len / 2) + zeta (128 / len + i / len)) % 3329 = 0) := by
  decide +kernel

theorem gamma_pow_128 : ∀ i < 128, gamma i ^ 128 % 3329 = 3328 := by decide +kernel

theorem natCast_gamma_pow_128 {i : Nat} (hi : i < 128) : (gamma i : ZMod 3329) ^ 128 = -1 := by
  rw [← Nat.cast_pow, ← natCast_mod_q, gamma_pow_128 i hi]
  rfl

theorem natCast_gamma_pow_half {len i : Nat} (hlen : len ∈ layerLens) (hi : i < 128) :
    (2 * i / len = 2 * (i / len) ∧ (gamma i : ZMod 3329) ^ (len / 2) = zeta (128 / len + i / len)) ∨
    (2 * i / len = 2 * (i / len) + 1 ∧ (gamma i : ZMod 3329) ^ (len / 2) = -zeta (128 / len + i / len)) := by
  obtain ⟨hhalf, hroot⟩ | ⟨hhalf, hroot⟩ := gamma_pow_half len hlen i hi
  · refine .inl ⟨hhalf, ?_⟩
    rw [← hroot, natCast_mod_q, Nat.cast_pow]
  · refine .inr ⟨hhalf, eq_neg_of_add_eq_zero_left ?_⟩
    rw [← Nat.cast_pow, ← Nat.cast_add, ← natCast_mod_q, hroot, Nat.cast_zero]

theorem layerLens_even : ∀ len ∈ layerLens, 2 * (len / 2) = len := by decide

section Value
variable {R : Type*} [CommRing R] [Algebra (ZMod 3329) R]

/-! ## The value of a block -/

/-- The value at x of the polynomial whose coefficients are the n values of f from index s up. -/
def Coeffs.valueFrom (f : Coeffs) (s n : Nat) (x : R) : R := ∑ t ∈ Finset.range n, (f.at (s + t) : ZMod 3329) • x ^ t

/-- The value at x of the block of n values in which the index 2i lies. -/
def Coeffs.blockValue (f : Coeffs) (n i : Nat) (x : R) : R := f.valueFrom (n * (2 * i / n)) n x

theorem Coeffs.valueFrom_two_mul (f : Coeffs) (s len : Nat) (x : R) : f.valueFrom s (2 * len) x =
    ∑ t ∈ Finset.range len, ((f.at (s + t) : ZMod 3329) • x ^ t + (f.at (s + t + len) : ZMod 3329) • (x ^ len * x ^ t)) := by
  rw [Coeffs.valueFrom, two_mul, Finset.sum_range_add, Finset.sum_add_distrib]
  refine congrArg₂ (· + ·) rfl (Finset.sum_congr rfl fun t _ => ?_)
  rw [pow_add, Nat.add_assoc s, Nat.add_comm t]

/-- A layer keeps the value, at a root of X² = γ_i, of the block of the index 2i: the butterfly puts the power x^len of the
root, which is the layer's root up to the sign, in the place of X^len. -/
theorem blockValue_nttLayer {len i : Nat} (hlen : len ∈ layerLens) (hi : i < 128) {x : R}
    (hx : x ^ 2 = algebraMap (ZMod 3329) R (gamma i)) (g : Coeffs) :
    (nttLayer g len).blockValue len i x = g.blockValue (2 * len) i x := by
  have hb : i / len < 128 / len := by
    obtain ⟨hpos, hblocks⟩ := layerLens_blocks len hlen
    rwa [Nat.div_lt_iff_lt_mul hpos, Nat.mul_comm, hblocks]
  have hpow : x ^ len = algebraMap (ZMod 3329) R (gamma i ^ (len / 2)) := by
    rw [map_pow, ← hx, ← pow_mul, layerLens_even len hlen]
  rw [Coeffs.blockValue, Coeffs.blockValue, Nat.mul_div_mul_left _ _ two_pos, Coeffs.valueFrom_two_mul, hpow]
  refine Finset.sum_congr rfl fun t ht => ?_
  obtain ⟨hlow, hhigh⟩ := nttLayer_butterfly g hlen hb (Finset.mem_range.1 ht)
  obtain ⟨hhalf, hroot⟩ | ⟨hhalf, hroot⟩ := natCast_gamma_pow_half hlen hi
  · have hidx : len * (2 * i / len) + t = 2 * len * (i / len) + t := by rw [hhalf]; ring
    rw [hidx, hlow, hroot]
    simp only [Algebra.smul_def, map_add, map_mul]
    ring
  · have hidx : len * (2 * i / len) + t = 2 * len * (i / len) + t + len := by rw [hhalf]; ring
    rw [hidx, hhigh, hroot]
    simp only [Algebra.smul_def, map_sub, map_neg, map_mul]
    ring

/-- Block i of a transformed polynomial is the polynomial's value at the roots of X² = γ_i. -/
theorem blockValue_ntt {i : Nat} (hi : i < 128) {x : R} (hx : x ^ 2 = algebraMap (ZMod 3329) R (gamma i)) (f : Coeffs) :
    (ntt f).blockValue 2 i x = f.valueFrom 0 256 x := by
  have step {len : Nat} (hlen : len ∈ layerLens) (g : Coeffs) := blockValue_nttLayer hlen hi hx g
  have hwhole : 2 * i / 256 = 0 := Nat.div_eq_of_lt (by omega)
  calc (ntt f).blockValue 2 i x = f.blockValue (2 * 128) i x := by
        simp only [ntt, List.foldl]
        rw [step (len := 2) (by decide), step (len := 4) (by decide), step (len := 8) (by decide),
          step (len := 16) (by decide), step (len := 32) (by decide), step (len := 64) (by decide),
          step (len := 128) (by decide)]
    _ = f.valueFrom 0 256 x := by rw [Coeffs.blockValue, hwhole]

/-! ## The negacyclic product -/

/-- The product modulo X^256 + 1 (R212). -/
def negacyclicProduct (f g : Coeffs) : Coeffs := Coeffs.build fun k => (negacyclic f g k).toNat

theorem negacyclicProduct_at (f g : Coeffs) {k : Nat} (hk : k < 256) :
    ((negacyclicProduct f g).at k : Int) = negacyclic f g k := by
  have hnonneg : 0 ≤ negacyclic f g k := Int.emod_nonneg _ (by decide)
  rw [negacyclicProduct, Coeffs.build_at_lt _ hk, Int.toNat_of_nonneg hnonneg]

theorem negacyclicProduct_canonical (f g : Coeffs) : (negacyclicProduct f g).Canonical :=
  Coeffs.build_lt fun k => by
    have h : negacyclic f g k < 3329 := Int.emod_lt_of_pos _ (by decide)
    omega

/-- The sign with which the coefficient product of degree n goes to the coefficient k. -/
def wrapSign (n k : Nat) : ZMod 3329 := if n = k then 1 else if n = k + 256 then -1 else 0

theorem natCast_negacyclicProduct_at (f g : Coeffs) {k : Nat} (hk : k < 256) :
    ((negacyclicProduct f g).at k : ZMod 3329) = ∑ i ∈ Finset.range 256, ∑ j ∈ Finset.range 256,
      wrapSign (i + j) k * ((f.at i : ZMod 3329) * g.at j) := by
  rw [← Int.cast_natCast, negacyclicProduct_at f g hk]
  refine (ZMod.intCast_mod _ 3329).trans ?_
  simp only [Int.cast_sum]
  refine Finset.sum_congr rfl fun i _ => Finset.sum_congr rfl fun j _ => ?_
  rw [wrapSign]
  split_ifs <;> simp

/-- The powers of a root of X^256 = -1, from the first 256 of them. -/
theorem sum_wrapSign_smul_pow {x : R} (hx : x ^ 256 = -1) {n : Nat} (hn : n < 511) :
    ∑ k ∈ Finset.range 256, wrapSign n k • x ^ k = x ^ n := by
  obtain hlow | hhigh := Nat.lt_or_ge n 256
  · have hothers : ∀ k ∈ Finset.range 256, k ≠ n → wrapSign n k • x ^ k = 0 := fun k _ hkn => by
      rw [wrapSign, if_neg hkn.symm, if_neg (by omega), zero_smul]
    rw [Finset.sum_eq_single_of_mem n (Finset.mem_range.2 hlow) hothers, wrapSign, if_pos rfl, one_smul]
  · have hothers : ∀ k ∈ Finset.range 256, k ≠ n - 256 → wrapSign n k • x ^ k = 0 := fun k hk hkn => by
      have := Finset.mem_range.1 hk
      rw [wrapSign, if_neg (by omega), if_neg (by omega), zero_smul]
    rw [Finset.sum_eq_single_of_mem (n - 256) (Finset.mem_range.2 (by omega)) hothers, wrapSign, if_neg (by omega),
      if_pos (by omega), neg_one_smul, neg_eq_neg_one_mul, ← hx, ← pow_add, Nat.add_sub_cancel' hhigh]

theorem valueFrom_negacyclicProduct {x : R} (hx : x ^ 256 = -1) (f g : Coeffs) :
    (negacyclicProduct f g).valueFrom 0 256 x = f.valueFrom 0 256 x * g.valueFrom 0 256 x := by
  simp only [Coeffs.valueFrom, Nat.zero_add]
  calc ∑ k ∈ Finset.range 256, ((negacyclicProduct f g).at k : ZMod 3329) • x ^ k
      = ∑ k ∈ Finset.range 256, ∑ i ∈ Finset.range 256, ∑ j ∈ Finset.range 256,
          ((f.at i : ZMod 3329) * g.at j) • wrapSign (i + j) k • x ^ k := by
        refine Finset.sum_congr rfl fun k hk => ?_
        rw [natCast_negacyclicProduct_at f g (Finset.mem_range.1 hk)]
        simp only [Finset.sum_smul, smul_smul, mul_comm (wrapSign _ _)]
    _ = ∑ i ∈ Finset.range 256, ∑ j ∈ Finset.range 256,
          ((f.at i : ZMod 3329) * g.at j) • ∑ k ∈ Finset.range 256, wrapSign (i + j) k • x ^ k := by
        rw [Finset.sum_comm]
        refine Finset.sum_congr rfl fun i _ => ?_
        rw [Finset.sum_comm]
        simp only [Finset.smul_sum]
    _ = ∑ i ∈ Finset.range 256, ∑ j ∈ Finset.range 256, ((f.at i : ZMod 3329) • x ^ i) * ((g.at j : ZMod 3329) • x ^ j) := by
        refine Finset.sum_congr rfl fun i hi => Finset.sum_congr rfl fun j hj => ?_
        have hi256 := Finset.mem_range.1 hi
        have hj256 := Finset.mem_range.1 hj
        rw [sum_wrapSign_smul_pow hx (by omega), smul_mul_smul_comm, pow_add]
    _ = _ := (Finset.sum_mul_sum _ _ _ _).symm

end Value

/-! ## Blocks as elements of Z_q[X]/(X² − γ_i) -/

/-- Z_q[X]/(X² − γ_i). -/
abbrev BlockRing (i : Nat) : Type := QuadraticAlgebra (ZMod 3329) (gamma i) 0

/-- The root of X² = γ_i. -/
def blockRoot (i : Nat) : BlockRing i := ⟨0, 1⟩

theorem blockRoot_sq (i : Nat) : blockRoot i ^ 2 = algebraMap (ZMod 3329) (BlockRing i) (gamma i) := by
  ext <;> simp [blockRoot, pow_two]

theorem blockRoot_pow_256 {i : Nat} (hi : i < 128) : blockRoot i ^ 256 = -1 := by
  have hpow : blockRoot i ^ 256 = (blockRoot i ^ 2) ^ 128 := by rw [← pow_mul]
  rw [hpow, blockRoot_sq, ← map_pow, natCast_gamma_pow_128 hi, map_neg, map_one]

theorem blockValue_blockRoot (f : Coeffs) (i : Nat) :
    f.blockValue 2 i (blockRoot i) = (⟨f.at (2 * i), f.at (2 * i + 1)⟩ : BlockRing i) := by
  rw [Coeffs.blockValue, Coeffs.valueFrom, Nat.mul_div_cancel_left _ two_pos]
  ext <;> simp [Finset.sum_range_succ, blockRoot, QuadraticAlgebra.re_one, QuadraticAlgebra.im_one]

/-- BaseMul multiplies block i in Z_q[X]/(X² − γ_i) (R210). -/
theorem blockValue_baseMul (a b : Coeffs) {i : Nat} (hi : i < 128) : (baseMul a b).blockValue 2 i (blockRoot i) =
    a.blockValue 2 i (blockRoot i) * b.blockValue 2 i (blockRoot i) := by
  simp only [blockValue_blockRoot, baseMul_at_even a b hi, baseMul_at_odd a b hi, natCast_mod_q]
  ext
  · simp only [QuadraticAlgebra.re_mul, Nat.cast_add, Nat.cast_mul]
    ring
  · simp only [QuadraticAlgebra.im_mul, Nat.cast_add, Nat.cast_mul, zero_mul, add_zero]

theorem Coeffs.eq_of_blockValue {a b : Coeffs} (ha : a.Canonical) (hb : b.Canonical)
    (h : ∀ i < 128, a.blockValue 2 i (blockRoot i) = b.blockValue 2 i (blockRoot i)) : a = b := by
  refine Coeffs.eq_of_natCast ha hb fun j hj => ?_
  have hblock := h (j / 2) (by omega)
  rw [blockValue_blockRoot, blockValue_blockRoot, QuadraticAlgebra.mk.injEq] at hblock
  obtain heven | hodd := Nat.mod_two_eq_zero_or_one j
  · have hj2 : 2 * (j / 2) = j := by omega
    exact hj2 ▸ hblock.1
  · have hj2 : 2 * (j / 2) + 1 = j := by omega
    exact hj2 ▸ hblock.2

/-- Base multiplication of transforms is the transform of the negacyclic product. -/
theorem baseMul_ntt_ntt (f g : Coeffs) : baseMul (ntt f) (ntt g) = ntt (negacyclicProduct f g) := by
  refine Coeffs.eq_of_blockValue (baseMul_lt _ _) (ntt_lt _) fun i hi => ?_
  have hsq := blockRoot_sq i
  rw [blockValue_baseMul _ _ hi, blockValue_ntt hi hsq, blockValue_ntt hi hsq, blockValue_ntt hi hsq,
    valueFrom_negacyclicProduct (blockRoot_pow_256 hi)]

/-- Settles O23: `baseMul_ntt_ntt`, and the inverse transform takes the transform back. -/
theorem baseMulIsRingMultiplication : Obligations.BaseMulIsRingMultiplication := by
  intro f g k hk
  rw [baseMul_ntt_ntt, nttInv_ntt (negacyclicProduct_canonical f g), negacyclicProduct_at f g hk]

end Sys2Proof.Machine

/-!
PROOFS of statements of 42_sampling_encoding.md about CBD and the packers. Before them, counts and sums of bits as `Finset`
sums, and the groups of d bits that ByteEncode_d writes and ByteDecode_d reads (R262, R263).
-/

namespace Sys2Proof.Machine

/-! ## Bits -/

theorem bitCount_eq_sum (b : Nat → Bool) (lo n : Nat) :
    bitCount b lo n = ∑ t ∈ Finset.range n, (b (lo + t)).toNat := by
  induction n with
  | zero => rfl
  | succ n ih => rw [bitCount, ih, Finset.sum_range_succ]

theorem bitSum_eq_sum (n : Nat) (b : Nat → Bool) : bitSum n b = ∑ t ∈ Finset.range n, (b t).toNat * 2 ^ t := by
  induction n with
  | zero => rfl
  | succ n ih => rw [bitSum, ih, Finset.sum_range_succ]

theorem bytesToBits_readBuf (s : State) (a : Nat) {n i : Nat} (h : i < 8 * n) :
    bytesToBits (s.readBuf a n) i = (s.buf.read (a + i / 8)).getLsbD (i % 8) := by
  rw [bytesToBits, State.readBuf, Memory.readBytes_getD _ _ _ _ (by omega)]

/-! ## Groups of d bits -/

/-- Bit b of group i is a bit of the 256 groups. -/
theorem group_bit_lt {i b d : Nat} (hi : i < 256) (hb : b < d) : i * d + b < 256 * d := by
  have hgroup : (i + 1) * d ≤ 256 * d := Nat.mul_le_mul_right d hi
  rw [Nat.succ_mul] at hgroup
  omega

/-- The value of group i of d bits of a byte string (R263). -/
def groupOf (d : Nat) (bs : List Byte) (i : Nat) : Nat := bitSum d fun t => bytesToBits bs (i * d + t)

theorem groupOf_lt_two_pow (d : Nat) (bs : List Byte) (i : Nat) : groupOf d bs i < 2 ^ d := bitSum_lt _ _

theorem two_pow_lt_q {d : Nat} (hd : d < 12) : 2 ^ d < 3329 :=
  (Nat.pow_le_pow_right (by decide) (Nat.le_of_lt_succ hd)).trans_lt (by decide : 2 ^ 11 < 3329)

theorem groupOf_lt_q {d : Nat} (hd : d < 12) (bs : List Byte) (i : Nat) : groupOf d bs i < 3329 :=
  (groupOf_lt_two_pow d bs i).trans (two_pow_lt_q hd)

/-- A bit below d of a group is the bit of the byte string at its place. -/
theorem groupOf_testBit {d b : Nat} (hb : b < d) (bs : List Byte) (i : Nat) :
    (groupOf d bs i).testBit b = bytesToBits bs (i * d + b) := by
  rw [groupOf, bitSum_testBit, decide_eq_true hb, Bool.true_and]

/-- ByteDecode_d gives the groups modulo q, a reduction that moves only 12-bit groups (R263). -/
theorem byteDecode_eq_groups {d : Nat} (hd : d ≤ 12) (bs : List Byte) :
    byteDecode d bs = Coeffs.build fun i => groupOf d bs i % 3329 := by
  refine Coeffs.ext_at fun i hi => ?_
  rw [byteDecode_at d bs hi, Coeffs.build_at_lt _ hi]
  by_cases h12 : d = 12
  · rw [if_pos h12]; rfl
  · rw [if_neg h12]
    exact (Nat.mod_eq_of_lt (groupOf_lt_q (by omega) bs i)).symm

theorem byteDecode_lt {d : Nat} (hd : d ≤ 12) (bs : List Byte) (j : Nat) : (byteDecode d bs).at j < 3329 := by
  rw [byteDecode_eq_groups hd]
  exact Coeffs.build_lt (fun _ => Nat.mod_lt _ (by decide)) j

theorem byteDecode_at_eq_group {d : Nat} (hd : d ≤ 12) (bs : List Byte) {i : Nat} (hi : i < 256) :
    (byteDecode d bs).at i = groupOf d bs i % 3329 := by
  rw [byteDecode_eq_groups hd, Coeffs.build_at_lt _ hi]

/-- ByteEncode_d puts bit b of value i at place i·d + b (R262). -/
theorem bytesToBits_byteEncode_group (f : Coeffs) {d i b : Nat} (hi : i < 256) (hb : b < d) :
    bytesToBits (byteEncode d f) (i * d + b) = (f.at i).testBit b := by
  rw [bytesToBits_byteEncode d f _ (group_bit_lt hi hb), Nat.mul_add_mod_of_lt hb, Nat.mul_comm,
    Nat.mul_add_div (by omega), Nat.div_eq_of_lt hb, Nat.add_zero]

theorem groupOf_byteEncode (f : Coeffs) {d i : Nat} (hi : i < 256) (hf : f.at i < 2 ^ d) :
    groupOf d (byteEncode d f) i = f.at i := by
  rw [groupOf, bitSum_congr fun _ hb => bytesToBits_byteEncode_group f hi hb]
  exact bitSum_testBit_self d _ hf

/-- A byte string is the encoding of the values of its groups. -/
theorem byteEncode_of_groups {d : Nat} {f : Coeffs} {bs : List Byte} (hl : bs.length = 32 * d)
    (h : ∀ i < 256, f.at i = groupOf d bs i) : byteEncode d f = bs := by
  refine bytes_ext (by rw [byteEncode_length, hl]) fun n hn => ?_
  rw [byteEncode_length] at hn
  have hi : n / d < 256 := Nat.div_lt_of_lt_mul (by omega)
  have hb : n % d < d := Nat.mod_lt _ (by omega)
  rw [bytesToBits_byteEncode d f n (by omega), h _ hi, groupOf_testBit hb, Nat.div_add_mod']

/-! ## Packing and unpacking (R266) -/

theorem byteDecode_byteEncode {d : Nat} (hd : d ≤ 12) {f : Coeffs} (hf : ∀ j < 256, f.at j < 2 ^ d ∧ f.at j < 3329) :
    byteDecode d (byteEncode d f) = f := by
  refine Coeffs.ext_at fun i hi => ?_
  obtain ⟨hpow, hq⟩ := hf i hi
  rw [byteDecode_at_eq_group hd _ hi, groupOf_byteEncode f hi hpow, Nat.mod_eq_of_lt hq]

/-- The reduction modulo q is all that an encoding of decoded bytes can change. -/
theorem byteEncode_byteDecode_iff {d : Nat} (hd : d ≤ 12) {bs : List Byte} (hl : bs.length = 32 * d) :
    byteEncode d (byteDecode d bs) = bs ↔ ∀ i < 256, groupOf d bs i < 3329 := by
  constructor
  · intro h i hi
    have hlt := byteDecode_lt hd bs i
    have hpow : (byteDecode d bs).at i < 2 ^ d := by
      rw [byteDecode_at_eq_group hd bs hi]
      exact (Nat.mod_le _ _).trans_lt (groupOf_lt_two_pow d bs i)
    rwa [← groupOf_byteEncode _ hi hpow, h] at hlt
  · intro h
    refine byteEncode_of_groups hl fun i hi => ?_
    rw [byteDecode_at_eq_group hd bs hi, Nat.mod_eq_of_lt (h i hi)]

/-- Settles O30: a value of d bits is its own group, and below width 12 no group reaches q. -/
theorem packingRoundTrips : Obligations.PackingRoundTrips := by
  intro d _ hd
  refine ⟨fun f hf => byteDecode_byteEncode hd fun j hj => ?_, fun bs hl => ?_⟩
  · have hbound := hf j hj
    by_cases h12 : d = 12
    · subst h12
      rw [if_pos rfl] at hbound
      exact ⟨hbound.trans (by decide), hbound⟩
    · rw [if_neg h12] at hbound
      exact ⟨hbound, hbound.trans (two_pow_lt_q (by omega))⟩
  · rw [byteEncode_byteDecode_iff hd hl]
    obtain hlt | rfl : d < 12 ∨ d = 12 := by omega
    · exact iff_of_true (fun i _ => groupOf_lt_q hlt bs i) (.inl hlt)
    · simp only [groupOf, Nat.mul_comm _ 12, lt_irrefl, false_or]

/-! ## CBD (R255-R257) -/

theorem etaLegal_iff (eta : Fin 4) : etaLegal eta = true ↔ eta.val = 2 ∨ eta.val = 3 := decide_eq_true_iff

/-- Bit i of XOF256(s, n), least significant bit of the first byte first (R256, R260). -/
def xofBit (c : Collab) (s : List Byte) (n : Byte) (i : Nat) : Bool := (c.xof256 s n (i / 8)).getLsbD (i % 8)

section Prf

variable (c : Collab) (s : List Byte) (n : Byte)

theorem bytesToBits_prf {eta i : Nat} (h : i < 512 * eta) : bytesToBits (prf c eta s n) i = xofBit c s n i := by
  have hbyte : i / 8 < 64 * eta := by omega
  simp [bytesToBits, xofBit, prf, List.getD_eq_getElem?_getD, hbyte]

theorem bitCount_prf {eta lo : Nat} (h : lo + eta ≤ 512 * eta) :
    bitCount (bytesToBits (prf c eta s n)) lo eta = ∑ t ∈ Finset.range eta, (xofBit c s n (lo + t)).toNat := by
  rw [bitCount_eq_sum]
  refine Finset.sum_congr rfl fun t ht => ?_
  have hlt := Finset.mem_range.1 ht
  rw [bytesToBits_prf c s n (by omega)]

theorem samplePolyCBD_prf_at (eta : Nat) {j : Nat} (hj : j < 256) : ((samplePolyCBD eta (prf c eta s n)).at j : Int) =
    ((∑ t ∈ Finset.range eta, ((xofBit c s n (2 * j * eta + t)).toNat : Int))
      - ∑ t ∈ Finset.range eta, ((xofBit c s n (2 * j * eta + eta + t)).toNat : Int)) % 3329 := by
  have hgroup : 2 * j * eta + eta + eta ≤ 512 * eta :=
    calc 2 * j * eta + eta + eta = (2 * j + 2) * eta := by ring
      _ ≤ 512 * eta := Nat.mul_le_mul_right eta (by omega)
  rw [samplePolyCBD, Coeffs.build_at_lt _ hj, subMod_int, bitCount_prf c s n (by omega), bitCount_prf c s n hgroup,
    Nat.cast_sum, Nat.cast_sum]

end Prf

/-- Settles O27: the coefficients by `samplePolyCBD_prf_at`; with another eta `etaLegal` fails. -/
theorem cbdSamplesASlot : Obligations.CbdSamplesASlot := by
  refine ⟨fun pd eta n blk s => runs_encode (.cbd pd eta n blk) rfl rfl,
    fun c pd eta n blk s => ⟨fun heta => ?_, fun heta => ?_⟩, reservedBitsFault_of_rowOf rfl (by decide)⟩
  · rw [cbdWith, if_pos ((etaLegal_iff eta).2 heta)]
    exact writesSlot_setSlotVals s pd _ _ (samplePolyCBD_lt _ _) fun j => samplePolyCBD_prf_at c _ _ _ j.isLt
  · have hillegal : ¬etaLegal eta = true := by rw [etaLegal_iff]; omega
    exact if_neg hillegal

/-! ## The checks of PENC and PDEC (R264, R265, R369) -/

section PackResult

theorem packLegal_iff (d : Width) : packLegal d = true ↔ 1 ≤ d.val ∧ d.val ≤ 12 := decide_eq_true_iff

theorem packFits_iff (d : Width) (blk : Blk) : packFits d blk = true ↔ blk.val + d.val ≤ 256 := decide_eq_true_iff

variable {d : Width} {blk : Blk}

theorem packResult_of_illegal (hd : d.val = 0 ∨ 13 ≤ d.val) (s t : State) :
    packResult d blk s t = s.takeFault .badField :=
  if_neg (by rw [packLegal_iff]; omega)

theorem packResult_of_not_fits (hd : 1 ≤ d.val ∧ d.val ≤ 12) (hfit : 256 < blk.val + d.val) (s t : State) :
    packResult d blk s t = s.takeFault .bufRange := by
  rw [packResult, if_pos ((packLegal_iff d).2 hd), if_neg (by rw [packFits_iff]; omega)]

theorem packResult_of_fits (hd : 1 ≤ d.val ∧ d.val ≤ 12) (hfit : blk.val + d.val ≤ 256) (s t : State) :
    packResult d blk s t = t.complete := by
  rw [packResult, if_pos ((packLegal_iff d).2 hd), if_pos ((packFits_iff d blk).2 hfit)]

end PackResult

/-! ## PENC (R264) -/

theorem frame_writeBuf_of_length (s : State) (a : Nat) {bs : List Byte} {n : Nat} (h : bs.length = n) :
    Frame [] [] (span a n) s (s.writeBuf a bs).complete := h ▸ frame_writeBuf s a bs

/-- A byte of a BufWrite has the bits of the byte string at its place. -/
theorem getLsbD_read_writeBuf (s : State) (a : Nat) {bs : List Byte} {n : Nat} (h : n < 8 * bs.length) :
    ((s.writeBuf a bs).buf.read (a + n / 8)).getLsbD (n % 8) = bytesToBits bs n := by
  rw [State.writeBuf_buf, Memory.read_writeBytes, if_pos (by omega), Nat.add_sub_cancel_left, bytesToBits]

/-- PENC's truncation to d bits leaves the bits below d (R264). -/
theorem testBit_truncate {d b : Nat} (hb : b < d) (v : Nat) :
    (if d = 12 then v else v % 2 ^ d).testBit b = v.testBit b := by
  by_cases h12 : d = 12
  · rw [if_pos h12]
  · rw [if_neg h12, Nat.testBit_mod_two_pow, decide_eq_true hb, Bool.true_and]

/-- Settles O28: the frame is that of a BufWrite of 32·d bytes, and their bits are those ByteEncode_d packs. -/
theorem pencPacksASlot : Obligations.PencPacksASlot := by
  refine ⟨fun pa d blk s => ⟨decode_encode (.penc pa d blk), fun hd => ?_, fun hd hfit => ?_, fun hd hfit => ?_⟩,
    reservedBitsFault_of_rowOf rfl (by decide)⟩
  · exact congrArg Host.Outcome.next (packResult_of_illegal hd _ _)
  · exact congrArg Host.Outcome.next (packResult_of_not_fits hd hfit _ _)
  · refine ⟨_, congrArg Host.Outcome.next (packResult_of_fits hd hfit _ _),
      frame_writeBuf_of_length s (blkAddr blk) (byteEncode_length _ _), ⟨rfl, rfl, rfl⟩, fun i b hb => ?_⟩
    have hlt := group_bit_lt i.isLt hb
    refine (getLsbD_read_writeBuf s (blkAddr blk) (by rw [byteEncode_length]; omega)).trans ?_
    rw [bytesToBits_byteEncode_group _ i.isLt hb, Coeffs.mapEach_at _ _ i.isLt, testBit_truncate hb, slotVals_at]

/-! ## PDEC (R265) -/

/-- The value of a group of bytes read from BUF. -/
theorem groupOf_readBuf (s : State) (a d : Nat) {i : Nat} (hi : i < 256) : groupOf d (s.readBuf a (32 * d)) i =
    ∑ b ∈ Finset.range d, ((s.buf.read (a + (i * d + b) / 8)).getLsbD ((i * d + b) % 8)).toNat * 2 ^ b := by
  rw [groupOf, bitSum_eq_sum]
  refine Finset.sum_congr rfl fun b hb => ?_
  have hlt := group_bit_lt hi (Finset.mem_range.1 hb)
  rw [bytesToBits_readBuf s a (by omega)]

/-- Settles O29: the values are the groups of the bytes at the block, modulo q. -/
theorem pdecUnpacksASlot : Obligations.PdecUnpacksASlot := by
  refine ⟨fun pd d blk t s => ⟨decode_encode (.pdec pd d blk t), fun hd => ?_, fun hd hfit => ?_, fun hd hfit => ?_⟩,
    reservedBitsFault_of_rowOf rfl (by decide), reservedBitsFault_of_rowOf rfl (by decide)⟩
  · exact congrArg Host.Outcome.next (packResult_of_illegal hd _ _)
  · exact congrArg Host.Outcome.next (packResult_of_not_fits hd hfit _ _)
  · refine ⟨_, congrArg Host.Outcome.next (packResult_of_fits hd hfit _ _),
      writesSlot_setSlotVals s pd _ t (byteDecode_lt hd.2 _) fun i => ?_⟩
    rw [byteDecode_at_eq_group hd.2 _ i.isLt, groupOf_readBuf s _ _ i.isLt]
    rfl

end Sys2Proof.Machine

/-!
PROOFS of the statements of 43_pke.md: PKE_DEC (R294, R297). Before them, the parts of SK and CT as BufReads at their own
addresses (R47, R290), and Compress_1 as an interval (R220).
-/

namespace Sys2Proof.Machine

/-! ## The parts of SK and CT in BUF -/

/-- v follows the k parts of u and ends the ciphertext (R11). -/
theorem ctPartV_end (lp : LevelParams) : 32 * lp.du * lp.k + 32 * lp.dv = 32 * (lp.k * lp.du + lp.dv) := by ring

/-- Each of the k parts of u ends inside the ciphertext. -/
theorem ctPartU_end_le (lp : LevelParams) {i : Nat} (hi : i < lp.k) :
    32 * lp.du * i + 32 * lp.du ≤ 32 * (lp.k * lp.du + lp.dv) := by
  rw [← ctPartV_end, ← Nat.mul_succ]
  exact le_add_right (Nat.mul_le_mul_left _ hi)

/-- K-PKE.Decrypt of a key and a ciphertext in BUF reads each polynomial at its own address (R294). -/
theorem pkeDecrypt_readBuf (lp : LevelParams) (s : State) (a b : Nat) :
    let u := fun i => (byteDecode lp.du (s.readBuf (b + 32 * lp.du * i) (32 * lp.du))).mapEach (decompress lp.du)
    let v := (byteDecode lp.dv (s.readBuf (b + 32 * lp.du * lp.k) (32 * lp.dv))).mapEach (decompress lp.dv)
    pkeDecrypt lp (s.readBuf a (384 * lp.k)) (s.readBuf b (32 * (lp.k * lp.du + lp.dv))) =
      byteEncode 1 ((v.sub (nttInv (dotProduct lp.k
        (fun i => byteDecode 12 (s.readBuf (a + 384 * i) 384)) fun i => ntt (u i)))).mapEach (compress 1)) := by
  have hs : ∀ i < lp.k, slice (s.readBuf a (384 * lp.k)) (384 * i) 384 = s.readBuf (a + 384 * i) 384 := fun i hi =>
    slice_readBuf s _ _ _ _ (by omega)
  have hu : ∀ i < lp.k, slice (s.readBuf b (32 * (lp.k * lp.du + lp.dv))) (32 * lp.du * i) (32 * lp.du) =
      s.readBuf (b + 32 * lp.du * i) (32 * lp.du) := fun i hi => slice_readBuf s _ _ _ _ (ctPartU_end_le lp hi)
  have hv := slice_readBuf s b _ _ _ (ctPartV_end lp).le
  rw [pkeDecrypt_eq, hv]
  dsimp only
  rw [dotProduct_congr (fun i hi => by rw [hs i hi]) fun i hi => by rw [hu i hi]]

/-! ## Compress_1 and the message's bits -/

/-- Compress_1 gives 1 on 833 to 2496 and 0 on the other values (R220). -/
theorem testBit_compress_one {x : Nat} (hx : x < 3329) :
    (compress 1 x).testBit 0 = decide (833 ≤ x ∧ x ≤ 2496) := by
  rw [Nat.testBit_zero, decide_eq_decide, compress, q]
  omega

theorem Coeffs.sub_at_lt (f g : Coeffs) {j : Nat} (hj : j < 256) : (f.sub g).at j < 3329 := by
  rw [Coeffs.sub_at f g hj]
  exact subMod_lt _ _

/-- Bit x of ByteEncode_1(Compress_1(w)) says whether coefficient x of w is nearer to q/2 than to 0 (R294). -/
theorem bytesToBits_byteEncode_compress_one (f : Coeffs) {x : Nat} (hx : x < 256) (hf : f.at x < 3329) :
    bytesToBits (byteEncode 1 (f.mapEach (compress 1))) x = decide (833 ≤ f.at x ∧ f.at x ≤ 2496) := by
  have hbit := bytesToBits_byteEncode_group (f.mapEach (compress 1)) hx Nat.zero_lt_one
  rwa [Nat.mul_one, Nat.add_zero, Coeffs.mapEach_at _ _ hx, testBit_compress_one hf] at hbit

/-! ## PKE_DEC (R297) -/

theorem pkeDec_badLevel {s : State} (h : s.latchedLevel = 3) : exec .pkeDec s = .next (s.takeFault .badLevel) :=
  congrArg Host.Outcome.next (runMacro_badLevel h)

theorem pkeDec_writes_msg {s : State} {lp : LevelParams} (h : levelParams s.latchedLevel = some lp) :
    exec .pkeDec s = .next (s.writeBuf 0x18A0
      (pkeDecrypt lp (s.readBuf 0 (384 * lp.k)) (s.readBuf 0x1280 (32 * (lp.k * lp.du + lp.dv))))).clearScratch.complete :=
  congrArg Host.Outcome.next (runMacro_done h rfl)

/-- A macro command that has written one byte string of known length. -/
theorem frame_writeBuf_clearScratch_of_length (s : State) (a : Nat) {bs : List Byte} {n : Nat} (h : bs.length = n) :
    Frame [] [] (span a n) s (s.writeBuf a bs).clearScratch.complete := h ▸ frame_writeBuf_clearScratch s a bs

/-- Settles O34: the message by `pkeDecrypt_readBuf`, its bits by `bytesToBits_byteEncode_compress_one`, the frame by that of
one BufWrite of 32 bytes. -/
theorem pkeDecWritesTheMessage : Obligations.PkeDecWritesTheMessage := by
  refine ⟨fun s => ⟨decode_encode .pkeDec, pkeDec_badLevel, fun lp h => ?_⟩, reservedBitsFault_of_rowOf rfl (by decide)⟩
  intro u v sHat w
  refine ⟨_, pkeDec_writes_msg h, frame_writeBuf_clearScratch_of_length s 0x18A0 (pkeDecrypt_length _ _ _), rfl, rfl, rfl,
    fun x => ?_, readBuf_writeBuf_same s _ _ _ (pkeDecrypt_length _ _ _)⟩
  have hm := pkeDecrypt_readBuf lp s 0 0x1280
  simp only [Nat.zero_add] at hm
  refine (getLsbD_read_writeBuf s 0x18A0 (by rw [pkeDecrypt_length]; exact x.isLt)).trans ?_
  rw [hm]
  exact bytesToBits_byteEncode_compress_one w x.isLt (Coeffs.sub_at_lt _ _ x.isLt)

end Sys2Proof.Machine

/-!
PROOFS of the statement of 45_control.md: NOP and ZEROIZE (R350, R351). Before it, that the stores ZEROIZE leaves read as
those at reset (R54).
-/

namespace Sys2Proof.Machine

section ZeroData

variable (s : State)

@[simp] theorem State.zeroData_freg (i : FReg) : s.zeroData.freg i = State.reset.freg i := rfl

@[simp] theorem State.zeroData_tag (p : Slot) : s.zeroData.tag p = State.reset.tag p := rfl

@[simp] theorem State.zeroData_slotWord (p : Slot) (j : Fin 256) :
    s.zeroData.slotWord p j = State.reset.slotWord p j := rfl

/-- A completed ZEROIZE keeps the control state, whatever the stores it may write. -/
theorem frame_zeroData : Frame (List.finRange 16) (List.finRange 16) (fun _ => True) s s.zeroData.complete :=
  frame_complete rfl (fun i hi => absurd (List.mem_finRange i) hi) (fun p hp => absurd (List.mem_finRange p) hp)
    fun _ ha => absurd trivial ha

end ZeroData

/-- Settles O42: NOP is the completion step alone (`frame_of_complete`); ZEROIZE leaves the control state by
`frame_zeroData`, and its stores read as those at reset. -/
theorem nopAndZeroize : Obligations.NopAndZeroize := by
  refine ⟨fun s => ⟨?_, ?_⟩, reservedBitsFault_of_rowOf rfl (by decide), reservedBitsFault_of_rowOf rfl (by decide)⟩
  · exact runs_encode .nop rfl ⟨frame_of_complete s, ⟨rfl, rfl, rfl⟩⟩
  · refine runs_encode .zeroize rfl
      ⟨frame_zeroData s, fun i => ?_, fun p => ⟨?_, fun j => ?_⟩, fun _ => rfl, rfl, rfl, rfl⟩
    · rw [State.complete_freg, State.zeroData_freg, reset_freg]
    · rw [State.complete_tag, State.zeroData_tag, reset_tag]
    · rw [State.complete_slotWord, State.zeroData_slotWord, reset_slotWord]

end Sys2Proof.Machine

/-!
PROOFS of statements of 60_exceptions.md: which fault a command takes (R364-R367, R369), what fault entry writes (R361, R368)
and the interrupt line (R375, R376). Before them, how a command ends that meets none of the fault conditions (R370).
-/

namespace Sys2Proof.Machine

/-! ## A command that meets a fault condition (R364-R367, R369) -/

theorem width_legal_of_not {d : Width} (h : ¬(d.val = 0 ∨ 12 ≤ d.val)) : 1 ≤ d.val ∧ d.val ≤ 11 := by omega

theorem not_quantLegal {d : Width} (h : d.val = 0 ∨ 12 ≤ d.val) : ¬quantLegal d = true := by
  rw [quantLegal_iff]
  omega

/-- R364: BAD_FIELD is checked before everything else. -/
theorem exec_of_badField {i : Instr} (h : badFieldOf i) (s : State) : exec i s = .next (s.takeFault .badField) := by
  cases i with
  | fli rd v => exact congrArg _ (if_pos h)
  | fcomp rd ra d | fdecomp rd ra d => exact congrArg _ (if_neg (not_quantLegal h))
  | pcomp pd pa d | pdecomp pd pa d => exact congrArg _ (if_neg (not_quantLegal h))
  | fbct ra rb rz | fbgs ra rb rz => exact congrArg _ (if_pos h)
  | cbd pd eta n blk => exact congrArg _ (if_neg (by rw [etaLegal_iff]; exact not_or.2 h))
  | penc pa d blk | pdec pd d blk t => exact congrArg Host.Outcome.next (packResult_of_illegal h _ _)
  | _ => exact False.elim h

/-- R365: every macro command is a `runMacro`, and LEVEL 3 has no row. -/
theorem exec_of_badLevel {i : Instr} {s : State} (hm : i ∈ macroCommands) (hl : s.latchedLevel = 3) :
    exec i s = .next (s.takeFault .badLevel) := by
  simp only [macroCommands, List.mem_cons, List.not_mem_nil, or_false] at hm
  rcases hm with rfl | rfl | rfl | rfl | rfl | rfl <;> exact congrArg Host.Outcome.next (runMacro_badLevel hl)

/-- R366: a legal width whose bytes pass the end of BUF. -/
theorem exec_of_bufRange {i : Instr} (hf : ¬badFieldOf i) (hr : bufRangeOf i) (s : State) :
    exec i s = .next (s.takeFault .bufRange) := by
  cases i with
  | penc pa d blk | pdec pd d blk t =>
    simp only [badFieldOf, bufRangeOf] at hf hr
    exact congrArg Host.Outcome.next (packResult_of_not_fits (by omega) (by omega) _ _)
  | _ => exact False.elim hr

/-- R367: a command with a tag requirement is a `slotResult` behind it; the quantizers check their width first. -/
theorem exec_of_domainMismatch {i : Instr} {s : State} (hf : ¬badFieldOf i) (hd : domainMismatchOf s i) :
    exec i s = .next (s.takeFault .domainMismatch) := by
  cases i with
  | padd pd pa pb | psub pd pa pb => exact exec_domainMismatch rfl hd
  | pntt pd pa | pintt pd pa => exact exec_domainMismatch rfl hd
  | pbmul pd pa pb | pbmac pd pa pb => exact exec_domainMismatch rfl hd
  | pcomp pd pa d => exact exec_domainMismatch (exec_pcomp_of_legal (width_legal_of_not hf) pd pa s) hd
  | pdecomp pd pa d => exact exec_domainMismatch (exec_pdecomp_of_legal (width_legal_of_not hf) pd pa s) hd
  | _ => exact False.elim hd

/-! ## A command that meets none of them (R370) -/

/-- A command whose unit step may end before the command does (R252, R411; log entry 2). -/
def MayWait (i : Instr) : Prop :=
  (∃ rd, i = .frand rd) ∨ (∃ pd x y blk, i = .parse pd x y blk) ∨ (i ∈ macroCommands ∧ i ≠ .pkeDec)

/-- The command completes, whatever stores it writes, or waits with nothing changed but the model's count. -/
def EndsWithoutFault (i : Instr) (s : State) : Prop :=
  ∃ t, exec i s = .next t ∧
    (Frame (List.finRange 16) (List.finRange 16) (fun _ => True) s t ∨ (t = s.keepBusy ∧ MayWait i))

/-- `t` differs from `s` in BUF and the random source's position alone. -/
def BufChange (s t : State) : Prop := ∃ m n, t = { s with buf := m, randPos := n }

section Ends

variable {i : Instr} {s u : State}

/-- A completed command, whatever its frame. -/
theorem endsWithoutFault_of_frame {r : List FReg} {p : List Slot} {b : Nat → Prop} {t : State} (he : exec i s = .next t)
    (h : Frame r p b s t) : EndsWithoutFault i s :=
  ⟨t, he, .inl (h.mono (fun j _ => List.mem_finRange j) (fun j _ => List.mem_finRange j) fun _ _ => trivial)⟩

theorem endsWithoutFault_of_keepBusy (he : exec i s = .next s.keepBusy) (hw : MayWait i) : EndsWithoutFault i s :=
  ⟨_, he, .inr ⟨rfl, hw⟩⟩

/-- A completed command that writes the stores, EQ and the random source's position alone. -/
theorem endsWithoutFault_of_complete (he : exec i s = .next u.complete)
    (hu : u = { s with
      eqFlag := u.eqFlag, tags := u.tags, fregs := u.fregs, slots := u.slots, buf := u.buf, scratch := u.scratch,
      randPos := u.randPos }) : EndsWithoutFault i s :=
  ⟨_, he, .inl (frame_complete hu (fun j hj => absurd (List.mem_finRange j) hj)
    (fun j hj => absurd (List.mem_finRange j) hj) fun _ ha => absurd trivial ha)⟩

/-- A butterfly on two registers. -/
theorem endsWithoutFault_of_butterflyResult {ra rb : FReg} {x y : Nat}
    (he : exec i s = .next (butterflyResult ra rb x y s)) (hne : ra ≠ rb) : EndsWithoutFault i s := by
  obtain ⟨hframe, -⟩ := butterflyResult_writes hne x y s
  exact endsWithoutFault_of_frame he hframe

/-- A slot command whose tags are as it requires. -/
theorem endsWithoutFault_of_slotResult {c : Prop} [Decidable c] {pd : Slot} {f : Coeffs} {t : Tag}
    (he : exec i s = .next (slotResult (decide c) pd f t s)) (hc : ¬¬c) : EndsWithoutFault i s := by
  rw [decide_eq_true (not_not.1 hc)] at he
  exact endsWithoutFault_of_complete he rfl

theorem bufChange_writeBuf (h : BufChange s u) (a : Nat) (bs : List Byte) : BufChange s (u.writeBuf a bs) := by
  obtain ⟨m, n, rfl⟩ := h
  exact ⟨_, _, rfl⟩

theorem bufChange_keepDraws (s : State) (a : Nat) (bs : List Byte) : BufChange s (s.keepDraws a bs) := by
  unfold State.keepDraws
  split
  · exact ⟨_, _, rfl⟩
  · exact ⟨_, _, rfl⟩

/-- The body of a macro command that writes its results, once they are there. -/
theorem bufChange_of_map {α : Type} {o : Option α} {f : α → State} (hf : ∀ a, BufChange s (f a))
    (h : o.map f = some u) : BufChange s u := by
  obtain ⟨a, -, rfl⟩ := Option.map_eq_some_iff.1 h
  exact hf a

/-- A macro command that has written its results. -/
theorem endsWithoutFault_of_bufChange (he : exec i s = .next u.clearScratch.complete) (h : BufChange s u) :
    EndsWithoutFault i s := by
  obtain ⟨m, n, rfl⟩ := h
  exact endsWithoutFault_of_complete he rfl

/-- A macro command at a level with a row whose body writes BUF alone. -/
theorem endsWithoutFault_of_runMacro {body : LevelParams → Option State} (he : exec i s = .next (runMacro s body))
    (hm : i ∈ macroCommands) (hne : i ≠ .pkeDec) (hl : ¬(i ∈ macroCommands ∧ s.latchedLevel = 3))
    (hbody : ∀ lp u, body lp = some u → BufChange s u) : EndsWithoutFault i s := by
  obtain ⟨hnone, -⟩ | ⟨lp, -, ⟨-, hbusy⟩ | ⟨u, hu, hdone⟩⟩ := runMacro_cases s body
  · exact absurd ⟨hm, (levelParams_eq_none _).1 hnone⟩ hl
  · exact endsWithoutFault_of_keepBusy (hbusy ▸ he) (.inr (.inr ⟨hm, hne⟩))
  · exact endsWithoutFault_of_bufChange (hdone ▸ he) (hbody lp u hu)

end Ends

/-- PKE_DEC at a level with a row always completes (R297). -/
theorem pkeDec_endsWithoutFault {s : State} (hl : s.latchedLevel ≠ 3) : EndsWithoutFault .pkeDec s := by
  obtain ⟨lp, hlp⟩ := Option.ne_none_iff_exists'.1 (mt (levelParams_eq_none _).1 hl)
  exact endsWithoutFault_of_bufChange (pkeDec_writes_msg hlp) ⟨_, _, rfl⟩

/-- R370: with none of the fault conditions a command completes, or waits. -/
theorem exec_endsWithoutFault {i : Instr} {s : State} (hf : ¬badFieldOf i)
    (hl : ¬(i ∈ macroCommands ∧ s.latchedLevel = 3)) (hr : ¬bufRangeOf i) (hd : ¬domainMismatchOf s i) :
    EndsWithoutFault i s := by
  cases i with
  | nop | zeroize => exact endsWithoutFault_of_complete rfl rfl
  | fadd | fsub | fneg | fmul | finv | fdiv | fpow => exact endsWithoutFault_of_complete rfl rfl
  | feq | fmov | ftom | ffromm | fld | fst => exact endsWithoutFault_of_complete rfl rfl
  | pcopy | pzero | pscale => exact endsWithoutFault_of_complete rfl rfl
  | fli rd v => exact endsWithoutFault_of_complete (congrArg _ (if_neg hf)) rfl
  | fcomp rd ra d | fdecomp rd ra d =>
    exact endsWithoutFault_of_complete (congrArg _ (if_pos ((quantLegal_iff d).2 (width_legal_of_not hf)))) rfl
  | fbct ra rb rz | fbgs ra rb rz => exact endsWithoutFault_of_butterflyResult rfl hf
  | frand rd =>
    obtain ⟨c, p, -, -, hdone⟩ | ⟨-, hbusy⟩ := frandFrom_cases Config.randStream rd s
    · exact endsWithoutFault_of_complete (congrArg Host.Outcome.next hdone) rfl
    · exact endsWithoutFault_of_keepBusy (congrArg Host.Outcome.next hbusy) (.inl ⟨rd, rfl⟩)
  | padd pd pa pb | psub pd pa pb => exact endsWithoutFault_of_slotResult rfl hd
  | pntt pd pa | pintt pd pa => exact endsWithoutFault_of_slotResult rfl hd
  | pbmul pd pa pb | pbmac pd pa pb => exact endsWithoutFault_of_slotResult rfl hd
  | pcomp pd pa d => exact endsWithoutFault_of_slotResult (exec_pcomp_of_legal (width_legal_of_not hf) pd pa s) hd
  | pdecomp pd pa d => exact endsWithoutFault_of_slotResult (exec_pdecomp_of_legal (width_legal_of_not hf) pd pa s) hd
  | parse pd x y blk =>
    obtain ⟨f, -, -, hdone⟩ | ⟨-, hbusy⟩ := parseWith_cases Config.collab pd x y blk s
    · exact endsWithoutFault_of_complete (congrArg Host.Outcome.next hdone) rfl
    · exact endsWithoutFault_of_keepBusy (congrArg Host.Outcome.next hbusy) (.inr (.inl ⟨pd, x, y, blk, rfl⟩))
  | cbd pd eta n blk =>
    simp only [badFieldOf] at hf
    exact endsWithoutFault_of_complete (congrArg _ (if_pos ((etaLegal_iff eta).2 (by omega)))) rfl
  | penc pa d blk | pdec pd d blk t =>
    simp only [badFieldOf, bufRangeOf] at hf hr
    exact endsWithoutFault_of_complete
      (congrArg Host.Outcome.next (packResult_of_fits (by omega) (by omega) _ _)) rfl
  | pkeDec => exact pkeDec_endsWithoutFault fun h => hl ⟨by decide, h⟩
  | pkeKeygen | pkeEnc | kemDecaps =>
    exact endsWithoutFault_of_runMacro rfl (by decide) (by decide) hl fun _ _ =>
      bufChange_of_map fun _ => ⟨_, _, rfl⟩
  | kemKeygen | kemEncaps =>
    refine endsWithoutFault_of_runMacro rfl (by decide) (by decide) hl fun lp u hu => ?_
    split at hu
    · cases hu
    · exact bufChange_of_map (fun _ => bufChange_writeBuf (bufChange_writeBuf (bufChange_keepDraws s _ _) _ _) _ _) hu

/-- Settles O45: the four faults by the lemmas above, and otherwise `exec_endsWithoutFault`, whose two ends both keep the
report. -/
theorem faultConditionsAndPriority : Obligations.FaultConditionsAndPriority := by
  intro i s
  refine ⟨fun hf => exec_of_badField hf s, fun _ hm hl => exec_of_badLevel hm hl, fun hf hr => exec_of_bufRange hf hr s,
    exec_of_domainMismatch, fun hf hl hr hd => ?_⟩
  obtain ⟨t, he, hframe | ⟨rfl, -⟩⟩ := exec_endsWithoutFault hf hl hr hd
  · exact ⟨t, he, hframe.err, hframe.errcode, hframe.errcmd⟩
  · exact ⟨_, he, s.keepBusy_err, s.keepBusy_errcode, s.keepBusy_errcmd⟩

/-! ## Fault entry (R368) -/

theorem cmdWord_of_running {s : State} {p : Pending} (h : s.phase = .running p) : s.cmdWord = p.cmd := by
  rw [State.cmdWord, h]

theorem hostRead_errcode (s : State) : s.hostRead 0x0010 = s.errcode.code.setWidth 32 := rfl

theorem hostRead_errcmd (s : State) : s.hostRead 0x0014 = s.errcmd := rfl

/-- After fault entry ERRCODE reads the cause's code (R361). -/
theorem hostRead_errcode_takeFault (s : State) (code : FaultCode) :
    (s.takeFault code).hostRead 0x0010 = code.code.setWidth 32 := by
  rw [hostRead_errcode, State.takeFault_errcode]

/-- Settles O44: the report is read off `takeFault`, whose ERRCMD is the running word. -/
theorem faultEntryWritesTheReport : Obligations.FaultEntryWritesTheReport := by
  intro s p code hp t
  have hcmd : t.errcmd = p.cmd := cmdWord_of_running hp
  have hcode := hostRead_errcode_takeFault s
  exact ⟨rfl, rfl, hcmd, rfl, rfl, rfl, (hostRead_errcmd t).trans hcmd, hcode _, hcode _, hcode _, hcode _, hcode _,
    hcode _⟩

/-! ## The interrupt line (R375, R376) -/

theorem irq_iff (s : State) : s.irq = true ↔ (s.done = true ∧ s.doneIE = true) ∨ (s.err = true ∧ s.errIE = true) := by
  rw [State.irq, Bool.or_eq_true, Bool.and_eq_true, Bool.and_eq_true]

/-- With nothing pending the line is low, whatever the enables. -/
theorem irq_of_not_pending {s : State} (hd : s.done = false) (he : s.err = false) : s.irq = false := by
  rw [State.irq, hd, he]
  rfl

theorem hostWrite_status (s : State) (d : Word) : s.hostWrite 0x0008 d = s.writeStatus d := rfl

theorem hostWrite_irqen (s : State) (d : Word) : s.hostWrite 0x001C d = s.writeIrqen d := rfl

/-- Writing 1 to STATUS.DONE and STATUS.ERR clears both (R33). -/
theorem writeStatus_clears_done_err (s : State) :
    (s.writeStatus 0x00000006).done = false ∧ (s.writeStatus 0x00000006).err = false := by
  have hdone : (0x00000006 : Word).getLsbD 1 = true := by decide
  have herr : (0x00000006 : Word).getLsbD 2 = true := by decide
  rw [State.writeStatus_done, State.writeStatus_err, hdone, herr]
  exact ⟨Bool.and_false _, Bool.and_false _⟩

/-- Settles O48: each event by what it leaves in DONE and ERR, and an IRQEN write by the enables it stores. -/
theorem interruptLine : Obligations.InterruptLine := by
  intro s d w code
  refine ⟨irq_iff s, fun h => ⟨?_, ?_⟩, fun h => ?_, ?_, fun hb he => ?_, ?_⟩
  · exact (irq_iff _).2 (.inl ⟨s.complete_done, h⟩)
  · exact (irq_iff _).2 (.inl ⟨s.takeFault_done code, h⟩)
  · exact (irq_iff _).2 (.inr ⟨s.takeFault_err code, h⟩)
  · obtain ⟨hdone, herr⟩ := writeStatus_clears_done_err s
    rw [hostWrite_status, irq_of_not_pending hdone herr]
  · rw [hostWrite_cmd, writeCmd_accepted w hb he]
    exact irq_of_not_pending rfl he
  · rw [hostWrite_irqen, State.irq, State.writeIrqen_done, State.writeIrqen_err, State.writeIrqen_doneIE,
      State.writeIrqen_errIE]

end Sys2Proof.Machine

/-!
PROOFS of statements of 70_reset_and_hazards.md: host accesses while BUSY = 1 (R406, R407). Before them, the data windows of
the address map, and once what a host write with BUSY = 1 can do.
-/

namespace Sys2Proof.Machine

/-! ## The data windows (R49) -/

/-- The targets R49 closes while BUSY = 1, to reads and to writes: TAG, the field registers, the slots and BUF. -/
def Target.isData : Target → Bool
  | .tag | .freg _ | .slotWord _ _ | .buf _ => true
  | _ => false

/-- The targets a write to which R49 drops while BUSY = 1: the data windows and CTRL. -/
def Target.dropsWrite (t : Target) : Bool := t.isData || t = .ctrl

section BusyAccess

variable {s : State} {a : HostAddr}

/-- R407: a read of a data window returns 0. -/
theorem hostRead_data_of_busy (ha : (addressMap a).isData = true) (hb : s.busy = true) : s.hostRead a = 0 := by
  unfold State.hostRead
  generalize addressMap a = t at ha ⊢
  cases t with
  | tag | freg | slotWord | buf => exact if_pos hb
  | id | ctrl | status | cmd | errcode | errcmd | cmdcnt | irqen | unmapped => cases ha

/-- R407: a write to a data window or to CTRL is dropped and reported. -/
theorem hostWrite_dropped_of_busy (ha : (addressMap a).dropsWrite = true) (hb : s.busy = true) (d : Word) :
    s.hostWrite a d = s.dropWrite := by
  unfold State.hostWrite
  generalize addressMap a = t at ha ⊢
  cases t with
  | ctrl | tag | freg | slotWord | buf => exact if_pos hb
  | id | status | cmd | errcode | errcmd | cmdcnt | irqen | unmapped => cases ha

/-- A data window read and written with BUSY = 1. -/
theorem dataAccess_of_busy (ha : (addressMap a).isData = true) (hb : s.busy = true) (d : Word) :
    s.hostRead a = 0 ∧ s.hostWrite a d = s.dropWrite :=
  ⟨hostRead_data_of_busy ha hb, hostWrite_dropped_of_busy (Bool.or_eq_true_iff.2 (.inl ha)) hb d⟩

/-! ## Every host write with BUSY = 1 (R406) -/

/-- What a host write with BUSY = 1 can do: nothing, a report in BUSYACC or CMDREJ, or a write of STATUS or IRQEN. -/
theorem hostWrite_cases_of_busy (hb : s.busy = true) (a : HostAddr) (d : Word) :
    s.hostWrite a d = s ∨ s.hostWrite a d = s.dropWrite ∨ s.hostWrite a d = { s with cmdrej := true } ∨
    s.hostWrite a d = s.writeStatus d ∨ s.hostWrite a d = s.writeIrqen d := by
  by_cases hdrop : (addressMap a).dropsWrite = true
  · exact .inr (.inl (hostWrite_dropped_of_busy hdrop hb d))
  · unfold State.hostWrite
    generalize addressMap a = t at hdrop ⊢
    cases t with
    | id | errcode | errcmd | cmdcnt | unmapped => exact .inl rfl
    | cmd => exact .inr (.inr (.inl (writeCmd_rejected d (.inl hb))))
    | status => exact .inr (.inr (.inr (.inl rfl)))
    | irqen => exact .inr (.inr (.inr (.inr rfl)))
    | ctrl | tag | freg | slotWord | buf => exact absurd rfl hdrop

end BusyAccess

/-- `t` is `s` but for STATUS's W1C bits and IRQEN. -/
def SameButStatusBits (s t : State) : Prop :=
  t = { s with
    done := t.done, err := t.err, cmdrej := t.cmdrej, busyacc := t.busyacc, badval := t.badval
    doneIE := t.doneIE, errIE := t.errIE }

/-- A STATUS write moves W1C bits alone, with the ERR bit or without it (R33). -/
theorem sameButStatusBits_writeStatus (s : State) (d : Word) : SameButStatusBits s (s.writeStatus d) := by
  unfold SameButStatusBits State.writeStatus
  split <;> rfl

theorem sameButStatusBits_hostWrite {s : State} (hb : s.busy = true) (a : HostAddr) (d : Word) :
    SameButStatusBits s (s.hostWrite a d) := by
  obtain h | h | h | h | h := hostWrite_cases_of_busy hb a d <;> rw [h]
  · rfl
  · rfl
  · rfl
  · exact sameButStatusBits_writeStatus s d
  · rfl

/-- Settles O50: CMD and CTRL by their own rules, each data window by its place in the address map and `dataAccess_of_busy`,
and every other write by `sameButStatusBits_hostWrite`. -/
theorem busyPhaseAccesses : Obligations.BusyPhaseAccesses := by
  intro s d i j n addr hb
  have hcmd := writeCmd_rejected d (.inl hb)
  have hctrl := hostWrite_dropped_of_busy (a := 0x0004) rfl hb d
  obtain ⟨rtag, wtag⟩ := dataAccess_of_busy (a := 0x0020) rfl hb d
  obtain ⟨rfreg, wfreg⟩ := dataAccess_of_busy (congrArg Target.isData (addressMap_freg i 0)) hb d
  obtain ⟨rslot, wslot⟩ := dataAccess_of_busy (congrArg Target.isData (addressMap_slotWord i j 0)) hb d
  obtain ⟨rbuf, wbuf⟩ := dataAccess_of_busy (congrArg Target.isData (addressMap_buf n 0)) hb d
  exact ⟨hcmd, hctrl, rtag, wtag, rfreg, wfreg, rslot, wslot, rbuf, wbuf, sameButStatusBits_hostWrite hb addr d⟩

end Sys2Proof.Machine

/-!
PROOF of the statement of 30_encoding.md that the encoder and the decoder are inverse (R111-R116): `decode_encode` is one way
round; for the other, a word that is a command is rebuilt from its opcode and the columns of its format, and the encoder
rebuilds it so.
-/

namespace Sys2Proof.Machine

/-- The word made of an opcode and the columns of `w` that the format does not reserve (R112). -/
def Format.rebuild (op : Nat) (w : Word) : Format → Word
  | .n => packWord op 0 0 0 0
  | .r3 | .qz | .bf | .p3 | .pf | .pq => packWord op (fieldA w) (fieldB w) (fieldC w) 0
  | .r2 | .p2 => packWord op (fieldA w) (fieldB w) 0 0
  | .rc => packWord op 0 (fieldB w) (fieldC w) 0
  | .r1 => packWord op (fieldA w) 0 0 0
  | .i12 => packWord op (fieldA w) (fieldB w) 0 (fieldImm12 w)
  | .li => packWord op (fieldA w) 0 0 (fieldImm12 w)
  | .m | .ms | .se => packWord op (fieldA w) (fieldB w) 0 (fieldLow8 w)
  | .pt => packWord op (fieldA w) 0 0 ((fieldT w).bit * 2 ^ 13)
  | .sp => packWord op (fieldA w) 0 0 (fieldX w * 2 ^ 20 + fieldY w * 2 ^ 18 + fieldLow8 w)
  | .sc => packWord op (fieldA w) 0 0 (fieldX w * 2 ^ 20 + fieldN w * 2 ^ 12 + fieldLow8 w)
  | .sd => packWord op (fieldA w) (fieldB w) 0 ((fieldT w).bit * 2 ^ 13 + fieldLow8 w)

/-- Every row of the opcode map reads the columns of its format, and the encoder puts them back. -/
theorem encode_read_eq_rebuild (w : Word) : ∀ r ∈ opRows, encode (r.read w) = Format.rebuild r.op w r.format := by
  intro r hr
  fin_cases hr <;> rfl

theorem fieldT_bit (w : Word) : (fieldT w).bit = field w 13 1 := by
  have hlt : field w 13 1 < 2 := Nat.mod_lt _ (by decide)
  rw [fieldT]
  split
  · next h => rw [h]; rfl
  · show 0 = _
    omega

/-- A word is its opcode and its low 26 bits. -/
theorem packWord_opField {w : Word} {a b c l : Nat} (h : a * 2 ^ 22 + b * 2 ^ 18 + c * 2 ^ 14 + l = w.toNat % 2 ^ 26) :
    packWord (opField w) a b c l = w := by
  have hw := w.isLt
  apply BitVec.eq_of_toNat_eq
  simp only [packWord, opField, field, BitVec.toNat_ofNat]
  omega

/-- With the reserved columns 0, a word is its opcode and the other columns. -/
theorem rebuild_eq {w : Word} {f : Format} (hz : w &&& f.zeroMask = 0) : Format.rebuild (opField w) w f = w := by
  rw [maskClear_iff] at hz
  cases f with
  | n =>
    have hlow : field w 0 26 = 0 := hz (0, 26) List.mem_cons_self
    rw [field, Nat.pow_zero, Nat.div_one] at hlow
    exact packWord_opField hlow.symm
  | _ =>
    refine packWord_opField ?_
    simp only [Format.reserved, List.forall_mem_cons, List.not_mem_nil, false_implies, implies_true, and_true, field] at hz
    simp only [fieldA, fieldB, fieldC, fieldImm12, fieldLow8, fieldX, fieldY, fieldN, fieldT_bit, field]
    omega

theorem encode_of_decode {w : Word} {i : Instr} (h : decode w = .command i) : encode i = w := by
  obtain ⟨-, hd⟩ | ⟨r, hr, hop, ⟨-, hd⟩ | ⟨hz, hd⟩⟩ := decode_cases w
  · simp [h] at hd
  · simp [h] at hd
  · have hi : i = r.read w := Decoded.command.inj (h.symm.trans hd)
    rw [hi, encode_read_eq_rebuild w r hr, ← hop, rebuild_eq hz]

/-- Settles O1: `decode_encode` and `encode_of_decode`. -/
theorem encodeAndDecodeAgree : Obligations.EncodeAndDecodeAgree :=
  ⟨decode_encode, fun _ _ => encode_of_decode⟩

end Sys2Proof.Machine

/-!
PROOFS of statements of 60_exceptions.md: that faults are precise (R370), that they depend on no secret (R378), and the way out
of the fault state (R371-R373). The first two rest on one dichotomy: a command takes one fault in every state with the same
LEVEL and tags, or it ends without a fault.
-/

namespace Sys2Proof.Machine

/-! ## Which of its ends a command takes (R364-R367, R370) -/

/-- The tag requirements of R201 are about the tags alone. -/
theorem domainMismatchOf_congr {s s' : State} (htag : ∀ p, s.tag p = s'.tag p) (i : Instr) :
    domainMismatchOf s i ↔ domainMismatchOf s' i := by
  cases i <;> simp only [domainMismatchOf, htag]

/-- A command takes one and the same fault in every state with this latched LEVEL and these tags, or ends without one. -/
theorem exec_fault_or_ends (i : Instr) (s : State) :
    (∃ code, code ≠ .noFault ∧ ∀ s' : State, s.latchedLevel = s'.latchedLevel → (∀ p, s.tag p = s'.tag p) →
      exec i s' = .next (s'.takeFault code)) ∨ EndsWithoutFault i s := by
  by_cases hf : badFieldOf i
  · exact .inl ⟨.badField, by decide, fun s' _ _ => exec_of_badField hf s'⟩
  by_cases hl : i ∈ macroCommands ∧ s.latchedLevel = 3
  · exact .inl ⟨.badLevel, by decide, fun s' hlevel _ => exec_of_badLevel hl.1 (hlevel ▸ hl.2)⟩
  by_cases hr : bufRangeOf i
  · exact .inl ⟨.bufRange, by decide, fun s' _ _ => exec_of_bufRange hf hr s'⟩
  by_cases hd : domainMismatchOf s i
  · exact .inl ⟨.domainMismatch, by decide, fun s' _ htag =>
      exec_of_domainMismatch hf ((domainMismatchOf_congr htag i).1 hd)⟩
  exact .inr (exec_endsWithoutFault hf hl hr hd)

/-- Settles O43: the two sides of `exec_fault_or_ends`, the second of which is a completion or a wait. -/
theorem faultsArePrecise : Obligations.FaultsArePrecise := by
  intro i s
  obtain ⟨code, hcode, hfault⟩ | ⟨t, he, hframe | hwait⟩ := exec_fault_or_ends i s
  · exact ⟨_, hfault s rfl fun _ => rfl, .inr (.inl ⟨code, hcode, rfl⟩)⟩
  · exact ⟨t, he, .inl hframe⟩
  · exact ⟨t, he, .inr (.inr hwait)⟩

/-! ## Faults and secrets (R378) -/

theorem phase_keepBusy_of_running {s : State} {p : Pending} (h : s.phase = .running p) :
    s.keepBusy.phase = .running { p with attempt := p.attempt + 1 } := by
  rw [State.keepBusy, h]

/-- A command that ends without a fault does not end as a fault would: a completion is counted in CMDCNT, and a command that
waits is still running. -/
theorem exec_ne_takeFault {i : Instr} {s : State} (h : EndsWithoutFault i s) (hs : s.Running) (code : FaultCode) :
    exec i s ≠ .next (s.takeFault code) := by
  obtain ⟨p, hp⟩ := hs
  obtain ⟨t, he, hframe | ⟨rfl, -⟩⟩ := h
  · intro hfault
    have ht : t = s.takeFault code := Host.Outcome.next.inj (he.symm.trans hfault)
    have hcnt : s.cmdcnt = s.cmdcnt + 1 := by rw [← hframe.cmdcnt, ht, State.takeFault_cmdcnt]
    exact absurd (left_eq_add.1 hcnt) (by decide)
  · intro hfault
    have ht : s.keepBusy = s.takeFault code := Host.Outcome.next.inj (he.symm.trans hfault)
    have hphase := congrArg State.phase ht
    rw [phase_keepBusy_of_running hp, State.takeFault_phase] at hphase
    cases hphase

theorem takeFault_inj {s : State} {code code' : FaultCode} (h : s.takeFault code = s.takeFault code') : code = code' :=
  congrArg State.errcode h

/-- A fault taken in one running state is taken in every state with the same latched LEVEL and tags. -/
theorem takesFault_of_same_level_and_tags {i : Instr} {s s' : State} {code : FaultCode} (hs : s.Running)
    (hlevel : s.latchedLevel = s'.latchedLevel) (htag : ∀ p, s.tag p = s'.tag p)
    (h : exec i s = .next (s.takeFault code)) : exec i s' = .next (s'.takeFault code) := by
  obtain ⟨code', -, hfault⟩ | hends := exec_fault_or_ends i s
  · have hself := hfault s rfl fun _ => rfl
    have hcode : code = code' := takeFault_inj (Host.Outcome.next.inj (h.symm.trans hself))
    exact hcode ▸ hfault s' hlevel htag
  · exact absurd h (exec_ne_takeFault hends hs code)

/-- Settles O46: `takesFault_of_same_level_and_tags` in both directions. -/
theorem faultsDependOnNoSecret : Obligations.FaultsDependOnNoSecret := by
  intro i s s' code hs hs' hlevel htag
  exact ⟨takesFault_of_same_level_and_tags hs hlevel htag,
    takesFault_of_same_level_and_tags hs' hlevel.symm fun p => (htag p).symm⟩

/-! ## The fault state (R371-R373) -/

/-- Settles O47: a CMD write is rejected while ERR = 1, and accepted once a STATUS write has cleared it. -/
theorem faultStateBlocksCommandsUntilCleared : Obligations.FaultStateBlocksCommandsUntilCleared := by
  intro s w d herr
  refine ⟨?_, fun hd hb => ?_, fun hd => ?_⟩
  · rw [hostWrite_cmd, writeCmd_rejected w (.inr herr)]
  · have hclear : (s.writeStatus d).err = false := by rw [State.writeStatus_err, hd, Bool.not_true, Bool.and_false]
    have hidle : (s.writeStatus d).busy = false := by rw [State.writeStatus_busy, hb]
    rw [hostWrite_status, hostWrite_cmd, writeCmd_accepted w hidle hclear, State.accept, State.writeStatus_level,
      State.writeStatus_detrng]
    exact ⟨hclear, State.writeStatus_errcode s d, State.writeStatus_errcmd s d, rfl⟩
  · rw [hostWrite_status, State.writeStatus_err, herr, hd]
    rfl

end Sys2Proof.Machine

/-!
PROOFS of the statements about the invariant: it holds at reset (R54), and every step keeps it. It falls into what it says of
the stores, kept by each operation that writes one, and what it says of the unit's control state, kept by each end of a command
and each host access.
-/

namespace Sys2Proof.Machine

/-! ## The stores: words below q, BUF canonical, the scratch zero (R39, R42, R46, R50) -/

/-- What the invariant says of the stores. -/
structure State.StoresInv (s : State) : Prop where
  fregs   : ∀ i, Canonical (s.freg i)
  slots   : ∀ p j, Canonical (s.slotWord p j)
  buf     : s.buf.wf = true
  scratch : s.scratch = []

section Stores

variable {s : State}

/-- Only the four stores matter. -/
theorem State.StoresInv.congr {t : State} (h : s.StoresInv) (hf : t.fregs = s.fregs) (hs : t.slots = s.slots)
    (hb : t.buf = s.buf) (hz : t.scratch = s.scratch) : t.StoresInv where
  fregs i := by rw [State.freg, hf]; exact h.fregs i
  slots p j := by rw [State.slotWord, State.slot, hs]; exact h.slots p j
  buf := by rw [hb]; exact h.buf
  scratch := by rw [hz]; exact h.scratch

theorem State.StoresInv.complete (h : s.StoresInv) : s.complete.StoresInv := h.congr rfl rfl rfl rfl

theorem State.StoresInv.takeFault (h : s.StoresInv) (code : FaultCode) : (s.takeFault code).StoresInv :=
  h.congr rfl rfl rfl rfl

theorem State.StoresInv.keepBusy (h : s.StoresInv) : s.keepBusy.StoresInv :=
  h.congr s.keepBusy_fregs s.keepBusy_slots s.keepBusy_buf s.keepBusy_scratch

theorem State.StoresInv.setFreg (h : s.StoresInv) (i : FReg) {w : Raw} (hw : Canonical w) : (s.setFreg i w).StoresInv where
  fregs j := by
    rw [State.setFreg_freg]
    split
    · exact hw
    · exact h.fregs j
  slots := h.slots
  buf := h.buf
  scratch := h.scratch

theorem State.StoresInv.setFval (h : s.StoresInv) (i : FReg) (a : Nat) : (s.setFval i a).StoresInv :=
  h.setFreg i (mont_canonical a)

theorem State.StoresInv.setSlot (h : s.StoresInv) (p : Slot) {f : Poly} (t : Tag) (hf : ∀ j : Fin 256, Canonical f[j.val]) :
    (s.setSlot p f t).StoresInv where
  fregs := h.fregs
  slots p' j := by
    rw [State.slotWord, State.setSlot_slot]
    split
    · exact hf j
    · exact h.slots p' j
  buf := h.buf
  scratch := h.scratch

theorem State.StoresInv.setSlotVals (h : s.StoresInv) (p : Slot) (f : Coeffs) (t : Tag) :
    (s.setSlotVals p f t).StoresInv :=
  h.setSlot p t fun j => by rw [polyMont_getElem f j.isLt]; exact mont_canonical _

theorem State.StoresInv.setSlotWord (h : s.StoresInv) (p : Slot) (j : Fin 256) {w : Raw} (hw : Canonical w) :
    (s.setSlotWord p j w).StoresInv where
  fregs := h.fregs
  slots p' j' := by
    rw [State.setSlotWord_slotWord]
    split
    · exact hw
    · exact h.slots p' j'
  buf := h.buf
  scratch := h.scratch

theorem State.StoresInv.writeBuf (h : s.StoresInv) {a : Nat} {bs : List Byte} (ha : a + bs.length ≤ Config.bufBytes) :
    (s.writeBuf a bs).StoresInv where
  fregs := h.fregs
  slots := h.slots
  buf := Memory.wf_writeBytes s.buf a bs h.buf ha
  scratch := h.scratch

theorem State.StoresInv.clearScratch (h : s.StoresInv) : s.clearScratch.StoresInv where
  fregs := h.fregs
  slots := h.slots
  buf := h.buf
  scratch := rfl

theorem State.StoresInv.keepDraws (h : s.StoresInv) {a : Nat} {bs : List Byte} (ha : a + bs.length ≤ Config.bufBytes) :
    (s.keepDraws a bs).StoresInv := by
  rw [State.keepDraws]
  split
  · exact h
  · exact (h.writeBuf ha).congr rfl rfl rfl rfl

theorem storesInv_reset : State.reset.StoresInv where
  fregs i := by rw [reset_freg]; exact (by decide : (0 : Raw).toNat < q)
  slots p j := by rw [reset_slotWord]; exact (by decide : (0 : Raw).toNat < q)
  buf := rfl
  scratch := rfl

/-! ## The commands keep the stores' part -/

theorem State.StoresInv.butterflyResult (h : s.StoresInv) (ra rb : FReg) (x y : Nat) :
    (butterflyResult ra rb x y s).StoresInv := by
  rw [Machine.butterflyResult]
  split
  · exact h.takeFault _
  · exact ((h.setFval ra x).setFval rb y).complete

theorem State.StoresInv.slotResult (h : s.StoresInv) (ok : Bool) (pd : Slot) (f : Coeffs) (t : Tag) :
    (slotResult ok pd f t s).StoresInv := by
  rw [Machine.slotResult]
  split
  · exact (h.setSlotVals pd f t).complete
  · exact h.takeFault _

/-- The result of a byte packer has to keep it only where the bytes lie inside BUF. -/
theorem State.StoresInv.packResult {d : Width} {blk : Blk} {t : State} (h : s.StoresInv)
    (ht : blk.val + d.val ≤ 256 → t.StoresInv) : (packResult d blk s t).StoresInv := by
  rw [Machine.packResult]
  split
  · split
    · next hfit => exact (ht ((packFits_iff d blk).1 hfit)).complete
    · exact h.takeFault _
  · exact h.takeFault _

/-- A macro command keeps it if what its body writes does, at a level with a row. -/
theorem State.StoresInv.runMacro {body : LevelParams → Option State} (h : s.StoresInv)
    (hbody : ∀ lp u, levelParams s.latchedLevel = some lp → body lp = some u → u.StoresInv) :
    (runMacro s body).StoresInv := by
  obtain ⟨-, he⟩ | ⟨lp, hlp, ⟨-, he⟩ | ⟨u, hu, he⟩⟩ := runMacro_cases s body <;> rw [he]
  · exact h.takeFault _
  · exact h.keepBusy
  · exact (hbody lp u hlp hu).clearScratch.complete

/-! The byte strings of the macro commands lie inside BUF (R11, R12, R47). -/

theorem pkeKeygenWith_storesInv (c : Collab) (h : s.StoresInv) : (pkeKeygenWith c s).StoresInv := by
  refine h.runMacro fun lp u hlp hu => ?_
  obtain ⟨hk, -, -⟩ := levelParams_bounds hlp
  obtain ⟨⟨pk, sk⟩, hkey, rfl⟩ := Option.map_eq_some_iff.1 hu
  obtain ⟨hpk, hsk⟩ := pkeKeyGen_length hkey
  refine (h.writeBuf ?_).writeBuf ?_
  · rw [hpk, pkBase, Config.bufBytes]; omega
  · rw [hsk, skBase, Config.bufBytes]; omega

theorem pkeEncWith_storesInv (c : Collab) (h : s.StoresInv) : (pkeEncWith c s).StoresInv := by
  refine h.runMacro fun lp u hlp hu => ?_
  obtain ⟨-, hct, -⟩ := levelParams_bounds hlp
  obtain ⟨ct, henc, rfl⟩ := Option.map_eq_some_iff.1 hu
  refine h.writeBuf ?_
  rw [pkeEncrypt_length henc, ctBase, Config.bufBytes]
  omega

theorem pkeDecState_storesInv (h : s.StoresInv) : (pkeDecState s).StoresInv := by
  refine h.runMacro fun lp u _ hu => ?_
  rw [← Option.some.inj hu]
  refine h.writeBuf ?_
  rw [pkeDecrypt_length, msgBase, Config.bufBytes]
  omega

/-- The bytes a KEM command starts from are as many as it asks for. -/
theorem kemInput_length {rand : Nat → Option Byte} {base n : Nat} {bs : List Byte}
    (h : s.kemInput rand base n = some bs) : bs.length = n := by
  rw [State.kemInput] at h
  split at h
  · rw [← Option.some.inj h, readBuf_length]
  · exact drawBytes_length h

theorem kemKeygenWith_storesInv (c : Collab) (rand : Nat → Option Byte) (h : s.StoresInv) :
    (kemKeygenWith c rand s).StoresInv := by
  refine h.runMacro fun lp u hlp hu => ?_
  obtain ⟨hk, -, -⟩ := levelParams_bounds hlp
  cases hdz : s.kemInput rand seedBase 64 with
  | none => simp [hdz] at hu
  | some dz =>
    rw [hdz] at hu
    obtain ⟨⟨pk, sk⟩, hkey, rfl⟩ := Option.map_eq_some_iff.1 hu
    have hlen := kemInput_length hdz
    obtain ⟨hpk, hsk⟩ := kemKeyGen_length hkey
    rw [List.length_drop, hlen] at hsk
    refine ((h.keepDraws ?_).writeBuf ?_).writeBuf ?_
    · rw [hlen, seedBase, Config.bufBytes]; omega
    · rw [hpk, pkBase, Config.bufBytes]; omega
    · rw [hsk, skBase, Config.bufBytes]; omega

theorem kemEncapsWith_storesInv (c : Collab) (rand : Nat → Option Byte) (h : s.StoresInv) :
    (kemEncapsWith c rand s).StoresInv := by
  refine h.runMacro fun lp u hlp hu => ?_
  obtain ⟨-, hct, -⟩ := levelParams_bounds hlp
  cases hm : s.kemInput rand msgBase 32 with
  | none => simp [hm] at hu
  | some m =>
    rw [hm] at hu
    obtain ⟨⟨ct, ss⟩, henc, rfl⟩ := Option.map_eq_some_iff.1 hu
    obtain ⟨hctlen, hss⟩ := kemEncaps_length henc
    refine ((h.keepDraws ?_).writeBuf ?_).writeBuf ?_
    · rw [kemInput_length hm, msgBase, Config.bufBytes]; omega
    · rw [hctlen, ctBase, Config.bufBytes]; omega
    · rw [hss, ssBase, Config.bufBytes]; omega

theorem kemDecapsWith_storesInv (c : Collab) (h : s.StoresInv) : (kemDecapsWith c s).StoresInv := by
  refine h.runMacro fun lp u _ hu => ?_
  obtain ⟨ss, hdec, rfl⟩ := Option.map_eq_some_iff.1 hu
  refine h.writeBuf ?_
  rw [kemDecaps_length hdec, ssBase, Config.bufBytes]
  omega

/-! FRAND, PARSE and CBD write values below q, or end without a write. -/

theorem frandFrom_storesInv (rand : Nat → Option Byte) (rd : FReg) (h : s.StoresInv) :
    (frandFrom rand rd s).StoresInv := by
  obtain ⟨c, p, -, -, he⟩ | ⟨-, he⟩ := frandFrom_cases rand rd s <;> rw [he]
  · exact (h.setFval rd c).congr rfl rfl rfl rfl
  · exact h.keepBusy

theorem parseWith_storesInv (c : Collab) (pd : Slot) (x y : Fin 4) (blk : Blk) (h : s.StoresInv) :
    (parseWith c pd x y blk s).StoresInv := by
  obtain ⟨f, -, -, he⟩ | ⟨-, he⟩ := parseWith_cases c pd x y blk s <;> rw [he]
  · exact (h.setSlotVals pd f _).complete
  · exact h.keepBusy

theorem cbdWith_storesInv (c : Collab) (pd : Slot) (eta : Fin 4) (n : Fin 256) (blk : Blk) (h : s.StoresInv) :
    (cbdWith c pd eta n blk s).StoresInv := by
  obtain ⟨-, he⟩ | ⟨-, he⟩ := cbdWith_cases c pd eta n blk s <;> rw [he]
  · exact (h.setSlotVals pd _ _).complete
  · exact h.takeFault _

/-- Every command keeps the stores' part of the invariant. -/
theorem execWith_storesInv (i : Instr) (h : s.StoresInv) : (execWith Config.params i s).StoresInv := by
  cases i with
  | nop => exact h.complete
  | zeroize => exact State.StoresInv.congr storesInv_reset rfl rfl rfl rfl
  | fadd rd | fsub rd | fneg rd | fmul rd | finv rd | fdiv rd | fpow rd | ftom rd => exact (h.setFval rd _).complete
  | feq => exact h.congr rfl rfl rfl rfl
  | fli rd v =>
    rw [execWith, fliWith]
    split
    · exact h.takeFault _
    · exact (h.setFval rd _).complete
  | fmov rd ra => exact (h.setFreg rd (h.fregs ra)).complete
  | frand rd => exact frandFrom_storesInv _ rd h
  | ffromm rd ra =>
    have hval : Canonical (BitVec.ofNat 12 (s.fval ra)) := (ofNat_val_toNat (s.freg ra)).trans_lt (val_lt _)
    exact (h.setFreg rd hval).complete
  | fcomp rd ra d =>
    rw [execWith, fcompWith]
    split
    · exact (h.setFval rd _).complete
    · exact h.takeFault _
  | fdecomp rd ra d =>
    rw [execWith, fdecompWith]
    split
    · exact (h.setFval rd _).complete
    · exact h.takeFault _
  | fbct ra rb rz | fbgs ra rb rz => exact h.butterflyResult ra rb _ _
  | fld rd ps idx => exact (h.setFreg rd (h.slots ps idx)).complete
  | fst pd fa idx => exact (h.setSlotWord pd idx (h.fregs fa)).complete
  | padd pd | psub pd | pntt pd | pintt pd | pbmul pd | pbmac pd => exact h.slotResult _ pd _ _
  | pcopy pd pa => exact (h.setSlot pd _ (h.slots pa)).complete
  | pzero pd t =>
    refine (h.setSlot pd t fun j => ?_).complete
    rw [Vector.getElem_replicate]
    exact (by decide : (0 : Raw).toNat < q)
  | pscale pd => exact (h.setSlotVals pd _ _).complete
  | pcomp pd pa d =>
    rw [execWith, pcompWith]
    split
    · exact h.slotResult _ pd _ _
    · exact h.takeFault _
  | pdecomp pd pa d =>
    rw [execWith, pdecompWith]
    split
    · exact h.slotResult _ pd _ _
    · exact h.takeFault _
  | parse pd x y blk => exact parseWith_storesInv _ pd x y blk h
  | cbd pd eta n blk => exact cbdWith_storesInv _ pd eta n blk h
  | penc pa d blk =>
    refine h.packResult fun hfit => h.writeBuf ?_
    rw [byteEncode_length, blkAddr, Config.blockBytes, Config.bufBytes]
    omega
  | pdec pd d blk t => exact h.packResult fun _ => h.setSlotVals pd _ t
  | pkeKeygen => exact pkeKeygenWith_storesInv _ h
  | pkeEnc => exact pkeEncWith_storesInv _ h
  | pkeDec => exact pkeDecState_storesInv h
  | kemKeygen => exact kemKeygenWith_storesInv _ _ h
  | kemEncaps => exact kemEncapsWith_storesInv _ _ h
  | kemDecaps => exact kemDecapsWith_storesInv _ h

/-! ## The unit's control state (R33, R34, R51, R361) -/

/-- What the invariant says of the control state. -/
structure State.ControlInv (s : State) : Prop where
  busyClean   : s.busy = true → s.done = false ∧ s.err = false
  latchIsCtrl : ∀ p, s.phase = .running p → p.level = s.level ∧ p.detrng = s.detrng
  errHasCause : s.err = true → s.errcode ≠ .noFault

theorem inv_iff : s.Inv ↔ s.StoresInv ∧ s.ControlInv :=
  ⟨fun h => ⟨⟨h.fregsCanonical, h.slotsCanonical, h.bufCanonical, h.scratchZero⟩,
      ⟨h.busyClean, h.latchIsCtrl, h.errHasCause⟩⟩,
    fun ⟨hs, hc⟩ => ⟨hs.fregs, hs.slots, hs.buf, hs.scratch, hc.busyClean, hc.latchIsCtrl, hc.errHasCause⟩⟩

/-- An idle unit meets all but the cause. -/
theorem controlInv_of_idle (hidle : s.phase = .idle) (herr : s.err = true → s.errcode ≠ .noFault) : s.ControlInv where
  busyClean hb := by rw [(phase_idle_iff s).2 hidle] at hb; cases hb
  latchIsCtrl p hp := by rw [hidle] at hp; cases hp
  errHasCause := herr

theorem State.ControlInv.takeFault {code : FaultCode} (hcode : code ≠ .noFault) : (s.takeFault code).ControlInv :=
  controlInv_of_idle rfl fun _ => hcode

theorem State.ControlInv.of_frame {r : List FReg} {p : List Slot} {b : Nat → Prop} {t : State} (h : s.ControlInv)
    (hframe : Frame r p b s t) : t.ControlInv :=
  controlInv_of_idle hframe.phase (by rw [hframe.err, hframe.errcode]; exact h.errHasCause)

/-- Only the control fields matter. -/
theorem State.ControlInv.congr {t : State} (h : s.ControlInv) (hphase : t.phase = s.phase) (hdone : t.done = s.done)
    (herr : t.err = s.err) (hlevel : t.level = s.level) (hdetrng : t.detrng = s.detrng) (hcode : t.errcode = s.errcode) :
    t.ControlInv where
  busyClean hb := by
    rw [State.busy, hphase] at hb
    rw [hdone, herr]
    exact h.busyClean hb
  latchIsCtrl p hp := by
    rw [hlevel, hdetrng]
    exact h.latchIsCtrl p (hphase ▸ hp)
  errHasCause := by rw [herr, hcode]; exact h.errHasCause

theorem State.ControlInv.keepBusy (h : s.ControlInv) : s.keepBusy.ControlInv := by
  cases hphase : s.phase with
  | idle | initialising =>
    have he : s.keepBusy = s := by rw [State.keepBusy, hphase]
    rwa [he]
  | running p =>
    have hbusy := h.busyClean (busy_of_running hphase)
    have hlatch := h.latchIsCtrl p hphase
    refine ⟨fun _ => ?_, fun p' hp' => ?_, ?_⟩
    · rw [State.keepBusy_done, State.keepBusy_err]
      exact hbusy
    · rw [phase_keepBusy_of_running hphase] at hp'
      cases hp'
      rw [State.keepBusy_level, State.keepBusy_detrng]
      exact hlatch
    · rw [State.keepBusy_err, State.keepBusy_errcode]
      exact h.errHasCause

/-- Every command keeps the control part, by the three ends it can have (R370). -/
theorem execWith_controlInv (i : Instr) (h : s.ControlInv) : (execWith Config.params i s).ControlInv := by
  obtain ⟨t, he, hend⟩ := faultsArePrecise i s
  obtain rfl : execWith Config.params i s = t := Host.Outcome.next.inj ((exec_eq_execWith i s).symm.trans he)
  obtain hframe | ⟨code, hcode, hfault⟩ | ⟨hbusy, -⟩ := hend
  · exact h.of_frame hframe
  · exact hfault ▸ State.ControlInv.takeFault hcode
  · exact hbusy ▸ h.keepBusy

/-! ## The unit's step -/

theorem execWith_inv (i : Instr) (h : s.Inv) : (execWith Config.params i s).Inv := by
  obtain ⟨hstores, hcontrol⟩ := inv_iff.1 h
  exact inv_iff.2 ⟨execWith_storesInv i hstores, execWith_controlInv i hcontrol⟩

theorem decodeFault_ne_noFault (e : DecodeError) : decodeFault e ≠ .noFault := by cases e <;> decide

theorem runWordWith_inv (w : Word) (h : s.Inv) : (runWordWith Config.params w s).Inv := by
  rw [runWordWith]
  cases decode w with
  | command i => exact execWith_inv i h
  | rejected e =>
    obtain ⟨hstores, -⟩ := inv_iff.1 h
    exact inv_iff.2 ⟨hstores.takeFault _, State.ControlInv.takeFault (decodeFault_ne_noFault e)⟩

theorem endInit_inv (h : s.Inv) : s.endInit.Inv := by
  obtain ⟨hstores, hcontrol⟩ := inv_iff.1 h
  exact inv_iff.2 ⟨hstores.congr rfl rfl rfl rfl, controlInv_of_idle rfl hcontrol.errHasCause⟩

theorem unitStepWith_inv (h : s.Inv) : (unitStepWith Config.params s).Inv := by
  unfold unitStepWith
  split
  · exact h
  · exact endInit_inv h
  · exact runWordWith_inv _ h

/-! ## Host accesses and reset -/

/-- A STATUS write only clears DONE and ERR. -/
theorem State.ControlInv.writeStatus (h : s.ControlInv) (d : Word) : (s.writeStatus d).ControlInv where
  busyClean hb := by
    rw [State.writeStatus_busy] at hb
    obtain ⟨hdone, herr⟩ := h.busyClean hb
    rw [State.writeStatus_done, State.writeStatus_err, hdone, herr]
    exact ⟨rfl, rfl⟩
  latchIsCtrl p hp := by
    rw [State.writeStatus_level, State.writeStatus_detrng]
    exact h.latchIsCtrl p (State.writeStatus_phase s d ▸ hp)
  errHasCause herr := by
    rw [State.writeStatus_err, Bool.and_eq_true] at herr
    rw [State.writeStatus_errcode]
    exact h.errHasCause herr.1

/-- An accepted command finds ERR = 0, and its latches are CTRL's. -/
theorem controlInv_accept (w : Word) (herr : s.err = false) : (s.accept w).ControlInv where
  busyClean _ := ⟨rfl, herr⟩
  latchIsCtrl p hp := by cases hp; exact ⟨rfl, rfl⟩
  errHasCause he := by rw [State.accept_err, herr] at he; cases he

theorem State.ControlInv.writeCmd (h : s.ControlInv) (w : Word) : (s.writeCmd w).ControlInv := by
  by_cases hrej : s.busy = true ∨ s.err = true
  · rw [writeCmd_rejected w hrej]
    exact h.congr rfl rfl rfl rfl rfl rfl
  · rw [not_or, Bool.not_eq_true, Bool.not_eq_true] at hrej
    rw [writeCmd_accepted w hrej.1 hrej.2]
    exact controlInv_accept w hrej.2

/-- CTRL moves only while no command is latched (R32, R49). -/
theorem State.ControlInv.writeCtrl (h : s.ControlInv) (hb : s.busy = false) (d : Word) : (s.writeCtrl d).ControlInv :=
  controlInv_of_idle ((phase_idle_iff s).1 hb) h.errHasCause

/-- A word that passes the check of R41 is stored as a word below q. -/
theorem setWidth_canonical {d : Word} (h : canonicalWord d = true) : Canonical (d.setWidth 12) := by
  have hd : d.toNat < 3329 := of_decide_eq_true h
  rw [Canonical, BitVec.toNat_setWidth]
  exact (Nat.mod_le _ _).trans_lt hd

theorem writeTag_inv (h : s.Inv) (d : Word) : (s.writeTag d).Inv := by
  obtain ⟨hstores, hcontrol⟩ := inv_iff.1 h
  exact inv_iff.2 ⟨hstores.congr (s.writeTag_fregs d) (s.writeTag_slots d) (s.writeTag_buf d) (s.writeTag_scratch d),
    hcontrol.congr (s.writeTag_phase d) (s.writeTag_done d) (s.writeTag_err d) (s.writeTag_level d) (s.writeTag_detrng d)
      (s.writeTag_errcode d)⟩

theorem hostWrite_inv (h : s.Inv) (a : HostAddr) (d : Word) : (s.hostWrite a d).Inv := by
  obtain ⟨hstores, hcontrol⟩ := inv_iff.1 h
  have hdrop : s.dropWrite.Inv := inv_iff.2 ⟨hstores.congr rfl rfl rfl rfl, hcontrol.congr rfl rfl rfl rfl rfl rfl⟩
  have hbad : s.reportBadval.Inv := inv_iff.2 ⟨hstores.congr rfl rfl rfl rfl, hcontrol.congr rfl rfl rfl rfl rfl rfl⟩
  rw [State.hostWrite]
  cases hmap : addressMap a with
  | id | errcode | errcmd | cmdcnt | unmapped => exact h
  | ctrl =>
    dsimp only
    split
    · exact hdrop
    · next hb =>
      exact inv_iff.2 ⟨hstores.congr rfl rfl rfl rfl, hcontrol.writeCtrl (Bool.eq_false_of_not_eq_true hb) d⟩
  | status =>
    exact inv_iff.2 ⟨hstores.congr (s.writeStatus_fregs d) (s.writeStatus_slots d) (s.writeStatus_buf d)
      (s.writeStatus_scratch d), hcontrol.writeStatus d⟩
  | cmd =>
    refine inv_iff.2 ⟨?_, hcontrol.writeCmd d⟩
    dsimp only
    rw [State.writeCmd]
    split
    · exact hstores.congr rfl rfl rfl rfl
    · exact hstores.congr rfl rfl rfl rfl
  | irqen => exact inv_iff.2 ⟨hstores.congr rfl rfl rfl rfl, hcontrol.congr rfl rfl rfl rfl rfl rfl⟩
  | tag =>
    dsimp only
    split
    · exact hdrop
    · exact writeTag_inv h d
  | freg i =>
    dsimp only
    split
    · exact hdrop
    · split
      · next hc => exact inv_iff.2 ⟨hstores.setFreg i (setWidth_canonical hc), hcontrol.congr rfl rfl rfl rfl rfl rfl⟩
      · exact hbad
  | slotWord p j =>
    dsimp only
    split
    · exact hdrop
    · split
      · next hc => exact inv_iff.2 ⟨hstores.setSlotWord p j (setWidth_canonical hc), hcontrol.congr rfl rfl rfl rfl rfl rfl⟩
      · exact hbad
  | buf b =>
    dsimp only
    split
    · exact hdrop
    · exact inv_iff.2 ⟨hstores.writeBuf (addressMap_buf_range hmap), hcontrol.congr rfl rfl rfl rfl rfl rfl⟩

/-- The fields outside the block are no part of the invariant. -/
theorem State.Inv.with_outside (h : s.Inv) (script : List HostEvent) (rdata : Word) (randPos freeDraws : Nat) :
    State.Inv { s with script := script, rdata := rdata, randPos := randPos, freeDraws := freeDraws } := by
  obtain ⟨hstores, hcontrol⟩ := inv_iff.1 h
  exact inv_iff.2 ⟨hstores.congr rfl rfl rfl rfl, hcontrol.congr rfl rfl rfl rfl rfl rfl⟩

theorem busRead_inv (h : s.Inv) (addr : Nat) : (s.busRead addr).Inv := by
  rw [State.busRead]
  split
  · exact h.with_outside _ _ _ _
  · exact h

theorem busWrite_inv (h : s.Inv) (addr : Nat) (be : BitVec 4) (d : Word) : (s.busWrite addr be d).Inv := by
  rw [State.busWrite]
  split
  · exact hostWrite_inv h _ d
  · exact h

theorem controlInv_reset : State.reset.ControlInv where
  busyClean _ := ⟨rfl, rfl⟩
  latchIsCtrl p hp := by cases hp
  errHasCause he := by cases he

/-- Settles O59: the stores read 0 at reset, and no flag is set. -/
theorem resetMeetsTheInvariant : Obligations.ResetMeetsTheInvariant :=
  inv_iff.2 ⟨storesInv_reset, controlInv_reset⟩

theorem resetBlock_inv (s : State) (rand : Nat → Option Byte) : (s.resetBlock rand).Inv := by
  rw [resetBlock_eq]
  exact State.Inv.with_outside resetMeetsTheInvariant _ _ _ _

/-! ## Every step -/

theorem stepWith_inv (h : s.Inv) : (stepWith Config.params s).Inv := by
  unfold stepWith
  split
  · exact unitStepWith_inv h
  · exact busRead_inv (h.with_outside _ _ _ _) _
  · exact busWrite_inv (h.with_outside _ _ _ _) _ _ _
  · exact resetBlock_inv _ _
  · exact unitStepWith_inv (h.with_outside _ _ _ _)

end Stores

/-- Settles O60: every step is `stepWith` at the machine's configuration, which answers a state and keeps the invariant. -/
theorem stepKeepsTheInvariant : Obligations.StepKeepsTheInvariant := by
  refine ⟨fun s => ⟨_, step_eq_stepWith s⟩, fun s t h hstep => ?_⟩
  rw [step_eq_stepWith] at hstep
  exact Host.Outcome.next.inj hstep ▸ stepWith_inv h

end Sys2Proof.Machine

/-!
PROOF of the statement of 40_field.md about FRAND (R164): what its loop over the byte pairs answers, and from it the command.
-/

namespace Sys2Proof.Machine

/-- The pairs from p on give a first value below q, the value c, at pair k (R164). -/
def FirstPairBelowQ (rand : Nat → Option Byte) (p k c : Nat) : Prop :=
  (∀ j < k, ∃ c', pairAt rand (p + 2 * j) c' ∧ 3329 ≤ c') ∧ pairAt rand (p + 2 * k) c ∧ c < 3329

section Rand

variable {rand : Nat → Option Byte} {p c : Nat}

theorem pairAt_inj {c' : Nat} (h : pairAt rand p c) (h' : pairAt rand p c') : c = c' := by
  obtain ⟨b0, b1, h0, h1, rfl⟩ := h
  obtain ⟨b0', b1', h0', h1', rfl⟩ := h'
  rw [Option.some.inj (h0.symm.trans h0'), Option.some.inj (h1.symm.trans h1')]

theorem firstPairBelowQ_zero : FirstPairBelowQ rand p 0 c ↔ pairAt rand p c ∧ c < 3329 :=
  ⟨fun h => h.2, fun h => ⟨fun _ hj => absurd hj (Nat.not_lt_zero _), h⟩⟩

/-- After a pair whose value is q or more the search goes on at the next pair. -/
theorem firstPairBelowQ_succ {k : Nat} : FirstPairBelowQ rand p (k + 1) c ↔
    (∃ c', pairAt rand p c' ∧ 3329 ≤ c') ∧ FirstPairBelowQ rand (p + 2) k c := by
  have hshift (j : Nat) : p + 2 * (j + 1) = p + 2 + 2 * j := by omega
  simp only [FirstPairBelowQ, Nat.forall_lt_succ_left, hshift, Nat.mul_zero, Nat.add_zero, and_assoc]

/-- The pair at p where the source supplies both bytes, and none where it has stalled (R411). -/
theorem pair_supplied_or_stalled (rand : Nat → Option Byte) (p : Nat) :
    (∃ b0 b1, rand p = some b0 ∧ rand (p + 1) = some b1) ∨ ∀ c, ¬pairAt rand p c := by
  cases h0 : rand p with
  | none => exact .inr fun c ⟨_, _, h, _⟩ => by simp [h0] at h
  | some b0 =>
    cases h1 : rand (p + 1) with
    | none => exact .inr fun c ⟨_, _, _, h, _⟩ => by simp [h1] at h
    | some b1 => exact .inl ⟨b0, b1, rfl, rfl⟩

/-- FRAND's loop over n pairs answers the first value below q of those pairs, and the position after it (R164). -/
theorem randLoop_eq_some_iff {n p' : Nat} : randLoop rand n p = some (c, p') ↔
    ∃ k < n, p' = p + 2 * k + 2 ∧ FirstPairBelowQ rand p k c := by
  induction n generalizing p with
  | zero => simp [randLoop]
  | succ n ih =>
    simp only [Nat.exists_lt_succ_left, firstPairBelowQ_zero, firstPairBelowQ_succ]
    obtain ⟨b0, b1, h0, h1⟩ | hstall := pair_supplied_or_stalled rand p
    · have hpair (c' : Nat) : pairAt rand p c' ↔ c' = (b0.toNat + 256 * b1.toNat) % 4096 :=
        ⟨fun h => pairAt_inj h ⟨b0, b1, h0, h1, rfl⟩, fun h => ⟨b0, b1, h0, h1, h⟩⟩
      have hshift (k : Nat) : p + 2 * (k + 1) + 2 = p + 2 + 2 * k + 2 := by omega
      by_cases hc : (b0.toNat + 256 * b1.toNat) % 4096 < 3329
      · have hfound : randLoop rand (n + 1) p = some ((b0.toNat + 256 * b1.toNat) % 4096, p + 2) := by
          simp [randLoop, h0, h1, q, hc]
        simp only [hfound, hpair, Option.some.injEq, Prod.mk.injEq]
        grind
      · have hnext : randLoop rand (n + 1) p = randLoop rand n (p + 2) := by simp [randLoop, h0, h1, q, hc]
        simp only [hnext, ih, hshift, hpair]
        grind
    · have hnone : randLoop rand (n + 1) p = none := by
        simp only [randLoop]
        split
        · rename_i h0 h1; exact absurd ⟨_, _, h0, h1, rfl⟩ (hstall _)
        · rfl
      simp [hnone, hstall]

end Rand

/-- FRAND's result where its loop finds a value below q: the register and the source's position. -/
theorem frame_setFval_setRandPos (s : State) (rd : FReg) (c p : Nat) :
    Frame [rd] [] noBytes s ((s.setFval rd c).setRandPos p).complete :=
  frame_complete rfl
    (fun i hi => by rw [State.setRandPos_freg, State.setFval_freg, if_neg (by simpa using hi)])
    (fun _ _ => ⟨rfl, rfl⟩) fun _ _ => rfl

/-- Settles O9: FRAND's loop by `randLoop_eq_some_iff`; where the loop answers nothing the command stays busy. -/
theorem frandTakesTheFirstPairBelowQ : Obligations.FrandTakesTheFirstPairBelowQ := by
  refine ⟨fun rd s => runs_encode (.frand rd) rfl rfl, fun rand rd s k c hk hrej hpair hc => ?_, fun rand rd s hno => ?_,
    reservedBitsFault_of_rowOf rfl (by decide)⟩
  · have hloop : randLoop rand s.budget s.randPos = some (c, s.randPos + 2 * k + 2) :=
      randLoop_eq_some_iff.2 ⟨k, hk, rfl, hrej, hpair, hc⟩
    have hdone : frandFrom rand rd s = ((s.setFval rd c).setRandPos (s.randPos + 2 * k + 2)).complete := by
      simp only [frandFrom, hloop]
    have hword : (frandFrom rand rd s).freg rd = mont c := by
      rw [hdone]
      exact (State.setFval_freg s rd rd c).trans (if_pos rfl)
    rw [hword, hdone]
    exact ⟨frame_setFval_setRandPos s rd c _, val_mont hc, mont_canonical c, rfl, rfl, rfl⟩
  · obtain ⟨c, p, -, hloop, -⟩ | ⟨-, hbusy⟩ := frandFrom_cases rand rd s
    · obtain ⟨k, hk, -, hrej, hpair, hc⟩ := randLoop_eq_some_iff.1 hloop
      exact absurd ⟨c, hpair, hc⟩ (hno k hk hrej)
    · exact hbusy

end Sys2Proof.Machine

/-!
PROOFS of the statements of 43_pke.md about what macro commands use (R290), and of 10_state.md about the Montgomery radix
(R55, 00_scope.md R13).
-/

namespace Sys2Proof.Machine

/-! ## Macro commands and the data of the other units (R290) -/

section WithData

variable (s : State) (f : Vector Raw 16) (sl : Vector Poly 16) (tg : Vector Tag 16) (e : Bool)

theorem State.withData_keepBusy : s.keepBusy.withData f sl tg e = (s.withData f sl tg e).keepBusy := by
  cases h : s.phase <;> simp [State.keepBusy, State.withData, h]

theorem State.withData_keepDraws (a : Nat) (bs : List Byte) :
    (s.keepDraws a bs).withData f sl tg e = (s.withData f sl tg e).keepDraws a bs := by
  unfold State.keepDraws
  rw [show (s.withData f sl tg e).latchedDetrng = s.latchedDetrng from rfl]
  cases s.latchedDetrng <;> rfl

/-- A macro command does the same with other contents of F, the slots, TAG and EQ if its body does. -/
theorem withData_runMacro {body body' : LevelParams → Option State}
    (h : ∀ lp, body' lp = (body lp).map (·.withData f sl tg e)) :
    runMacro (s.withData f sl tg e) body' = (runMacro s body).withData f sl tg e := by
  unfold runMacro
  rw [show (s.withData f sl tg e).latchedLevel = s.latchedLevel from rfl]
  cases levelParams s.latchedLevel with
  | none => rfl
  | some lp =>
    dsimp only
    rw [h]
    cases body lp with
    | none => exact (State.withData_keepBusy s f sl tg e).symm
    | some t => rfl

/-- The macro commands do the same with other contents of F, the slots, TAG and EQ (R290). -/
theorem execWith_withData_of_macro (c : Params) {i : Instr} (hi : i ∈ macroCommands) :
    execWith c i (s.withData f sl tg e) = (execWith c i s).withData f sl tg e := by
  simp only [macroCommands, List.mem_cons, List.not_mem_nil, or_false] at hi
  obtain rfl | rfl | rfl | rfl | rfl | rfl := hi
  · exact withData_runMacro s f sl tg e fun lp => by rw [Option.map_map]; rfl
  · exact withData_runMacro s f sl tg e fun lp => by rw [Option.map_map]; rfl
  · simp only [execWith, pkeDecState]
    exact withData_runMacro s f sl tg e fun lp => rfl
  · refine withData_runMacro s f sl tg e fun lp => ?_
    rw [show (s.withData f sl tg e).kemInput c.rand seedBase 64 = s.kemInput c.rand seedBase 64 from rfl]
    cases s.kemInput c.rand seedBase 64 with
    | none => rfl
    | some dz => dsimp only; rw [Option.map_map, ← State.withData_keepDraws]; rfl
  · refine withData_runMacro s f sl tg e fun lp => ?_
    rw [show (s.withData f sl tg e).kemInput c.rand msgBase 32 = s.kemInput c.rand msgBase 32 from rfl]
    cases s.kemInput c.rand msgBase 32 with
    | none => rfl
    | some m => dsimp only; rw [Option.map_map, ← State.withData_keepDraws]; rfl
  · exact withData_runMacro s f sl tg e fun lp => by rw [Option.map_map]; rfl

/-- The macro commands leave F, the slots, TAG and EQ: with a state's own contents they do what they do with them. -/
theorem execWith_data_of_macro (c : Params) {i : Instr} (hi : i ∈ macroCommands) :
    (execWith c i s).withData s.fregs s.slots s.tags s.eqFlag = execWith c i s :=
  (execWith_withData_of_macro s s.fregs s.slots s.tags s.eqFlag c hi).symm

end WithData

/-- Settles O41: both halves by `execWith_withData_of_macro`. -/
theorem macrosUseNoRegisterOrSlot : Obligations.MacrosUseNoRegisterOrSlot := by
  intro i hi s t f sl tg e hexec
  rw [exec_eq_execWith, Host.Outcome.next.injEq] at hexec
  subst hexec
  have hkeep := execWith_data_of_macro s Config.params hi
  rw [exec_eq_execWith, execWith_withData_of_macro s f sl tg e Config.params hi]
  exact ⟨rfl, (congrArg State.fregs hkeep).symm, (congrArg State.slots hkeep).symm, (congrArg State.tags hkeep).symm,
    (congrArg State.eqFlag hkeep).symm⟩

/-! ## The radix (R13, R55) -/

section Rebase

variable (s : State) (R R' : Radix)

/-- A macro command does the same under every radix: its words of F and the slots are those it started with. -/
theorem execWith_rebase_of_macro (e : Params) {i : Instr} (hi : i ∈ macroCommands) :
    execWith { e with radix := R' } i (s.rebase R R') = (execWith e i s).rebase R R' := by
  have hrad : execWith { e with radix := R' } i = execWith e i := by
    simp only [macroCommands, List.mem_cons, List.not_mem_nil, or_false] at hi
    obtain rfl | rfl | rfl | rfl | rfl | rfl := hi <;> rfl
  have hkeep := execWith_data_of_macro s e hi
  rw [hrad, ← hkeep]
  exact execWith_withData_of_macro s _ _ s.tags s.eqFlag e hi

@[simp] theorem State.rebase_budget : (s.rebase R R').budget = s.budget := rfl

theorem State.rebase_setEq (b : Bool) : (s.setEq b).rebase R R' = (s.rebase R R').setEq b := rfl

theorem State.rebase_slot (p : Slot) : (s.rebase R R').slot p = (s.slot p).map fun w => mont (val w R) R' := by
  simp only [State.slot, State.rebase, Vector.getElem_map]

theorem State.rebase_setSlot (p : Slot) (f : Poly) (t : Tag) :
    (s.setSlot p f t).rebase R R' = (s.rebase R R').setSlot p (f.map fun w => mont (val w R) R') t := by
  simp only [State.rebase, State.setSlot, Vector.map_set]

/-- Canonical words are equal under one radix exactly when the words for their values are equal under another (R161). -/
theorem State.rebase_freg_beq (hs : ∀ f, Canonical (s.freg f)) (i j : FReg) :
    ((s.rebase R R').freg i == (s.rebase R R').freg j) = (s.freg i == s.freg j) := by
  rw [Bool.eq_iff_iff, beq_iff_eq, beq_iff_eq, State.rebase_freg, State.rebase_freg]
  refine ⟨fun h => ?_, fun h => by rw [State.fval, State.fval, h]⟩
  have hval : s.fval i R = s.fval j R := by
    calc s.fval i R = val (mont (s.fval i R) R') R' := (val_mont (val_lt (s.freg i) R) R').symm
      _ = val (mont (s.fval j R) R') R' := by rw [h]
      _ = s.fval j R := val_mont (val_lt (s.freg j) R) R'
  rw [← mont_val (hs i) R, ← mont_val (hs j) R]
  exact congrArg (mont · R) hval

/-- Zeroed words stand for the value 0 under every radix (R54). -/
theorem State.rebase_zeroData : s.zeroData.rebase R R' = (s.rebase R R').zeroData := by
  simp only [State.rebase, State.zeroData, State.reset, Vector.map_replicate, mont_val_zero]

theorem rebase_frandFrom (rand : Nat → Option Byte) (rd : FReg) :
    (frandFrom rand rd s R).rebase R R' = frandFrom rand rd (s.rebase R R') R' := by
  unfold frandFrom
  rw [State.rebase_budget, show (s.rebase R R').randPos = s.randPos from rfl]
  cases randLoop rand s.budget s.randPos with
  | none => exact State.rebase_keepBusy s R R'
  | some cp => simp only [State.rebase_complete, State.rebase_setRandPos, State.rebase_setFval]

theorem rebase_butterflyResult (ra rb : FReg) (a b : Nat) :
    (butterflyResult ra rb a b s R).rebase R R' = butterflyResult ra rb a b (s.rebase R R') R' := by
  unfold butterflyResult
  split
  · rfl
  · simp only [State.rebase_complete, State.rebase_setFval]

theorem rebase_packResult (d : Width) (blk : Blk) (t : State) :
    (packResult d blk s t).rebase R R' = packResult d blk (s.rebase R R') (t.rebase R R') := by
  unfold packResult
  cases packLegal d <;> cases packFits d blk <;> rfl

theorem rebase_parseWith (c : Collab) (pd : Slot) (x y : Fin 4) (blk : Blk) :
    (parseWith c pd x y blk s R).rebase R R' = parseWith c pd x y blk (s.rebase R R') R' := by
  unfold parseWith
  rw [State.rebase_budget, show (s.rebase R R').readBlock blk = s.readBlock blk from rfl]
  cases sampleNTT (c.xof128 (s.readBlock blk) (Byte.ofNat x.val) (Byte.ofNat y.val)) s.budget with
  | none => exact State.rebase_keepBusy s R R'
  | some f => simp only [State.rebase_complete, State.rebase_setSlotVals]

/-- A command behind a check of its operands does the same under another radix if its accepted case does. -/
theorem State.rebase_ite_takeFault {p : Prop} [Decidable p] {t t' : State} (fault : FaultCode)
    (h : t.rebase R R' = t') :
    (if p then t else s.takeFault fault).rebase R R' = if p then t' else (s.rebase R R').takeFault fault := by
  split
  · exact h
  · rfl

/-- A command other than FTOM and FFROMM does the same to the values under every radix (R55). -/
theorem execWith_rebase (e : Params) {i : Instr} (hs : ∀ f, Canonical (s.freg f))
    (hi : ∀ rd ra, i ≠ .ftom rd ra ∧ i ≠ .ffromm rd ra) :
    execWith { e with radix := R' } i (s.rebase e.radix R') = (execWith e i s).rebase e.radix R' := by
  symm
  cases i with
  | nop => rfl
  | zeroize => simp only [execWith, State.rebase_complete, State.rebase_zeroData]
  | fadd rd ra rb => simp only [execWith, faddWith, rebase_fieldResult, State.rebase_fval]
  | fsub rd ra rb => simp only [execWith, fsubWith, rebase_fieldResult, State.rebase_fval]
  | fneg rd ra => simp only [execWith, fnegWith, rebase_fieldResult, State.rebase_fval]
  | fmul rd ra rb => simp only [execWith, fmulWith, rebase_fieldResult, State.rebase_fval]
  | finv rd ra => simp only [execWith, finvWith, rebase_fieldResult, State.rebase_fval]
  | fdiv rd ra rb => simp only [execWith, fdivWith, rebase_fieldResult, State.rebase_fval]
  | fpow rd ra n => simp only [execWith, fpowWith, rebase_fieldResult, State.rebase_fval]
  | feq ra rb =>
    simp only [execWith, State.rebase_complete, State.rebase_setEq, State.rebase_freg_beq s e.radix R' hs]
  | fli rd v =>
    simp only [execWith, fliWith]
    split
    · rfl
    · exact rebase_fieldResult s e.radix R' rd v.val
  | fmov rd ra => simp only [execWith, State.rebase_complete, State.rebase_setFreg, State.rebase_freg, State.fval]
  | frand rd => exact rebase_frandFrom s e.radix R' e.rand rd
  | ftom rd ra => exact absurd rfl (hi rd ra).1
  | ffromm rd ra => exact absurd rfl (hi rd ra).2
  | fcomp rd ra d =>
    simp only [execWith, fcompWith, State.rebase_fval]
    exact State.rebase_ite_takeFault s e.radix R' _ (rebase_fieldResult s e.radix R' rd _)
  | fdecomp rd ra d =>
    simp only [execWith, fdecompWith, State.rebase_fval]
    exact State.rebase_ite_takeFault s e.radix R' _ (rebase_fieldResult s e.radix R' rd _)
  | fbct ra rb rz => simp only [execWith, fbctWith, rebase_butterflyResult, State.rebase_fval]
  | fbgs ra rb rz => simp only [execWith, fbgsWith, rebase_butterflyResult, State.rebase_fval]
  | fld rd ps idx => simp only [execWith, State.rebase_complete, State.rebase_setFreg, State.rebase_slotWord]
  | fst pd fa idx =>
    simp only [execWith, State.rebase_complete, State.rebase_setSlotWord, State.rebase_freg, State.fval]
  | padd pd pa pb =>
    simp only [execWith, paddWith, rebase_slotResult, State.rebase_slotVals]
    rfl
  | psub pd pa pb =>
    simp only [execWith, psubWith, rebase_slotResult, State.rebase_slotVals]
    rfl
  | pntt pd pa =>
    simp only [execWith, pnttWith, rebase_slotResult, State.rebase_slotVals]
    rfl
  | pintt pd pa =>
    simp only [execWith, pinttWith, rebase_slotResult, State.rebase_slotVals]
    rfl
  | pbmul pd pa pb =>
    simp only [execWith, pbmulWith, rebase_slotResult, State.rebase_slotVals]
    rfl
  | pbmac pd pa pb =>
    simp only [execWith, pbmacWith, rebase_slotResult, State.rebase_slotVals]
    rfl
  | pcopy pd pa =>
    simp only [execWith, State.rebase_complete, State.rebase_setSlot, State.rebase_slot, State.rebase_tag]
  | pzero pd t =>
    simp only [execWith, State.rebase_complete, State.rebase_setSlot, Vector.map_replicate, mont_val_zero]
  | pscale pd pa fb =>
    simp only [execWith, pscaleWith, State.rebase_complete, State.rebase_setSlotVals, State.rebase_slotVals,
      State.rebase_fval, State.rebase_tag]
  | pcomp pd pa d =>
    simp only [execWith, pcompWith, State.rebase_slotVals, State.rebase_tag]
    exact State.rebase_ite_takeFault s e.radix R' _ (rebase_slotResult s e.radix R' _ pd _ _)
  | pdecomp pd pa d =>
    simp only [execWith, pdecompWith, State.rebase_slotVals, State.rebase_tag]
    exact State.rebase_ite_takeFault s e.radix R' _ (rebase_slotResult s e.radix R' _ pd _ _)
  | parse pd x y blk => exact rebase_parseWith s e.radix R' e.collab pd x y blk
  | cbd pd eta n blk =>
    simp only [execWith, cbdWith]
    exact State.rebase_ite_takeFault s e.radix R' _ (by rw [State.rebase_complete, State.rebase_setSlotVals]; rfl)
  | penc pa d blk =>
    simp only [execWith, pencWith, rebase_packResult, State.rebase_writeBuf, State.rebase_slotVals]
  | pdec pd d blk t =>
    simp only [execWith, pdecWith, rebase_packResult, State.rebase_setSlotVals]
    rfl
  | pkeKeygen | pkeEnc | pkeDec | kemKeygen | kemEncaps | kemDecaps =>
    exact (execWith_rebase_of_macro s e.radix R' e (by decide)).symm

end Rebase

/-- Settles O12: the machine by `exec_eq_execWith` and `step_eq_stepWith`, the other radices by `execWith_rebase`; FTOM's
value by `val_mont`, FFROMM's raw word by the range of a value. -/
theorem radixChangesRawWordsAlone : Obligations.RadixChangesRawWordsAlone := by
  refine ⟨exec_eq_execWith, step_eq_stepWith, rfl, fun e R' i s hs =>
    ⟨execWith_rebase s R' e hs, fun rd ra hi => ?_, fun rd ra hi => ?_⟩⟩
  · have hword : (execWith e i s).freg rd = mont (s.freg ra).toNat e.radix := by
      subst hi; exact (State.setFval_freg s rd rd _ e.radix).trans (if_pos rfl)
    rw [State.fval, hword, val_mont (hs ra) e.radix]
  · have hword : (execWith e i s).freg rd = BitVec.ofNat 12 (s.fval ra e.radix) := by
      subst hi; exact (State.setFreg_freg s rd rd _).trans (if_pos rfl)
    rw [hword, BitVec.toNat_ofNat]
    exact Nat.mod_eq_of_lt (lt_trans (val_lt (s.freg ra) e.radix) (by decide))

end Sys2Proof.Machine

/-!
PROOFS of the statements of 44_kem.md about decapsulation as a function on byte strings (R322, R323, R328), and about what it
lets the host see (R327).
-/

namespace Sys2Proof.Machine

/-! ## CtEqual and CtSelect (R323) -/

/-- An OR gathers no 1 bit exactly when none of its members has one. -/
theorem foldl_or_eq_zero_iff (l : List Byte) (x : Byte) : l.foldl (· ||| ·) x = 0 ↔ x = 0 ∧ ∀ y ∈ l, y = 0 := by
  induction l generalizing x with
  | nil => simp
  | cons y l ih =>
    have hor : x ||| y = 0 ↔ x = 0 ∧ y = 0 := BitVec.or_eq_zero_iff
    rw [List.foldl_cons, ih, hor, List.forall_mem_cons, and_assoc]

/-- The differences of two byte strings of one length are all 0 exactly when they are equal. -/
theorem zipWith_xor_zero_iff {a b : List Byte} (h : a.length = b.length) :
    (∀ y ∈ List.zipWith (· ^^^ ·) a b, y = 0) ↔ a = b := by
  induction a generalizing b with
  | nil => simp [List.length_eq_zero_iff.1 h.symm]
  | cons x a ih =>
    cases b with
    | nil => simp at h
    | cons y b =>
      have hxor : x ^^^ y = 0 ↔ x = y := BitVec.xor_eq_zero_iff
      rw [List.zipWith_cons_cons, List.forall_mem_cons, ih (Nat.succ.inj h), hxor, List.cons.injEq]

theorem ctEqual_iff {a b : List Byte} (h : a.length = b.length) : ctEqual a b = true ↔ a = b := by
  rw [ctEqual, beq_iff_eq, foldl_or_eq_zero_iff, zipWith_xor_zero_iff h]
  exact and_iff_right rfl

theorem ctSelect_true {a b : List Byte} (h : a.length = b.length) : ctSelect true a b = a := by
  apply List.ext_getElem (by rw [ctSelect_length]; omega)
  intro i h1 h2
  have hmask : a[i] &&& 255#8 = a[i] := BitVec.and_allOnes
  simpa [ctSelect] using hmask

theorem ctSelect_false {a b : List Byte} (h : a.length = b.length) : ctSelect false a b = b := by
  apply List.ext_getElem (by rw [ctSelect_length]; omega)
  intro i h1 h2
  have hmask : b[i] &&& 255#8 = b[i] := BitVec.and_allOnes
  simpa [ctSelect] using hmask

/-- Settles O38. -/
theorem constantTimeCompareAndSelect : Obligations.ConstantTimeCompareAndSelect :=
  fun _ _ h => ⟨ctEqual_iff h, ctSelect_true h, ctSelect_false h⟩

/-- The select on the compare's answer is a choice by equality. -/
theorem ctSelect_ctEqual {a b x y : List Byte} (h : a.length = b.length) (hxy : x.length = y.length) :
    ctSelect (ctEqual a b) x y = if a = b then x else y := by
  split
  · rename_i hab
    rw [(ctEqual_iff h).2 hab, ctSelect_true hxy]
  · rename_i hab
    rw [Bool.eq_false_iff.2 fun he => hab ((ctEqual_iff h).1 he), ctSelect_false hxy]

/-! ## KEM.Decaps (R322) -/

section Decaps

variable {c : Collab} {n : Nat} {lp : LevelParams}

/-- KEM.Decaps once re-encryption gives a ciphertext: the key of g's first half where it is the one given, and of z where it
is not. -/
theorem kemDecaps_of_encrypt {sk' ct ct' m g : List Byte} (hct : ct.length = 32 * (lp.k * lp.du + lp.dv))
    (hm : pkeDecrypt lp (slice sk' 0 (384 * lp.k)) ct = m)
    (hg : (c.h512 (slice sk' (768 * lp.k + 32) 32 ++ m)).toList = g)
    (henc : pkeEncrypt c n lp (slice sk' (384 * lp.k) (384 * lp.k + 32)) m (g.drop 32) = some ct') :
    kemDecaps c n lp sk' ct = some
      (c.kdf ((if ct' = ct then g.take 32 else slice sk' (768 * lp.k + 64) 32) ++ (c.h256 ct).toList)).toList := by
  rw [kemDecaps]
  dsimp only
  rw [hm, hg, henc, Option.map_some, ctSelect_ctEqual ((pkeEncrypt_length henc).trans hct.symm)
    (by rw [Vector.length_toList, Vector.length_toList])]
  split <;> rfl

/-- The part of a byte string between two others. -/
theorem slice_append {a b d : List Byte} {i l : Nat} (ha : a.length = i) (hb : b.length = l) :
    slice (a ++ (b ++ d)) i l = b := by
  rw [slice, List.drop_left' ha, List.take_left' hb]

/-- The four parts of sk' = sk ‖ pk ‖ H256(pk) ‖ z (R320), where decapsulation reads them (R322). -/
theorem slices_of_kemKeyGen {d z pk sk' : List Byte} (hz : z.length = 32) (h : kemKeyGen c n lp d z = some (pk, sk')) :
    slice sk' (384 * lp.k) (384 * lp.k + 32) = pk ∧ slice sk' (768 * lp.k + 32) 32 = (c.h256 pk).toList ∧
      slice sk' (768 * lp.k + 64) 32 = z := by
  simp only [kemKeyGen, Option.map_eq_some_iff] at h
  obtain ⟨⟨pk', sk⟩, hk, hm⟩ := h
  simp only [Prod.mk.injEq] at hm
  obtain ⟨rfl, rfl⟩ := hm
  obtain ⟨hpk, hsk⟩ := pkeKeyGen_length hk
  have hh : (c.h256 pk').toList.length = 32 := Vector.length_toList
  refine ⟨?_, ?_, ?_⟩
  · rw [List.append_assoc, List.append_assoc]
    exact slice_append hsk hpk
  · rw [List.append_assoc]
    exact slice_append (by rw [List.length_append]; omega) hh
  · have hlast := slice_append (a := sk ++ pk' ++ (c.h256 pk').toList) (i := 768 * lp.k + 64) (d := [])
      (by simp only [List.length_append]; omega) hz
    rwa [List.append_nil] at hlast

/-- Settles O39: both parts by `kemDecaps_of_encrypt`, the first for the parts of sk' by `slices_of_kemKeyGen`. -/
theorem decapsulationRecoversOrRejects : Obligations.DecapsulationRecoversOrRejects := by
  refine fun c n lp => ⟨fun d z m pk sk ct k hz hkey hencaps hdec => ?_, fun sk ct ct' hsk hct henc hne => ?_⟩
  · obtain ⟨hpk, hh, -⟩ := slices_of_kemKeyGen hz hkey
    have hct := (kemEncaps_length hencaps).1
    simp only [kemEncaps, Option.map_eq_some_iff, Prod.mk.injEq] at hencaps
    obtain ⟨ct', henc, rfl, rfl⟩ := hencaps
    rw [kemDecaps_of_encrypt hct hdec (by rw [hh]) (by rw [hpk]; exact henc), if_pos rfl]
  · have hz : slice sk (768 * lp.k + 64) 32 = sk.drop (768 * lp.k + 64) :=
      List.take_of_length_le (by rw [List.length_drop]; omega)
    rw [kemDecaps_of_encrypt hct rfl rfl henc, if_neg hne, hz]

end Decaps

/-! ## What decapsulation lets the host see (R327) -/

/-- A completed or faulted KEM_DECAPS of a running unit leaves one state but for BUF: that of the fault, or that of a
completed command. -/
theorem kemDecapsWith_cases {c : Collab} {s : State} (hrun : s.Running) (hidle : (kemDecapsWith c s).busy = false) :
    (levelParams s.latchedLevel = none ∧ kemDecapsWith c s = s.takeFault .badLevel) ∨
      ((levelParams s.latchedLevel).isSome ∧ ∃ ss, kemDecapsWith c s = (s.writeBuf ssBase ss).clearScratch.complete) := by
  unfold kemDecapsWith at hidle ⊢
  obtain ⟨hl, hfault⟩ | ⟨lp, hl, ⟨-, hbusy⟩ | ⟨t, hbody, hdone⟩⟩ := runMacro_cases s _
  · exact .inl ⟨hl, hfault⟩
  · obtain ⟨p, hp⟩ := hrun
    rw [hbusy, State.keepBusy_busy, State.busy, hp] at hidle
    cases hidle
  · obtain ⟨ss, -, rfl⟩ := Option.map_eq_some_iff.1 hbody
    exact .inr ⟨by rw [hl]; rfl, ss, hdone⟩

/-- Settles O40: both runs fault, or both complete, and then only BUF holds what they computed. -/
theorem decapsulationOutcomeIsNotObservable : Obligations.DecapsulationOutcomeIsNotObservable := by
  intro c s buf' hrun t t' hidle hidle'
  have hlevel : ({ s with buf := buf' } : State).latchedLevel = s.latchedLevel := rfl
  obtain ⟨hl, ht⟩ | ⟨hl, ss, ht⟩ := kemDecapsWith_cases hrun hidle <;>
    obtain ⟨hl', ht'⟩ | ⟨hl', ss', ht'⟩ := kemDecapsWith_cases (s := { s with buf := buf' }) hrun hidle'
  · rw [show t = _ from ht, show t' = _ from ht']; rfl
  · rw [hlevel, hl] at hl'; cases hl'
  · rw [hlevel] at hl'; rw [hl'] at hl; cases hl
  · rw [show t = _ from ht, show t' = _ from ht']; rfl

end Sys2Proof.Machine

/-!
PROOFS of the statements of 43_pke.md: PKE_KEYGEN and PKE_ENC (R292, R293, R295, R296). Before them, what BUF reads after two
BufWrites that do not overlap, and the blocks of the byte strings that stand for vectors.
-/

namespace Sys2Proof.Machine

/-! ## BUF after a BufWrite -/

theorem read_writeBuf_outside (s : State) {a x : Nat} {bs : List Byte} {n : Nat} (hn : bs.length = n)
    (hx : ¬span a n x) : (s.writeBuf a bs).buf.read x = s.buf.read x := by
  subst hn
  exact Memory.read_writeBytes_outside _ _ _ _ hx

/-- The first of two BufWrites that do not overlap reads back. -/
theorem readBuf_writeBuf_writeBuf (s : State) {a b n : Nat} {x y : List Byte} (hx : x.length = n)
    (hab : a + n ≤ b ∨ b + y.length ≤ a) : ((s.writeBuf a x).writeBuf b y).readBuf a n = x :=
  (readBuf_writeBuf_apart _ b a n y hab).trans (readBuf_writeBuf_same s a n x hx)

/-! ## Blocks of the byte strings -/

/-- Block i of a vector's encoding, followed by anything. -/
theorem slice_encodeVec {k i : Nat} (f : Nat → Coeffs) (hi : i < k) (rest : List Byte) :
    slice (encodeVec (polyVec k f) ++ rest) (384 * i) 384 = byteEncode 12 (f i) :=
  slice_flatMap k 384 i f (byteEncode 12) (byteEncode_length 12) hi rest

/-- Block i of a vector's encoding alone. -/
theorem slice_encodeVec_alone {k i : Nat} (f : Nat → Coeffs) (hi : i < k) :
    slice (encodeVec (polyVec k f)) (384 * i) 384 = byteEncode 12 (f i) := by
  rw [← slice_encodeVec f hi [], List.append_nil]

/-- The part that ends a byte string. -/
theorem slice_append_right {x y : List Byte} {a n : Nat} (hx : x.length = a) (hy : y.length = n) :
    slice (x ++ y) a n = y := by
  rw [slice, List.drop_left' hx, ← hy, List.take_length]

/-! ## PKE_KEYGEN (R295) -/

section PkeKeygen

variable {c : Collab} {s : State} {lp : LevelParams}

theorem pkeKeygenWith_of_none (h : levelParams s.latchedLevel = some lp)
    (hk : pkeKeyGen c s.budget lp (s.readBuf 0x18E0 32) = none) : pkeKeygenWith c s = s.keepBusy :=
  runMacro_busy h (congrArg (Option.map _) hk)

theorem pkeKeygenWith_of_keys {pk sk : List Byte} (h : levelParams s.latchedLevel = some lp)
    (hk : pkeKeyGen c s.budget lp (s.readBuf 0x18E0 32) = some (pk, sk)) :
    pkeKeygenWith c s = ((s.writeBuf 0x0C60 pk).writeBuf 0 sk).clearScratch.complete :=
  runMacro_done h (congrArg (Option.map _) hk)

end PkeKeygen

/-- A macro command that has written two byte strings. -/
theorem frame_writeBuf_writeBuf_clearScratch (s : State) {a b n m : Nat} {x y : List Byte} (hx : x.length = n)
    (hy : y.length = m) : Frame [] [] (fun i => span a n i ∨ span b m i) s
      ((s.writeBuf a x).writeBuf b y).clearScratch.complete :=
  frame_clearScratch rfl fun _ hi =>
    (read_writeBuf_outside _ hy fun h => hi (.inr h)).trans (read_writeBuf_outside s hx fun h => hi (.inl h))

/-- Settles O32: the keys by `pkeKeyGen_of_entries`; PK and SK read back what is written, block by block. -/
theorem pkeKeygenWritesTheKeyPair : Obligations.PkeKeygenWritesTheKeyPair := by
  refine ⟨fun s => runs_encode .pkeKeygen rfl rfl, fun c s => ⟨runMacro_badLevel, fun lp hl => ?_⟩,
    reservedBitsFault_of_rowOf rfl (by decide)⟩
  intro d rho sigma noise t
  refine ⟨fun hmiss => ?_, fun A hA => ?_⟩
  · have hnone := pkeKeyGen_of_missing hmiss
    exact ⟨hnone, pkeKeygenWith_of_none hl hnone⟩
  · have hkeys := pkeKeyGen_of_entries (d := d) hA
    obtain ⟨hpk, hsk⟩ := pkeKeyGen_length hkeys
    obtain ⟨hk, -, -⟩ := levelParams_bounds hl
    have ht : t = _ := pkeKeygenWith_of_keys hl hkeys
    have hreadPk : t.readBuf 0x0C60 (384 * lp.k + 32) = _ :=
      (congrArg (State.readBuf · _ _) ht).trans (readBuf_writeBuf_writeBuf s hpk (.inr (by rw [hsk]; omega)))
    have hreadSk : t.readBuf 0 (384 * lp.k) = _ :=
      (congrArg (State.readBuf · _ _) ht).trans (readBuf_writeBuf_same _ _ _ _ hsk)
    refine ⟨?_, ?_, ?_, ?_, fun i hi => ⟨?_, ?_⟩, ?_, ?_⟩
    · rw [ht]; exact frame_writeBuf_writeBuf_clearScratch s hpk hsk
    · rw [ht]; rfl
    · rw [ht]; rfl
    · rw [ht]; rfl
    · have hblock := slice_readBuf t 0 (384 * lp.k) (384 * i) 384 (by omega)
      rw [Nat.zero_add] at hblock
      rw [← hblock, hreadSk]
      exact slice_encodeVec_alone _ hi
    · rw [← slice_readBuf t 0x0C60 (384 * lp.k + 32) (384 * i) 384 (by omega), hreadPk]
      exact slice_encodeVec _ hi _
    · rw [← slice_readBuf t 0x0C60 (384 * lp.k + 32) (384 * lp.k) 32 le_rfl, hreadPk]
      exact slice_append_right (by rw [encodeVec_length, polyVec_length])
        (by rw [List.length_take, Vector.length_toList]; rfl)
    · rw [hreadPk, hreadSk]
      exact hkeys

end Sys2Proof.Machine

/-!
PROOF of the statement of 43_pke.md about PKE_ENC (R293, R296). Before it, the message as a polynomial, and K-PKE.Encrypt of
what stands in BUF, each polynomial at its own address.
-/

namespace Sys2Proof.Machine

/-! ## The message as a polynomial (R293) -/

/-- A group of one bit is that bit. -/
theorem groupOf_one (bs : List Byte) (i : Nat) : groupOf 1 bs i = (bytesToBits bs i).toNat := by
  simp [groupOf, bitSum]

/-- Decompress_1(ByteDecode_1(m)) is 1665 at each 1 bit of m. -/
theorem decompress_one_byteDecode (bs : List Byte) : (byteDecode 1 bs).mapEach (decompress 1) =
    Coeffs.build fun x => if bytesToBits bs x then 1665 else 0 := by
  refine Coeffs.ext_at fun x hx => ?_
  rw [Coeffs.mapEach_at _ _ hx, byteDecode_at_eq_group (by decide) bs hx, groupOf_one, Coeffs.build_at_lt _ hx]
  cases bytesToBits bs x <;> rfl

/-- The message's bits in BUF. -/
theorem decompress_one_byteDecode_readBuf (s : State) (a : Nat) : (byteDecode 1 (s.readBuf a 32)).mapEach (decompress 1) =
    Coeffs.build fun x => if (s.buf.read (a + x / 8)).getLsbD (x % 8) then 1665 else 0 := by
  rw [decompress_one_byteDecode]
  refine Coeffs.ext_at fun x hx => ?_
  rw [Coeffs.build_at_lt _ hx, Coeffs.build_at_lt _ hx, bytesToBits_readBuf s a (by omega)]

/-! ## PKE_ENC (R296) -/

section PkeEnc

variable {c : Collab} {s : State} {lp : LevelParams}

theorem pkeEncWith_of_none (h : levelParams s.latchedLevel = some lp)
    (hc : pkeEncrypt c s.budget lp (s.readBuf 0x0C60 (384 * lp.k + 32)) (s.readBuf 0x18A0 32) (s.readBuf 0x18C0 32) = none) :
    pkeEncWith c s = s.keepBusy :=
  runMacro_busy h (congrArg (Option.map _) hc)

theorem pkeEncWith_of_ciphertext {ct : List Byte} (h : levelParams s.latchedLevel = some lp)
    (hc : pkeEncrypt c s.budget lp (s.readBuf 0x0C60 (384 * lp.k + 32)) (s.readBuf 0x18A0 32) (s.readBuf 0x18C0 32) =
      some ct) : pkeEncWith c s = (s.writeBuf 0x1280 ct).clearScratch.complete :=
  runMacro_done h (congrArg (Option.map _) hc)

end PkeEnc

/-- K-PKE.Encrypt of a key and a message in BUF reads each polynomial of the key at its own address (R293). -/
theorem pkeEncrypt_readBuf {c : Collab} {n : Nat} {lp : LevelParams} (s : State) {coins : List Byte} (a b : Nat)
    {A : Nat → Nat → Coeffs}
    (h : ∀ i < lp.k, ∀ j < lp.k, matrixEntry c n (s.readBuf (a + 384 * lp.k) 32) i j = some (A i j)) :
    let r := fun j => ntt (noisePoly c lp.eta1 coins j)
    let u := fun i => (nttInv (dotProduct lp.k (fun j => A j i) r)).add (noisePoly c lp.eta2 coins (lp.k + i))
    let v := ((nttInv (dotProduct lp.k (fun j => byteDecode 12 (s.readBuf (a + 384 * j) 384)) r)).add
      (noisePoly c lp.eta2 coins (2 * lp.k))).add
        (Coeffs.build fun x => if (s.buf.read (b + x / 8)).getLsbD (x % 8) then 1665 else 0)
    pkeEncrypt c n lp (s.readBuf a (384 * lp.k + 32)) (s.readBuf b 32) coins = some
      (((polyVec lp.k u).flatMap fun f => byteEncode lp.du (f.mapEach (compress lp.du))) ++
        byteEncode lp.dv (v.mapEach (compress lp.dv))) := by
  have hrho : slice (s.readBuf a (384 * lp.k + 32)) (384 * lp.k) 32 = s.readBuf (a + 384 * lp.k) 32 :=
    slice_readBuf s _ _ _ _ le_rfl
  have ht : ∀ j < lp.k, slice (s.readBuf a (384 * lp.k + 32)) (384 * j) 384 = s.readBuf (a + 384 * j) 384 := fun j hj =>
    slice_readBuf s _ _ _ _ (by omega)
  rw [← hrho] at h
  dsimp only
  rw [pkeEncrypt_of_entries h, decompress_one_byteDecode_readBuf,
    dotProduct_congr (fun j hj => by rw [ht j hj]) fun _ _ => rfl]

/-- Settles O33: the ciphertext by `pkeEncrypt_readBuf`; CT reads back what is written, part by part. -/
theorem pkeEncWritesTheCiphertext : Obligations.PkeEncWritesTheCiphertext := by
  refine ⟨fun s => runs_encode .pkeEnc rfl rfl, fun c s => ⟨runMacro_badLevel, fun lp hl => ?_⟩,
    reservedBitsFault_of_rowOf rfl (by decide)⟩
  intro coins rho tHat noise rHat mu v t out
  refine ⟨fun hmiss => ?_, fun A hA => ?_⟩
  · have hnone : out = none := pkeEncrypt_of_missing (by rw [slice_readBuf s _ _ _ _ le_rfl]; exact hmiss)
    exact ⟨hnone, pkeEncWith_of_none hl hnone⟩
  · have hout : out = some _ := pkeEncrypt_readBuf s 0x0C60 0x18A0 hA
    have hlen := pkeEncrypt_length hout
    have ht : t = _ := pkeEncWith_of_ciphertext hl hout
    have hread : t.readBuf 0x1280 (32 * (lp.k * lp.du + lp.dv)) = _ :=
      (congrArg (State.readBuf · _ _) ht).trans (readBuf_writeBuf_same _ _ _ _ hlen)
    refine ⟨?_, ?_, ?_, ?_, fun i hi => ?_, ?_, ?_⟩
    · rw [ht]; exact frame_writeBuf_clearScratch_of_length s 0x1280 hlen
    · rw [ht]; rfl
    · rw [ht]; rfl
    · rw [ht]; rfl
    · rw [← slice_readBuf t 0x1280 _ _ _ (ctPartU_end_le lp hi), hread]
      exact slice_flatMap _ (32 * lp.du) i _ _ (fun _ => byteEncode_length _ _) hi _
    · rw [← slice_readBuf t 0x1280 _ _ _ (ctPartV_end lp).le, hread]
      refine slice_append_right ?_ (byteEncode_length _ _)
      rw [flatMap_length_const _ _ (32 * lp.du) fun _ _ => byteEncode_length _ _, polyVec_length, Nat.mul_comm]
    · rw [hread]
      exact hout

end Sys2Proof.Machine

/-!
PROOFS of the statements of 44_kem.md about the KEM commands (R320-R326, R329). Before them, the bytes a command starts from,
read or drawn, and what it leaves of them in BUF.
-/

namespace Sys2Proof.Machine

/-- Two neighbouring parts of BUF, one after the other. -/
theorem readBuf_append (s : State) (a n m : Nat) : s.readBuf a n ++ s.readBuf (a + n) m = s.readBuf a (n + m) := by
  have hfst : (s.readBuf a (n + m)).take n = s.readBuf a n := slice_readBuf s a (n + m) 0 n (by omega)
  have hsnd : (s.readBuf a (n + m)).drop n = s.readBuf (a + n) m := by
    rw [← slice_readBuf s a (n + m) n m le_rfl, slice, List.take_of_length_le]
    rw [List.length_drop, readBuf_length]; omega
  rw [← hfst, ← hsnd, List.take_append_drop]

/-! ## The bytes a KEM command starts from (R324, R325, R329) -/

section KemInput

variable {rand : Nat → Option Byte} {s : State} {base n : Nat} {bs : List Byte}

theorem kemInput_eq_some_iff : s.kemInput rand base n = some bs ↔
    if s.latchedDetrng then bs = s.readBuf base n else drawBytes rand n s.randPos = some bs := by
  unfold State.kemInput
  split
  · rw [Option.some.injEq, eq_comm]
  · rfl

theorem kemInput_of_stall (hdet : s.latchedDetrng = false) (h : drawBytes rand n s.randPos = none) :
    s.kemInput rand base n = none := by
  rw [State.kemInput, if_neg (by rw [hdet]; decide), h]

/-- The drawn bytes' region and the source's position are all that `keepDraws` touches. -/
theorem keepDraws_eq (s : State) (base : Nat) (bs : List Byte) : s.keepDraws base bs =
    { s with buf := (s.keepDraws base bs).buf, randPos := (s.keepDraws base bs).randPos } := by
  unfold State.keepDraws
  split <;> rfl

theorem keepDraws_randPos (hn : bs.length = n) :
    (s.keepDraws base bs).randPos = s.randPos + if s.latchedDetrng then 0 else n := by
  unfold State.keepDraws
  split
  · rfl
  · rw [← hn]; rfl

theorem read_keepDraws_outside {x : Nat} (hn : bs.length = n) (hx : ¬(s.latchedDetrng = false ∧ span base n x)) :
    (s.keepDraws base bs).buf.read x = s.buf.read x := by
  unfold State.keepDraws
  split
  · rfl
  · rename_i hdet
    exact read_writeBuf_outside s hn fun h => hx ⟨Bool.eq_false_iff.2 hdet, h⟩

/-- Read or drawn, the bytes stand in their region afterwards. -/
theorem readBuf_keepDraws_input (hn : bs.length = n) (h : s.kemInput rand base n = some bs) :
    (s.keepDraws base bs).readBuf base n = bs := by
  rw [kemInput_eq_some_iff] at h
  unfold State.keepDraws
  split at h
  · rename_i hdet
    rw [if_pos hdet, h]
  · rename_i hdet
    rw [if_neg hdet, readBuf_setRandPos, readBuf_writeBuf_same _ _ _ _ hn]

/-- A macro command that has kept its input and written two byte strings. -/
theorem frame_keepDraws_clearScratch {a b l m : Nat} {x y : List Byte} (hn : bs.length = n) (hx : x.length = l)
    (hy : y.length = m) :
    Frame [] [] (fun i => span a l i ∨ span b m i ∨ (s.latchedDetrng = false ∧ span base n i)) s
      (((s.keepDraws base bs).writeBuf a x).writeBuf b y).clearScratch.complete := by
  refine frame_clearScratch ?_ fun i hi => ?_
  · exact congrArg (fun u => (u.writeBuf a x).writeBuf b y) (keepDraws_eq s base bs)
  · calc (((s.keepDraws base bs).writeBuf a x).writeBuf b y).buf.read i
        = ((s.keepDraws base bs).writeBuf a x).buf.read i := read_writeBuf_outside _ hy fun h => hi (.inr (.inl h))
      _ = (s.keepDraws base bs).buf.read i := read_writeBuf_outside _ hx fun h => hi (.inl h)
      _ = s.buf.read i := read_keepDraws_outside hn fun h => hi (.inr (.inr h))

/-- Of the rest, such a command moves the random source's position alone, and zeroes the scratch. -/
theorem rest_keepDraws_clearScratch (a b : Nat) (x y : List Byte) (hn : bs.length = n) :
    let t := (((s.keepDraws base bs).writeBuf a x).writeBuf b y).clearScratch.complete
    t.eqFlag = s.eqFlag ∧ t.scratch = [] ∧ t.randPos = s.randPos + if s.latchedDetrng then 0 else n := by
  refine ⟨?_, rfl, ?_⟩
  · simp only [State.complete_eqFlag, State.clearScratch_eqFlag, State.writeBuf_eqFlag, State.keepDraws_eqFlag]
  · simp only [State.complete_randPos, State.clearScratch_randPos, State.writeBuf_randPos, keepDraws_randPos hn]

/-- Two BufWrites away from the input leave it. -/
theorem readBuf_input_writeBuf_writeBuf {a b : Nat} {x y : List Byte} (hn : bs.length = n)
    (h : s.kemInput rand base n = some bs) (ha : base + n ≤ a ∨ a + x.length ≤ base)
    (hb : base + n ≤ b ∨ b + y.length ≤ base) :
    (((s.keepDraws base bs).writeBuf a x).writeBuf b y).readBuf base n = bs := by
  rw [readBuf_writeBuf_apart _ b base n y hb, readBuf_writeBuf_apart _ a base n x ha, readBuf_keepDraws_input hn h]

end KemInput

/-! ## KEM_KEYGEN (R324) -/

section KemKeygen

variable {c : Collab} {rand : Nat → Option Byte} {s : State} {lp : LevelParams}

theorem kemKeygenWith_of_no_input (h : levelParams s.latchedLevel = some lp)
    (hin : s.kemInput rand 0x18E0 64 = none) : kemKeygenWith c rand s = s.keepBusy :=
  runMacro_busy h (by rw [show s.kemInput rand seedBase 64 = none from hin])

theorem kemKeygenWith_of_input {d z : List Byte} (h : levelParams s.latchedLevel = some lp) (hd : d.length = 32)
    (hin : s.kemInput rand 0x18E0 64 = some (d ++ z)) : kemKeygenWith c rand s =
      match pkeKeyGen c s.budget lp d with
      | none => s.keepBusy
      | some (pk, sk) => (((s.keepDraws 0x18E0 (d ++ z)).writeBuf 0x0C60 pk).writeBuf 0
          (sk ++ pk ++ (c.h256 pk).toList ++ z)).clearScratch.complete := by
  unfold kemKeygenWith runMacro
  rw [h]
  dsimp only
  rw [show s.kemInput rand seedBase 64 = _ from hin]
  dsimp only
  rw [List.take_left' hd, List.drop_left' hd, kemKeyGen]
  cases pkeKeyGen c s.budget lp d <;> rfl

end KemKeygen

/-- Settles O35: PK and SK read back what is written, and D and Z the bytes the command started from. -/
theorem kemKeygenWritesTheKeyPair : Obligations.KemKeygenWritesTheKeyPair := by
  refine ⟨fun s => runs_encode .kemKeygen rfl rfl, fun c rand s => ⟨runMacro_badLevel, fun lp hl => ?_⟩,
    reservedBitsFault_of_rowOf rfl (by decide)⟩
  intro t
  refine ⟨fun hdet hstall => kemKeygenWith_of_no_input hl (kemInput_of_stall hdet hstall), fun d z hd hz hdz => ?_⟩
  have hin : s.kemInput rand 0x18E0 64 = some (d ++ z) := by
    rw [kemInput_eq_some_iff]
    split at hdz
    · rename_i hdet
      rw [if_pos hdet, hdz.1, hdz.2]
      exact readBuf_append s 0x18E0 32 32
    · rename_i hdet
      rwa [if_neg hdet]
  have hlen : (d ++ z).length = 64 := by rw [List.length_append, hd, hz]
  refine ⟨fun hnone => ?_, fun pk sk hkeys => ?_⟩
  · exact (kemKeygenWith_of_input hl hd hin).trans (by rw [hnone])
  · have hkem : kemKeyGen c s.budget lp d z = some (pk, sk ++ pk ++ (c.h256 pk).toList ++ z) := by
      rw [kemKeyGen, hkeys]; rfl
    obtain ⟨hpk, hsk⟩ := kemKeyGen_length hkem
    rw [hz] at hsk
    obtain ⟨hk, -, -⟩ := levelParams_bounds hl
    have ht : t = (((s.keepDraws 0x18E0 (d ++ z)).writeBuf 0x0C60 pk).writeBuf 0
        (sk ++ pk ++ (c.h256 pk).toList ++ z)).clearScratch.complete :=
      (kemKeygenWith_of_input hl hd hin).trans (by rw [hkeys])
    obtain ⟨heq, hscratch, hpos⟩ := rest_keepDraws_clearScratch (s := s) (base := 0x18E0) 0x0C60 0 pk
      (sk ++ pk ++ (c.h256 pk).toList ++ z) hlen
    have hinput : t.readBuf 0x18E0 64 = d ++ z := by
      rw [ht]
      exact readBuf_input_writeBuf_writeBuf hlen hin (.inr (by omega)) (.inr (by omega))
    refine ⟨?_, ht ▸ heq, ht ▸ hscratch, ht ▸ hpos, ?_, ?_, ?_, ?_, hkem⟩
    · rw [ht]; exact frame_keepDraws_clearScratch hlen hpk hsk
    · rw [ht]; exact readBuf_writeBuf_writeBuf _ hpk (.inr (by omega))
    · rw [ht]; exact readBuf_writeBuf_same _ _ _ _ hsk
    · rw [← slice_readBuf t 0x18E0 64 0 32 (by decide), hinput]
      exact List.take_left' hd
    · rw [← slice_readBuf t 0x18E0 64 32 32 (by decide), hinput]
      exact slice_append_right hd hz

/-! ## KEM_ENCAPS (R325) -/

section KemEncaps

variable {c : Collab} {rand : Nat → Option Byte} {s : State} {lp : LevelParams}

theorem kemEncapsWith_of_no_input (h : levelParams s.latchedLevel = some lp)
    (hin : s.kemInput rand 0x18A0 32 = none) : kemEncapsWith c rand s = s.keepBusy :=
  runMacro_busy h (by rw [show s.kemInput rand msgBase 32 = none from hin])

theorem kemEncapsWith_of_input {m : List Byte} (h : levelParams s.latchedLevel = some lp)
    (hin : s.kemInput rand 0x18A0 32 = some m) : kemEncapsWith c rand s =
      match kemEncaps c s.budget lp (s.readBuf 0x0C60 (384 * lp.k + 32)) m with
      | none => s.keepBusy
      | some (ct, ss) => (((s.keepDraws 0x18A0 m).writeBuf 0x1280 ct).writeBuf 0x1920 ss).clearScratch.complete := by
  unfold kemEncapsWith runMacro
  rw [h]
  dsimp only
  rw [show s.kemInput rand msgBase 32 = _ from hin]
  dsimp only
  rw [show s.readBuf pkBase lp.pkBytes = s.readBuf 0x0C60 (384 * lp.k + 32) from rfl]
  cases kemEncaps c s.budget lp (s.readBuf 0x0C60 (384 * lp.k + 32)) m <;> rfl

end KemEncaps

/-- Settles O36: CT and SS read back what is written, and MSG the bytes the command started from. -/
theorem kemEncapsWritesCiphertextAndSecret : Obligations.KemEncapsWritesCiphertextAndSecret := by
  refine ⟨fun s => runs_encode .kemEncaps rfl rfl, fun c rand s => ⟨runMacro_badLevel, fun lp hl => ?_⟩,
    reservedBitsFault_of_rowOf rfl (by decide)⟩
  intro t
  refine ⟨fun hdet hstall => kemEncapsWith_of_no_input hl (kemInput_of_stall hdet hstall), fun m hm hdraw => ?_⟩
  have hin : s.kemInput rand 0x18A0 32 = some m := kemInput_eq_some_iff.2 hdraw
  intro pk g
  refine ⟨fun hnone => ?_, fun ct henc => ?_⟩
  · exact (kemEncapsWith_of_input hl hin).trans (by rw [kemEncaps, hnone]; rfl)
  · intro ss
    have hkem : kemEncaps c s.budget lp pk m = some (ct, ss) := by
      rw [kemEncaps, henc]; rfl
    obtain ⟨hct, hss⟩ := kemEncaps_length hkem
    obtain ⟨-, hctBound, -⟩ := levelParams_bounds hl
    have ht : t = _ := (kemEncapsWith_of_input hl hin).trans (by rw [hkem])
    obtain ⟨heq, hscratch, hpos⟩ := rest_keepDraws_clearScratch (s := s) (base := 0x18A0) 0x1280 0x1920 ct ss hm
    rw [ht]
    exact ⟨frame_keepDraws_clearScratch hm hct hss, heq, hscratch, hpos,
      readBuf_writeBuf_writeBuf _ hct (.inl (by omega)), readBuf_writeBuf_same _ _ _ _ hss,
      readBuf_input_writeBuf_writeBuf hm hin (.inr (by omega)) (.inl (by decide)), hkem⟩

/-! ## KEM_DECAPS (R326) -/

section KemDecaps

variable {c : Collab} {s : State} {lp : LevelParams}

theorem kemDecapsWith_of_level (h : levelParams s.latchedLevel = some lp) : kemDecapsWith c s =
    match kemDecaps c s.budget lp (s.readBuf 0 (768 * lp.k + 96)) (s.readBuf 0x1280 (32 * (lp.k * lp.du + lp.dv))) with
    | none => s.keepBusy
    | some ss => (s.writeBuf 0x1920 ss).clearScratch.complete := by
  unfold kemDecapsWith runMacro
  rw [h]
  dsimp only
  rw [show s.readBuf skBase lp.ccaSkBytes = s.readBuf 0 (768 * lp.k + 96) from rfl,
    show s.readBuf ctBase lp.ctBytes = s.readBuf 0x1280 (32 * (lp.k * lp.du + lp.dv)) from rfl]
  cases kemDecaps c s.budget lp (s.readBuf 0 (768 * lp.k + 96)) (s.readBuf 0x1280 (32 * (lp.k * lp.du + lp.dv))) <;> rfl

/-- KEM.Decaps while re-encryption has no answer. -/
theorem kemDecaps_of_no_encrypt {n : Nat} {sk' ct m g : List Byte}
    (hm : pkeDecrypt lp (slice sk' 0 (384 * lp.k)) ct = m)
    (hg : (c.h512 (slice sk' (768 * lp.k + 32) 32 ++ m)).toList = g)
    (henc : pkeEncrypt c n lp (slice sk' (384 * lp.k) (384 * lp.k + 32)) m (g.drop 32) = none) :
    kemDecaps c n lp sk' ct = none := by
  rw [kemDecaps]
  dsimp only
  rw [hm, hg, henc]; rfl

end KemDecaps

/-- Settles O37: KEM.Decaps of the parts of SK, each read at its own address, by `kemDecaps_of_encrypt`. -/
theorem kemDecapsWritesTheSecret : Obligations.KemDecapsWritesTheSecret := by
  refine ⟨fun s => runs_encode .kemDecaps rfl rfl, fun c s => ⟨runMacro_badLevel, fun lp hl => ?_⟩,
    reservedBitsFault_of_rowOf rfl (by decide)⟩
  intro ct pk h z m g t
  have hpart (a n : Nat) (han : a + n ≤ 768 * lp.k + 96) : slice (s.readBuf 0 (768 * lp.k + 96)) a n = s.readBuf a n := by
    rw [slice_readBuf s 0 _ a n han, Nat.zero_add]
  have hsk := hpart 0 (384 * lp.k) (by omega)
  have hpk := hpart (384 * lp.k) (384 * lp.k + 32) (by omega)
  have hh := hpart (768 * lp.k + 32) 32 (by omega)
  have hz := hpart (768 * lp.k + 64) 32 (by omega)
  have hm : pkeDecrypt lp (slice (s.readBuf 0 (768 * lp.k + 96)) 0 (384 * lp.k)) ct = m := by rw [hsk]
  have hg : (c.h512 (slice (s.readBuf 0 (768 * lp.k + 96)) (768 * lp.k + 32) 32 ++ m)).toList = g := by rw [hh]
  refine ⟨fun hnone => ?_, fun ct' henc => ?_⟩
  · refine (kemDecapsWith_of_level hl).trans ?_
    rw [kemDecaps_of_no_encrypt hm hg (by rw [hpk]; exact hnone)]
  · intro ss
    have hkem : kemDecaps c s.budget lp (s.readBuf 0 (768 * lp.k + 96)) ct = some ss := by
      rw [kemDecaps_of_encrypt (readBuf_length _ _ _) hm hg (by rw [hpk]; exact henc), hz]
    have hss := kemDecaps_length hkem
    have ht : t = _ := (kemDecapsWith_of_level hl).trans (by rw [hkem])
    rw [ht]
    exact ⟨frame_writeBuf_clearScratch_of_length s 0x1920 hss, rfl, rfl, rfl, readBuf_writeBuf_same _ _ _ _ hss, hkem⟩

end Sys2Proof.Machine

/-!
PROOFS of the statements of 42_sampling_encoding.md about PARSE (R250-R253) and of 70_reset_and_hazards.md about its
completion (R415). Before them, the candidates of a stream as its 24-bit groups give them.
-/

namespace Sys2Proof.Machine

/-! ## The candidates of a stream -/

/-- The two candidates of a group are the low and the high 12 bits of its 24-bit little-endian integer (R250). -/
theorem candidates_of_group (b0 b1 b2 : Byte) :
    candidate1 b0 b1 = (b0.toNat + 256 * b1.toNat + 65536 * b2.toNat) % 4096 ∧
      candidate2 b1 b2 = (b0.toNat + 256 * b1.toNat + 65536 * b2.toNat) / 4096 := by
  have h0 := b0.isLt
  have h1 := b1.isLt
  constructor <;> simp only [candidate1, candidate2] <;> omega

/-- The groups from the start of a stream give the candidates the loop of SampleNTT finds. -/
theorem goodCandidates_eq (stream : Nat → Byte) (n : Nat) : goodCandidates stream n = candidatesFrom stream n 0 := by
  induction n with
  | zero => rfl
  | succ n ih =>
    obtain ⟨h1, h2⟩ := candidates_of_group (stream (3 * n)) (stream (3 * n + 1)) (stream (3 * n + 2))
    rw [candidatesFrom_append, ← ih, goodCandidates, List.range_succ, List.flatMap_append, List.filter_append, Nat.zero_add]
    simp only [List.flatMap_singleton, candidatesFrom, List.append_nil, h1, h2]
    rfl

/-- More groups never give fewer candidates. -/
theorem goodCandidates_length_mono (stream : Nat → Byte) {m n : Nat} (h : m ≤ n) :
    (goodCandidates stream m).length ≤ (goodCandidates stream n).length := by
  obtain ⟨d, rfl⟩ := Nat.exists_eq_add_of_le h
  rw [goodCandidates_eq, goodCandidates_eq, candidatesFrom_append, List.length_append]
  exact Nat.le_add_right _ _

/-! ## PARSE (R253) -/

section Parse

variable {c : Collab} {pd : Slot} {x y : Fin 4} {blk : Blk} {s : State}

/-- The stream PARSE reads in a state (R253). -/
def parseStream (c : Collab) (x y : Fin 4) (blk : Blk) (s : State) : Nat → Byte :=
  c.xof128 (s.readBuf (32 * blk) 32) (BitVec.ofNat 8 x) (BitVec.ofNat 8 y)

theorem parseWith_of_enough (h : 256 ≤ (goodCandidates (parseStream c x y blk s) s.budget).length) :
    parseWith c pd x y blk s =
      (s.setSlotVals pd (Coeffs.ofList ((goodCandidates (parseStream c x y blk s) s.budget).take 256)) .ntt).complete := by
  have hsample : sampleNTT (parseStream c x y blk s) s.budget =
      some (Coeffs.ofList ((goodCandidates (parseStream c x y blk s) s.budget).take 256)) := by
    rw [sampleNTT_eq, ← goodCandidates_eq, if_pos h]
  rw [parseWith, show sampleNTT (c.xof128 (s.readBlock blk) _ _) s.budget = _ from hsample]

theorem parseWith_of_few (h : (goodCandidates (parseStream c x y blk s) s.budget).length < 256) :
    parseWith c pd x y blk s = s.keepBusy := by
  have hsample : sampleNTT (parseStream c x y blk s) s.budget = none := by
    rw [sampleNTT_eq, ← goodCandidates_eq, if_neg (by omega)]
  rw [parseWith, show sampleNTT (c.xof128 (s.readBlock blk) _ _) s.budget = _ from hsample]

end Parse

/-- Settles O25: with enough candidates the slot takes the first 256, which are below q. -/
theorem parseSamplesASlot : Obligations.ParseSamplesASlot := by
  refine ⟨fun pd x y blk s => runs_encode (.parse pd x y blk) rfl rfl, fun c pd x y blk s => ?_,
    reservedBitsFault_of_rowOf rfl (by decide)⟩
  intro good
  refine ⟨fun henough => ?_, parseWith_of_few⟩
  rw [parseWith_of_enough henough]
  refine writesSlot_setSlotVals s pd _ .ntt (Coeffs.ofList_lt fun v hv => ?_) fun j => ?_
  · rw [goodCandidates_eq] at hv
    exact candidatesFrom_lt _ _ _ v (List.mem_of_mem_take hv)
  · rw [Coeffs.ofList_at _ j.isLt, List.getD_eq_getElem?_getD, List.getElem?_take_of_lt j.isLt,
      ← List.getD_eq_getElem?_getD]
    rfl

/-! ## PARSE's unit steps (R252, R415) -/

/-- A running unit after `k` unit steps of its command that did not end it: the model's count has grown (log entry 2). -/
def State.afterWaits (s : State) (p : Pending) (k : Nat) : State :=
  { s with phase := .running { p with attempt := p.attempt + k } }

section Waits

variable {c : Collab} {pd : Slot} {x y : Fin 4} {blk : Blk} {s : State} {p : Pending}

/-- While no unit step has found enough candidates, PARSE has only counted its steps. -/
theorem parseWith_iterate {k : Nat} (hp : s.phase = .running p)
    (hfew : ∀ j < k, (goodCandidates (parseStream c x y blk s) (256 * (p.attempt + j + 1))).length < 256) :
    (fun u => parseWith c pd x y blk u)^[k] s = s.afterWaits p k := by
  induction k with
  | zero => exact congrArg (fun φ => { s with phase := φ }) hp
  | succ k ih =>
    rw [Function.iterate_succ_apply', ih fun j hj => hfew j (by omega)]
    exact parseWith_of_few (s := s.afterWaits p k) (hfew k (by omega))

end Waits

/-- Settles O26: up to the first unit step that looks through enough groups PARSE only counts, by `parseWith_iterate`; that
step completes it. -/
theorem parseCompletesIfItsStreamDoes : Obligations.ParseCompletesIfItsStreamDoes := by
  intro c pd x y blk s hrun stream after
  obtain ⟨p, hp⟩ := hrun
  refine ⟨fun henough => ?_, fun hfew k => ?_⟩
  · obtain ⟨n, hn⟩ := henough
    have hex : ∃ k, 256 ≤ (goodCandidates stream (256 * (p.attempt + k + 1))).length :=
      ⟨n, hn.trans (goodCandidates_length_mono stream (by omega))⟩
    have hbefore : ∀ j < Nat.find hex, (goodCandidates stream (256 * (p.attempt + j + 1))).length < 256 := fun j hj =>
      Nat.lt_of_not_le (Nat.find_min hex hj)
    have hstep : after (Nat.find hex + 1) = parseWith c pd x y blk (s.afterWaits p (Nat.find hex)) := by
      dsimp only [after]
      rw [Function.iterate_succ_apply', parseWith_iterate hp hbefore]
    have hlast := hstep.trans (parseWith_of_enough (s := s.afterWaits p (Nat.find hex)) (Nat.find_spec hex))
    refine ⟨Nat.find hex, fun j hj => ?_, ?_, ?_⟩
    · rw [show after j = _ from parseWith_iterate hp fun i hi => hbefore i (by omega)]; rfl
    · rw [hlast]; rfl
    · rw [hlast]; rfl
  · rw [show after k = _ from parseWith_iterate hp fun j _ => hfew _]; rfl

end Sys2Proof.Machine

/-!
PROOF of the statement of 70_reset_and_hazards.md about the reset input (R400-R402): the state it leaves, and what it finds
drawn from the random source (R53, R164, R329, R411).
-/

namespace Sys2Proof.Machine

/-! ## The draws of an abandoned command -/

section Draws

variable {rand : Nat → Option Byte} {s : State} {n m : Nat}

/-- FRAND draws no further than the pair of its first value below q (R164). -/
theorem frandDraws_le {p k c : Nat} (h : FirstPairBelowQ rand p k c) (n : Nat) : frandDraws rand n p ≤ 2 * k + 2 := by
  induction k generalizing p n with
  | zero =>
    obtain ⟨⟨b0, b1, h0, h1, rfl⟩, hc⟩ := firstPairBelowQ_zero.1 h
    match n with
    | 0 => exact Nat.zero_le _
    | 1 => exact (suppliedBytes_le rand 1 p).trans (by decide)
    | n + 2 => simp [frandDraws, h0, h1, q, hc]
  | succ k ih =>
    obtain ⟨⟨c', ⟨b0, b1, h0, h1, rfl⟩, hc⟩, hnext⟩ := firstPairBelowQ_succ.1 h
    match n with
    | 0 => exact Nat.zero_le _
    | 1 => exact (suppliedBytes_le rand 1 p).trans (by omega)
    | n + 2 =>
      have hdraws : frandDraws rand (n + 2) p = frandDraws rand n (p + 2) + 2 := by
        simp [frandDraws, h0, h1, q, hc]
      have := ih hnext n
      omega

/-- A KEM command draws with DETRNG = 0 and a LEVEL with a row alone (R329). -/
theorem kemDraws_eq_some {k : Nat} (h : s.kemDraws k = some m) :
    s.latchedDetrng = false ∧ s.latchedLevel ≠ 3 ∧ m = k := by
  unfold State.kemDraws at h
  split at h
  · cases h
  · rename_i hno
    rw [Bool.or_eq_true, not_or] at hno
    obtain ⟨hdet, hrow⟩ := hno
    refine ⟨Bool.eq_false_iff.2 hdet, fun hl => hrow ?_, (Option.some.inj h).symm⟩
    rw [hl]; rfl

/-- The commands that draw, and how much of the source each can have taken (R53, R164, R329). -/
theorem drawsOf_eq_some {i : Instr} (h : s.drawsOf rand n i = some m) :
    (∃ rd, i = .frand rd ∧ m = frandDraws rand n s.randPos) ∨
    ∃ b, ((i = .kemKeygen ∧ b = 64) ∨ (i = .kemEncaps ∧ b = 32)) ∧ s.latchedDetrng = false ∧ s.latchedLevel ≠ 3 ∧
      m = suppliedBytes rand (min n b) s.randPos := by
  cases i
  case frand rd => exact .inl ⟨rd, rfl, (Option.some.inj h).symm⟩
  case kemKeygen => exact .inr ⟨64, .inl ⟨rfl, rfl⟩, kemDraws_eq_some h⟩
  case kemEncaps => exact .inr ⟨32, .inr ⟨rfl, rfl⟩, kemDraws_eq_some h⟩
  all_goals cases h

/-- The bytes drawn are bytes the source has supplied (R411). -/
theorem drawsOf_supplied {i : Instr} (h : s.drawsOf rand n i = some m) {x : Nat} (hx : s.randPos ≤ x)
    (hm : x < s.randPos + m) : (rand x).isSome = true := by
  obtain ⟨rd, -, rfl⟩ | ⟨b, -, -, -, rfl⟩ := drawsOf_eq_some h
  · exact frandDraws_supplied n hx hm
  · exact suppliedBytes_supplied hx hm

/-- A KEM command draws at most the bytes it wants. -/
theorem drawsOf_kem_le {b : Nat} {i : Instr} (hi : (i = .kemKeygen ∧ b = 64) ∨ (i = .kemEncaps ∧ b = 32))
    (h : s.drawsOf rand n i = some m) : m ≤ b := by
  obtain ⟨rfl, rfl⟩ | ⟨rfl, rfl⟩ := hi
  all_goals
    obtain ⟨-, -, rfl⟩ := kemDraws_eq_some h
    exact (suppliedBytes_le _ _ _).trans (Nat.min_le_right _ _)

/-- What a reset finds drawn is what the running command can draw. -/
theorem abandonedDraws_of_running {p : Pending} {i : Instr} (hp : s.phase = .running p) (hi : decode p.cmd = .command i) :
    s.abandonedDraws rand n = s.drawsOf rand n i := by
  unfold State.abandonedDraws
  rw [hp]; dsimp only; rw [hi]

theorem abandonedDraws_eq_some (h : s.abandonedDraws rand n = some m) :
    ∃ p i, s.phase = .running p ∧ decode p.cmd = .command i ∧ s.drawsOf rand n i = some m := by
  cases hp : s.phase with
  | idle => simp [State.abandonedDraws, hp] at h
  | initialising => simp [State.abandonedDraws, hp] at h
  | running p =>
    cases hi : decode p.cmd with
    | rejected e => simp [State.abandonedDraws, hp, hi] at h
    | command i => exact ⟨p, i, rfl, hi, (abandonedDraws_of_running hp hi).symm.trans h⟩

/-- A command that a reset finds to have drawn is one that may draw. -/
theorem mayDraw_of_abandonedDraws {p : Pending} (hp : s.phase = .running p) (h : s.abandonedDraws rand n = some m) :
    mayDraw p := by
  obtain ⟨p', i, hp', hi, hdraws⟩ := abandonedDraws_eq_some h
  obtain rfl : p = p' := Phase.running.inj (hp.symm.trans hp')
  have hdet : s.latchedDetrng = p.detrng := by rw [State.latchedDetrng, hp]
  have hlev : s.latchedLevel = p.level := by rw [State.latchedLevel, hp]
  obtain ⟨rd, rfl, -⟩ | ⟨b, hkem, hd, hl, -⟩ := drawsOf_eq_some hdraws
  · exact .inl ⟨rd, hi⟩
  · refine .inr ⟨?_, hdet ▸ hd, hlev ▸ hl⟩
    obtain ⟨rfl, -⟩ | ⟨rfl, -⟩ := hkem
    · exact .inl hi
    · exact .inr hi

/-- The source's position after a reset. -/
theorem abandonDraws_fst (s : State) (rand : Nat → Option Byte) : (s.abandonDraws rand).1 =
    s.randPos + (s.abandonedDraws rand (Config.drawsAbandoned s.freeDraws)).getD 0 := by
  unfold State.abandonDraws
  cases s.abandonedDraws rand (Config.drawsAbandoned s.freeDraws) <;> rfl

end Draws

/-! ## The state after a reset -/

/-- Where the next move is `wait` the unit takes its step (R92). -/
theorem step_of_wait {s : State} {rest : List HostEvent} (h : s.script = .wait :: rest) :
    step s = unitStep { s with script := rest } := step_of_move h

/-- The unit's step after a reset ends initialisation (R401). -/
theorem unitStep_resetBlock (s : State) (rand : Nat → Option Byte) :
    unitStep (s.resetBlock rand) = .next { s.resetBlock rand with phase := .idle } :=
  unitStep_of_initialising rfl

/-- A position no later than the source's at a reset bounds it after one, if it bounds every count of draws found. -/
theorem resetBlock_randPos_le {s : State} {rand : Nat → Option Byte} {b : Nat}
    (h : ∀ m, s.abandonedDraws rand (Config.drawsAbandoned s.freeDraws) = some m → m ≤ b) :
    (s.resetBlock rand).randPos ≤ s.randPos + b := by
  rw [resetBlock_eq, abandonDraws_fst]
  cases hm : s.abandonedDraws rand (Config.drawsAbandoned s.freeDraws) with
  | none => exact Nat.le_add_right _ _
  | some m => exact Nat.add_le_add_left (h m hm) _

/-- Settles O58: the state by `resetBlock_eq`, the source's position by what the abandoned command can have drawn. -/
theorem resetFromEveryState : Obligations.ResetFromEveryState := by
  refine fun s rest hs => ⟨step_of_move hs, fun rand => ?_⟩
  intro t
  let s' : State := { s with script := rest }
  have hpos : t.randPos = s.randPos + (s'.abandonedDraws rand (Config.drawsAbandoned s.freeDraws)).getD 0 :=
    abandonDraws_fst s' rand
  refine ⟨rfl, rfl, fun hrest => ?_, fun rest' hrest => ?_, ?_, fun x hx hxt => ?_, fun hno => ?_, fun p hp => ?_⟩
  · exact (step_of_empty_script hrest).trans (unitStep_resetBlock s' rand)
  · exact (step_of_wait (s := t) hrest).trans (unitStep_of_initialising (s := { t with script := rest' }) rfl)
  · rw [hpos]; exact Nat.le_add_right _ _
  · rw [hpos] at hxt
    cases hm : s'.abandonedDraws rand (Config.drawsAbandoned s.freeDraws) with
    | none => rw [hm] at hxt; exact absurd hxt (Nat.not_lt.2 hx)
    | some m =>
      rw [hm] at hxt
      obtain ⟨p, i, -, -, hdraws⟩ := abandonedDraws_eq_some hm
      exact drawsOf_supplied (s := s') hdraws hx hxt
  · rw [hpos]
    cases hm : s'.abandonedDraws rand (Config.drawsAbandoned s.freeDraws) with
    | none => rfl
    | some m =>
      obtain ⟨p, -, hp, -⟩ := abandonedDraws_eq_some hm
      exact absurd (mayDraw_of_abandonedDraws hp hm) (hno p hp)
  · have hbound {i : Instr} {b : Nat} (hi : decode p.cmd = .command i)
        (hle : ∀ n m, s'.drawsOf rand n i = some m → m ≤ b) : t.randPos ≤ s.randPos + b :=
      resetBlock_randPos_le (s := s') fun m hm => hle _ m ((abandonedDraws_of_running hp hi).symm.trans hm)
    refine ⟨fun hi => ?_, fun hi => ?_, fun rd k c hi hrej hpair hc => ?_⟩
    · exact hbound hi fun n m => drawsOf_kem_le (.inl ⟨rfl, rfl⟩)
    · exact hbound hi fun n m => drawsOf_kem_le (.inr ⟨rfl, rfl⟩)
    · exact hbound hi fun n m hm => Option.some.inj hm ▸ frandDraws_le ⟨hrej, hpair, hc⟩ n

end Sys2Proof.Machine

/-!
PROOFS of the tier 1 statements of 30_encoding.md (the worked encodings), 20_memory.md and 10_state.md (the step of the unit,
the control and status registers).
-/

namespace Sys2Proof.Machine

/-- Settles O4: each word is the encoding of its command. -/
theorem workedEncodingsDecode : Obligations.WorkedEncodingsDecode :=
  ⟨decode_encode (.fadd 3 1 2), decode_encode (.fneg 4 1), decode_encode (.feq 4 1), decode_encode (.frand 7),
    decode_encode (.fpow 5 1 3327), decode_encode (.fli 1 5), decode_encode (.fcomp 2 1 4), decode_encode (.fbct 1 2 3),
    decode_encode (.fld 1 2 17), decode_encode (.fst 2 1 17), decode_encode (.pntt 1 0), decode_encode (.pbmac 4 1 2),
    decode_encode (.pscale 1 0 3), decode_encode (.pzero 5 .ntt), decode_encode (.parse 1 1 0 99),
    decode_encode (.cbd 2 3 5 199), decode_encode (.penc 0 12 202), decode_encode (.pdec 3 10 148 .normal),
    decode_encode (.pdec 3 12 0 .ntt), decode_encode .kemDecaps⟩

/-! ## The unit's step (R92, R93, R385, R401) -/

/-- When no outside agent moves, a step is the unit's. -/
theorem step_eq_unitStep {s : State} {rest : List HostEvent} (h : s.script = [] ∧ rest = [] ∨ s.script = .wait :: rest) :
    step s = unitStep { s with script := rest } := by
  obtain ⟨hs, rfl⟩ | hs := h
  · rw [step_of_empty_script hs, ← hs]
  · exact step_of_wait hs

/-- Settles O5: the unit's step by its phase. -/
theorem stepRunsTheLatchedCommand : Obligations.StepRunsTheLatchedCommand := by
  intro s rest h
  rw [step_eq_unitStep h]
  refine ⟨fun p i hp hi => ?_, fun p e hp he => ?_, fun hp => unitStep_of_initialising hp, fun hp => unitStep_of_idle hp,
    fun w i hi => ?_⟩
  · exact (unitStep_of_running (s := { s with script := rest }) hp).trans (runWord_of_command hi _)
  · exact (unitStep_of_running (s := { s with script := rest }) hp).trans (runWord_of_rejected he _)
  · exact (step_withFetchWord s w).trans (runWord_of_command hi _)

/-! ## Two steps of the machine (R93) -/

theorem run_succ_of_next {M : Host.Core} {s t : M.State} (h : M.step s = .next t) (k : Nat) :
    M.run (k + 1) s = M.run k t := by
  rw [Host.Core.run, h]

theorem run_one {M : Host.Core} (s : M.State) : M.run 1 s = M.step s := by
  rw [Host.Core.run]
  cases M.step s <;> rfl

/-- Settles O56: the host's CMD write is accepted, and `wait` leaves the next step to the unit. -/
theorem acceptThenCompletion : Obligations.AcceptThenCompletion := by
  intro s rest be w hb he hs
  have haccept : step s = .next (State.accept { s with script := .wait :: rest } w) := by
    rw [step_of_move hs, moveOf, ← writeCmd_accepted (s := { s with script := .wait :: rest }) w hb he, ← hostWrite_cmd]
    exact congrArg _ (busWrite_of_offset _ 0x000C be w)
  have hwait : step (State.accept { s with script := .wait :: rest } w) =
      runWord w (State.accept { s with script := rest } w) :=
    (step_of_wait (s := State.accept { s with script := .wait :: rest } w) rfl).trans
      (unitStep_of_running (s := State.accept { s with script := rest } w) rfl)
  exact ((run_succ_of_next (M := Sys2Proof.core) haccept 1).trans (run_one _)).trans hwait

/-! ## Words made of bits (R14) -/

/-- Bit n of a word made of bits is the n-th of them. -/
theorem wordOfBits_getLsbD {bits : List Bool} (h : bits.length ≤ 32) (n : Nat) :
    (wordOfBits bits).getLsbD n = bits.getD n false := by
  rw [wordOfBits, BitVec.getLsbD_ofNat, bitSum_testBit]
  by_cases hn : n < bits.length
  · simp [hn, lt_of_lt_of_le hn h]
  · simp [hn]

/-- The low k bits of a word, and 0 above them. -/
theorem wordOfBits_low (d : Word) {k : Nat} (h : k ≤ 32) :
    wordOfBits ((List.range k).map d.getLsbD) = d &&& BitVec.ofNat 32 (2 ^ k - 1) := by
  apply BitVec.eq_of_getLsbD_eq
  intro n hn
  rw [wordOfBits_getLsbD (by rw [List.length_map, List.length_range]; exact h), BitVec.getLsbD_and, BitVec.getLsbD_ofNat,
    Nat.testBit_two_pow_sub_one]
  by_cases hk : n < k
  · simp [hk, hn]
  · simp [hk]

/-! ## The control and status registers (R32, R33, R38, R43) -/

section Registers

variable (s : State) (d : Word)

theorem hostWrite_ctrl_of_idle (hb : s.busy = false) : s.hostWrite 0x0004 d = s.writeCtrl d :=
  if_neg (Bool.eq_false_iff.1 hb)

theorem hostWrite_tag_of_idle (hb : s.busy = false) : s.hostWrite 0x0020 d = s.writeTag d :=
  if_neg (Bool.eq_false_iff.1 hb)

theorem hostRead_ctrl : s.hostRead 0x0004 = s.ctrlWord := rfl

theorem hostRead_status : s.hostRead 0x0008 = s.statusWord := rfl

theorem hostRead_irqen : s.hostRead 0x001C = s.irqenWord := rfl

theorem hostRead_tag_of_idle (hb : s.busy = false) : s.hostRead 0x0020 = s.tagWord :=
  if_neg (Bool.eq_false_iff.1 hb)

theorem ctrlWord_writeCtrl : (s.writeCtrl d).ctrlWord = d &&& 0x00000007 := by
  rw [show (0x00000007 : Word) = BitVec.ofNat 32 (2 ^ 3 - 1) from rfl, ← wordOfBits_low d (by decide)]
  simp [State.ctrlWord, List.range_succ]

theorem irqenWord_writeIrqen : (s.writeIrqen d).irqenWord = d &&& 0x00000003 :=
  wordOfBits_low d (k := 2) (by decide)

theorem writeTag_tag (p : Slot) : (s.writeTag d).tag p = if d.getLsbD p then .ntt else .normal :=
  Vector.getElem_ofFn p.isLt

theorem tagWord_writeTag : (s.writeTag d).tagWord = d &&& 0x0000FFFF := by
  rw [show (0x0000FFFF : Word) = BitVec.ofNat 32 (2 ^ 16 - 1) from rfl, ← wordOfBits_low d (by decide), State.tagWord]
  refine congrArg wordOfBits (List.ext_getElem (by simp) fun i h1 h2 => ?_)
  simp only [State.writeTag, List.getElem_map, Vector.getElem_toList, Vector.getElem_ofFn, List.getElem_range]
  cases d.getLsbD i <;> rfl

theorem writeStatus_eq : s.writeStatus d = { s with
    done := s.done && !d.getLsbD 1
    err := s.err && !d.getLsbD 2
    cmdrej := s.cmdrej && !d.getLsbD 4
    busyacc := s.busyacc && !d.getLsbD 5
    badval := s.badval && !d.getLsbD 6 } := by
  unfold State.writeStatus
  cases d.getLsbD 2 with
  | false => rw [Bool.not_false, Bool.and_true]; rfl
  | true => rw [Bool.not_true, Bool.and_false]; rfl

end Registers

/-- Settles O54: each register's write is its own, and what is read back are the low bits of what was written. -/
theorem controlAndStatusRegisters : Obligations.ControlAndStatusRegisters := by
  refine fun s d => ⟨fun hb => ⟨?_, ?_⟩, ⟨?_, rfl⟩, fun hb => ⟨?_, fun p => ?_, ?_⟩, ?_, ?_⟩
  · rw [hostWrite_ctrl_of_idle s d hb, hostRead_ctrl, ctrlWord_writeCtrl]
  · rw [hostWrite_ctrl_of_idle s d hb]; rfl
  · rw [hostWrite_irqen, hostRead_irqen, irqenWord_writeIrqen]
  · rw [hostWrite_tag_of_idle s d hb, hostRead_tag_of_idle _ (by rw [State.writeTag_busy]; exact hb), tagWord_writeTag]
  · rw [hostWrite_tag_of_idle s d hb, writeTag_tag]
  · rw [hostWrite_tag_of_idle s d hb]; rfl
  · have hbit (n : Nat) := wordOfBits_getLsbD (bits := [s.busy, s.done, s.err, s.eqFlag, s.cmdrej, s.busyacc, s.badval])
      (by decide : 7 ≤ 32) n
    rw [hostRead_status]
    exact ⟨hbit 0, hbit 1, hbit 2, hbit 3, hbit 4, hbit 5, hbit 6, fun n hn => (hbit n).trans (List.getD_eq_default _ _ hn)⟩
  · rw [hostWrite_status, writeStatus_eq]

end Sys2Proof.Machine

/-!
PROOF of the statement of 41_poly_ntt.md about the forward transform (R205): the value of a polynomial at the root of
X² = γ_i has the sums over its even and over its odd coefficients as its two coordinates.
-/

namespace Sys2Proof.Machine

section Residues

variable (f : Coeffs) (i : Nat)

theorem algebraMap_blockRing (a : ZMod 3329) : algebraMap (ZMod 3329) (BlockRing i) a = ⟨a, 0⟩ := by
  ext <;> simp

theorem blockRoot_pow_even (m : Nat) : blockRoot i ^ (2 * m) = (⟨(gamma i : ZMod 3329) ^ m, 0⟩ : BlockRing i) := by
  rw [pow_mul, blockRoot_sq, ← map_pow, algebraMap_blockRing]

theorem blockRoot_pow_odd (m : Nat) : blockRoot i ^ (2 * m + 1) = (⟨0, (gamma i : ZMod 3329) ^ m⟩ : BlockRing i) := by
  rw [pow_succ, blockRoot_pow_even]
  ext <;> simp [blockRoot]

/-- The even coefficients make the first coordinate, the odd ones the second. -/
theorem valueFrom_blockRoot (n : Nat) : f.valueFrom 0 (2 * n) (blockRoot i) =
    (⟨∑ m ∈ Finset.range n, (f.at (2 * m) : ZMod 3329) * (gamma i : ZMod 3329) ^ m,
      ∑ m ∈ Finset.range n, (f.at (2 * m + 1) : ZMod 3329) * (gamma i : ZMod 3329) ^ m⟩ : BlockRing i) := by
  induction n with
  | zero => rfl
  | succ n ih =>
    have hnext : f.valueFrom 0 (2 * (n + 1)) (blockRoot i) = f.valueFrom 0 (2 * n) (blockRoot i) +
        (f.at (2 * n) : ZMod 3329) • blockRoot i ^ (2 * n) +
        (f.at (2 * n + 1) : ZMod 3329) • blockRoot i ^ (2 * n + 1) := by
      simp only [Coeffs.valueFrom, Nat.zero_add, Nat.mul_succ, Finset.sum_range_succ]
    rw [hnext, ih, blockRoot_pow_even, blockRoot_pow_odd]
    ext <;> simp [Finset.sum_range_succ]

end Residues

/-- A sum of products modulo q, from its value in Z_q. -/
theorem eq_sum_mod_q {v : Nat} (hv : v < 3329) {n : Nat} {a b : Nat → Nat}
    (h : (v : ZMod 3329) = ∑ m ∈ Finset.range n, (a m : ZMod 3329) * (b m : ZMod 3329)) :
    v = (∑ m ∈ Finset.range n, a m * b m) % 3329 := by
  have hcast : (v : ZMod 3329) = ((∑ m ∈ Finset.range n, a m * b m : Nat) : ZMod 3329) := by
    rw [h]; push_cast; rfl
  rw [← Nat.mod_eq_of_lt hv]
  exact (ZMod.natCast_eq_natCast_iff' _ _ _).1 hcast

/-- Settles O21: block i of the transform is the value at the root of X² = γ_i (`blockValue_ntt`), coordinate by
coordinate. -/
theorem nttGivesTheResidues : Obligations.NttGivesTheResidues := by
  intro f i hi
  have hvalue : (⟨(ntt f).at (2 * i), (ntt f).at (2 * i + 1)⟩ : BlockRing i) = f.valueFrom 0 (2 * 128) (blockRoot i) := by
    rw [← blockValue_blockRoot, blockValue_ntt hi (blockRoot_sq i)]
  rw [valueFrom_blockRoot, QuadraticAlgebra.mk.injEq] at hvalue
  obtain ⟨heven, hodd⟩ := hvalue
  exact ⟨eq_sum_mod_q (ntt_lt f _) (heven.trans (by simp)), eq_sum_mod_q (ntt_lt f _) (hodd.trans (by simp))⟩

end Sys2Proof.Machine
